-- ==== Sys2Proof/Word.lean ====
section
/-! DEFINITION. The machine's word types (00_scope.md R9, R10).

A register, `pc`, `sp`, an immediate and an address held in a register are 16-bit patterns; their
readings `u16` and `s16` are `BitVec.toNat` and `BitVec.toInt`, and `trunc16` is `BitVec.ofInt 16`
(on naturals `BitVec.ofNat 16`). -/

namespace Sys2Proof

/-- A 16-bit pattern (00_scope.md R9 `XLEN`, R10). -/
abbrev Word := BitVec 16

/-- An 8-bit pattern: a byte of memory, `FLAGS`, a framebuffer cell, a sprite dimension. -/
abbrev Byte := BitVec 8

/-- A 32-bit palette word `0x00RRGGBB` (10_state.md R35). -/
abbrev Rgb := BitVec 32

/-- A colour index of 4 bits (10_state.md R32). -/
abbrev Colour := BitVec 4

/-- The name of a general register `R0`..`R15`; every 4-bit index names one (10_state.md R20, R21). -/
abbrev Reg := Fin 16

/-- A 4-bit condition index; index 0xF names no condition (10_state.md R30). -/
abbrev CondIndex := Fin 16

/-- An immediate shift count 0..15 (45_shift.md R190). -/
abbrev ShiftCount := Fin 16

end Sys2Proof
end

