-- ==== Sys2Proof/Machine/Bits.lean ====
section
/-! DEFINITION. Bytes, nibbles and single bits of the machine's words (00_scope.md R10, 20_memory.md R51). -/

namespace Sys2Proof

/-- `v[7:0]`. -/
def lowByte (w : Word) : Byte := w.extractLsb' 0 8

/-- `v[15:8]`. -/
def highByte (w : Word) : Byte := w.extractLsb' 8 8

/-- `hi : lo`, the word of a low and a high byte (20_memory.md R51). -/
def joinBytes (lo hi : Byte) : Word := hi ++ lo

/-- `b[3:0]`. -/
def lowNibble (b : Byte) : BitVec 4 := b.extractLsb' 0 4

/-- `b[7:4]`. -/
def highNibble (b : Byte) : BitVec 4 := b.extractLsb' 4 4

/-- `hi : lo`, the byte of a low and a high nibble. -/
def joinNibbles (lo hi : BitVec 4) : Byte := hi ++ lo

/-- `zext_8` of a nibble: a palette index widened to a byte (10_state.md R36). -/
def widen (p : BitVec 4) : Byte := p.setWidth 8

/-- The palette word `0x00RRGGBB` of three bytes (47_palette_unary.md R210). -/
def rgbOf (r g b : Byte) : Rgb := (0 : Byte) ++ r ++ g ++ b

/-- Bit `i` set or cleared, every other bit kept (10_state.md R28). -/
def putBit (f : Byte) (i : Nat) (v : Bool) : Byte :=
  if v then f ||| (1#8 <<< i) else f &&& ~~~(1#8 <<< i)

end Sys2Proof
end

