-- ==== Sys2Proof/Syntax.lean ====
section
/-! DEFINITION. The instructions: one constructor per row of spec/opcode_table.json, in the order of
30_encoding.md R78, with the operands its format gives it (R77).

Register fields are `Reg`, so no index is illegal (10_state.md R21). The condition index keeps all
sixteen values: 0xF is an encoding that faults (R80, log 12). The operands of the sound instructions
are kept for a disassembler; nothing reads them (49_sound_nop.md R257). -/

namespace Sys2Proof

/-- The four bytes of an instruction in memory order, `b0` at the lowest address (30_encoding.md R71). -/
structure InstrBytes where
  b0 : Byte
  b1 : Byte
  b2 : Byte
  b3 : Byte
  deriving DecidableEq, Repr

/-- One instruction with its operands. -/
inductive Instr where
  /-- `NOP` (0x00, format N0): 49_sound_nop.md R250. -/
  | nop
  /-- `CLS` (0x01, format N0): 48_graphics.md R220. -/
  | cls
  /-- `VBLNK` (0x02, format N0): 48_graphics.md R224. -/
  | vblnk
  /-- `BGC N` (0x03, format BG): 48_graphics.md R221. -/
  | bgc (nib : Colour)
  /-- `SPR HHLL` (0x04, format WH): 48_graphics.md R222. -/
  | spr (w h : Byte)
  /-- `DRW RX, RY, HHLL` (0x05, format RRI): 48_graphics.md R227. -/
  | drw (rx ry : Reg) (imm : Word)
  /-- `DRW RX, RY, RZ` (0x06, format RRR): 48_graphics.md R228. -/
  | drw2 (rx ry rz : Reg)
  /-- `RND RX, HHLL` (0x07, format RI): 48_graphics.md R225. -/
  | rnd (rx : Reg) (imm : Word)
  /-- `FLIP h, v` (0x08, format FL): 48_graphics.md R223. -/
  | flip (h v : Bool)
  /-- `SND0` (0x09, format N0): 49_sound_nop.md R251. -/
  | snd0
  /-- `SND1 HHLL` (0x0A, format I): 49_sound_nop.md R252. -/
  | snd1 (imm : Word)
  /-- `SND2 HHLL` (0x0B, format I): 49_sound_nop.md R253. -/
  | snd2 (imm : Word)
  /-- `SND3 HHLL` (0x0C, format I): 49_sound_nop.md R254. -/
  | snd3 (imm : Word)
  /-- `SNP RX, HHLL` (0x0D, format RI): 49_sound_nop.md R255. -/
  | snp (rx : Reg) (imm : Word)
  /-- `SNG AD, VTSR` (0x0E, format SG): 49_sound_nop.md R256. -/
  | sng (ad vt sr : Byte)
  /-- `JMP HHLL` (0x10, format I): 40_control_flow.md R100. -/
  | jmp (imm : Word)
  /-- `JMC HHLL` (0x11, format I): 40_control_flow.md R101. -/
  | jmc (imm : Word)
  /-- `Jx HHLL` (0x12, format CI): 40_control_flow.md R102. -/
  | jx (cnd : CondIndex) (imm : Word)
  /-- `JME RX, RY, HHLL` (0x13, format RRI): 40_control_flow.md R103. -/
  | jme (rx ry : Reg) (imm : Word)
  /-- `CALL HHLL` (0x14, format I): 40_control_flow.md R104. -/
  | call (imm : Word)
  /-- `RET` (0x15, format N0): 40_control_flow.md R105. -/
  | ret
  /-- `JMP RX` (0x16, format R): 40_control_flow.md R106. -/
  | jmp2 (rx : Reg)
  /-- `Cx HHLL` (0x17, format CI): 40_control_flow.md R107. -/
  | cx (cnd : CondIndex) (imm : Word)
  /-- `CALL RX` (0x18, format R): 40_control_flow.md R108. -/
  | call2 (rx : Reg)
  /-- `LDI RX, HHLL` (0x20, format RI): 41_load_store.md R120. -/
  | ldi (rx : Reg) (imm : Word)
  /-- `LDI SP, HHLL` (0x21, format I): 41_load_store.md R121. -/
  | ldi2 (imm : Word)
  /-- `LDM RX, HHLL` (0x22, format RI): 41_load_store.md R122. -/
  | ldm (rx : Reg) (imm : Word)
  /-- `LDM RX, RY` (0x23, format RR): 41_load_store.md R123. -/
  | ldm2 (rx ry : Reg)
  /-- `MOV RX, RY` (0x24, format RR): 41_load_store.md R124. -/
  | mov (rx ry : Reg)
  /-- `STM RX, HHLL` (0x30, format RI): 41_load_store.md R125. -/
  | stm (rx : Reg) (imm : Word)
  /-- `STM RX, RY` (0x31, format RR): 41_load_store.md R126. -/
  | stm2 (rx ry : Reg)
  /-- `ADDI RX, HHLL` (0x40, format RI): 42_arithmetic.md R132. -/
  | addi (rx : Reg) (imm : Word)
  /-- `ADD RX, RY` (0x41, format RR): 42_arithmetic.md R133. -/
  | add (rx ry : Reg)
  /-- `ADD RX, RY, RZ` (0x42, format RRR): 42_arithmetic.md R134. -/
  | add2 (rx ry rz : Reg)
  /-- `SUBI RX, HHLL` (0x50, format RI): 42_arithmetic.md R135. -/
  | subi (rx : Reg) (imm : Word)
  /-- `SUB RX, RY` (0x51, format RR): 42_arithmetic.md R136. -/
  | sub (rx ry : Reg)
  /-- `SUB RX, RY, RZ` (0x52, format RRR): 42_arithmetic.md R137. -/
  | sub2 (rx ry rz : Reg)
  /-- `CMPI RX, HHLL` (0x53, format RI): 42_arithmetic.md R138. -/
  | cmpi (rx : Reg) (imm : Word)
  /-- `CMP RX, RY` (0x54, format RR): 42_arithmetic.md R139. -/
  | cmp (rx ry : Reg)
  /-- `ANDI RX, HHLL` (0x60, format RI): 43_bitwise.md R150. -/
  | andi (rx : Reg) (imm : Word)
  /-- `AND RX, RY` (0x61, format RR): 43_bitwise.md R151. -/
  | and (rx ry : Reg)
  /-- `AND RX, RY, RZ` (0x62, format RRR): 43_bitwise.md R152. -/
  | and2 (rx ry rz : Reg)
  /-- `TSTI RX, HHLL` (0x63, format RI): 43_bitwise.md R153. -/
  | tsti (rx : Reg) (imm : Word)
  /-- `TST RX, RY` (0x64, format RR): 43_bitwise.md R154. -/
  | tst (rx ry : Reg)
  /-- `ORI RX, HHLL` (0x70, format RI): 43_bitwise.md R155. -/
  | ori (rx : Reg) (imm : Word)
  /-- `OR RX, RY` (0x71, format RR): 43_bitwise.md R156. -/
  | or (rx ry : Reg)
  /-- `OR RX, RY, RZ` (0x72, format RRR): 43_bitwise.md R157. -/
  | or2 (rx ry rz : Reg)
  /-- `XORI RX, HHLL` (0x80, format RI): 43_bitwise.md R158. -/
  | xori (rx : Reg) (imm : Word)
  /-- `XOR RX, RY` (0x81, format RR): 43_bitwise.md R159. -/
  | xor (rx ry : Reg)
  /-- `XOR RX, RY, RZ` (0x82, format RRR): 43_bitwise.md R160. -/
  | xor2 (rx ry rz : Reg)
  /-- `MULI RX, HHLL` (0x90, format RI): 44_muldiv.md R171. -/
  | muli (rx : Reg) (imm : Word)
  /-- `MUL RX, RY` (0x91, format RR): 44_muldiv.md R172. -/
  | mul (rx ry : Reg)
  /-- `MUL RX, RY, RZ` (0x92, format RRR): 44_muldiv.md R173. -/
  | mul2 (rx ry rz : Reg)
  /-- `DIVI RX, HHLL` (0xA0, format RI): 44_muldiv.md R175. -/
  | divi (rx : Reg) (imm : Word)
  /-- `DIV RX, RY` (0xA1, format RR): 44_muldiv.md R176. -/
  | div (rx ry : Reg)
  /-- `DIV RX, RY, RZ` (0xA2, format RRR): 44_muldiv.md R177. -/
  | div2 (rx ry rz : Reg)
  /-- `MODI RX, HHLL` (0xA3, format RI): 44_muldiv.md R179. -/
  | modi (rx : Reg) (imm : Word)
  /-- `MOD RX, RY` (0xA4, format RR): 44_muldiv.md R180. -/
  | mod (rx ry : Reg)
  /-- `MOD RX, RY, RZ` (0xA5, format RRR): 44_muldiv.md R181. -/
  | mod2 (rx ry rz : Reg)
  /-- `REMI RX, HHLL` (0xA6, format RI): 44_muldiv.md R183. -/
  | remi (rx : Reg) (imm : Word)
  /-- `REM RX, RY` (0xA7, format RR): 44_muldiv.md R184. -/
  | rem (rx ry : Reg)
  /-- `REM RX, RY, RZ` (0xA8, format RRR): 44_muldiv.md R185. -/
  | rem2 (rx ry rz : Reg)
  /-- `SHL RX, N` (0xB0, format RS): 45_shift.md R191. -/
  | shl (rx : Reg) (sh : ShiftCount)
  /-- `SHR RX, N` (0xB1, format RS): 45_shift.md R192. -/
  | shr (rx : Reg) (sh : ShiftCount)
  /-- `SAR RX, N` (0xB2, format RS): 45_shift.md R193. -/
  | sar (rx : Reg) (sh : ShiftCount)
  /-- `SHL RX, RY` (0xB3, format RR): 45_shift.md R194. -/
  | shl2 (rx ry : Reg)
  /-- `SHR RX, RY` (0xB4, format RR): 45_shift.md R195. -/
  | shr2 (rx ry : Reg)
  /-- `SAR RX, RY` (0xB5, format RR): 45_shift.md R196. -/
  | sar2 (rx ry : Reg)
  /-- `PUSH RX` (0xC0, format R): 46_stack.md R202. -/
  | push (rx : Reg)
  /-- `POP RX` (0xC1, format R): 46_stack.md R203. -/
  | pop (rx : Reg)
  /-- `PUSHALL` (0xC2, format N0): 46_stack.md R204. -/
  | pushall
  /-- `POPALL` (0xC3, format N0): 46_stack.md R205. -/
  | popall
  /-- `PUSHF` (0xC4, format N0): 46_stack.md R206. -/
  | pushf
  /-- `POPF` (0xC5, format N0): 46_stack.md R207. -/
  | popf
  /-- `PAL HHLL` (0xD0, format I): 47_palette_unary.md R210. -/
  | pal (imm : Word)
  /-- `PAL RX` (0xD1, format R): 47_palette_unary.md R211. -/
  | pal2 (rx : Reg)
  /-- `NOTI RX, HHLL` (0xE0, format RI): 47_palette_unary.md R212. -/
  | noti (rx : Reg) (imm : Word)
  /-- `NOT RX` (0xE1, format R): 47_palette_unary.md R213. -/
  | not (rx : Reg)
  /-- `NOT RX, RY` (0xE2, format RR): 47_palette_unary.md R214. -/
  | not2 (rx ry : Reg)
  /-- `NEGI RX, HHLL` (0xE3, format RI): 47_palette_unary.md R215. -/
  | negi (rx : Reg) (imm : Word)
  /-- `NEG RX` (0xE4, format R): 47_palette_unary.md R216. -/
  | neg (rx : Reg)
  /-- `NEG RX, RY` (0xE5, format RR): 47_palette_unary.md R217. -/
  | neg2 (rx ry : Reg)
  deriving DecidableEq, Repr

end Sys2Proof
end

