-- ==== Sys2Proof/Decode.lean ====
section
/-! DEFINITION. Decoding, and after it an encoder (30_encoding.md R71 to R80).

Dispatch depends on `b0` alone; every byte outside the table of R78 is rejected by name (R79). Bits a
format does not use are ignored (R76, log 11). The opcode bytes and operand places are those of
30_encoding.md R73 to R78 (log 16). -/

namespace Sys2Proof

/-! ## The fields of an instruction (30_encoding.md R73 to R75) -/

/-- `rx = b1[3:0]` (R74, R75). -/
def InstrBytes.rx (b : InstrBytes) : Reg := (lowNibble b.b1).toFin

/-- `ry = b1[7:4]` (R74). -/
def InstrBytes.ry (b : InstrBytes) : Reg := (highNibble b.b1).toFin

/-- `rz = b2[3:0]` (R75). -/
def InstrBytes.rz (b : InstrBytes) : Reg := (lowNibble b.b2).toFin

/-- `cnd = b1[3:0]` (R75). -/
def InstrBytes.cnd (b : InstrBytes) : CondIndex := (lowNibble b.b1).toFin

/-- `sh = b2[3:0]` (R75). -/
def InstrBytes.sh (b : InstrBytes) : ShiftCount := (lowNibble b.b2).toFin

/-- `nib = b2[3:0]` (R75). -/
def InstrBytes.nib (b : InstrBytes) : Colour := lowNibble b.b2

/-- `imm = b3 : b2`, low byte first (R73). -/
def InstrBytes.imm (b : InstrBytes) : Word := joinBytes b.b2 b.b3

/-- The horizontal flip bit `b3[1]` (R75). -/
def InstrBytes.hflip (b : InstrBytes) : Bool := b.b3.getLsbD 1

/-- The vertical flip bit `b3[0]` (R75). -/
def InstrBytes.vflip (b : InstrBytes) : Bool := b.b3.getLsbD 0

/-! ## Decode -/

/-- Why four bytes are no instruction. -/
inductive DecodeError where
  /-- An opcode byte outside the table of 30_encoding.md R78 (R79). -/
  | badOpcode (b0 : Byte)
  deriving DecidableEq, Repr

/-- The instruction the four bytes stand for: the table of 30_encoding.md R78. -/
def decode (b : InstrBytes) : Except DecodeError Instr :=
  match b.b0.toNat with
  | 0x00 => .ok .nop
  | 0x01 => .ok .cls
  | 0x02 => .ok .vblnk
  | 0x03 => .ok (.bgc b.nib)
  | 0x04 => .ok (.spr b.b2 b.b3)
  | 0x05 => .ok (.drw b.rx b.ry b.imm)
  | 0x06 => .ok (.drw2 b.rx b.ry b.rz)
  | 0x07 => .ok (.rnd b.rx b.imm)
  | 0x08 => .ok (.flip b.hflip b.vflip)
  | 0x09 => .ok .snd0
  | 0x0A => .ok (.snd1 b.imm)
  | 0x0B => .ok (.snd2 b.imm)
  | 0x0C => .ok (.snd3 b.imm)
  | 0x0D => .ok (.snp b.rx b.imm)
  | 0x0E => .ok (.sng b.b1 b.b2 b.b3)
  | 0x10 => .ok (.jmp b.imm)
  | 0x11 => .ok (.jmc b.imm)
  | 0x12 => .ok (.jx b.cnd b.imm)
  | 0x13 => .ok (.jme b.rx b.ry b.imm)
  | 0x14 => .ok (.call b.imm)
  | 0x15 => .ok .ret
  | 0x16 => .ok (.jmp2 b.rx)
  | 0x17 => .ok (.cx b.cnd b.imm)
  | 0x18 => .ok (.call2 b.rx)
  | 0x20 => .ok (.ldi b.rx b.imm)
  | 0x21 => .ok (.ldi2 b.imm)
  | 0x22 => .ok (.ldm b.rx b.imm)
  | 0x23 => .ok (.ldm2 b.rx b.ry)
  | 0x24 => .ok (.mov b.rx b.ry)
  | 0x30 => .ok (.stm b.rx b.imm)
  | 0x31 => .ok (.stm2 b.rx b.ry)
  | 0x40 => .ok (.addi b.rx b.imm)
  | 0x41 => .ok (.add b.rx b.ry)
  | 0x42 => .ok (.add2 b.rx b.ry b.rz)
  | 0x50 => .ok (.subi b.rx b.imm)
  | 0x51 => .ok (.sub b.rx b.ry)
  | 0x52 => .ok (.sub2 b.rx b.ry b.rz)
  | 0x53 => .ok (.cmpi b.rx b.imm)
  | 0x54 => .ok (.cmp b.rx b.ry)
  | 0x60 => .ok (.andi b.rx b.imm)
  | 0x61 => .ok (.and b.rx b.ry)
  | 0x62 => .ok (.and2 b.rx b.ry b.rz)
  | 0x63 => .ok (.tsti b.rx b.imm)
  | 0x64 => .ok (.tst b.rx b.ry)
  | 0x70 => .ok (.ori b.rx b.imm)
  | 0x71 => .ok (.or b.rx b.ry)
  | 0x72 => .ok (.or2 b.rx b.ry b.rz)
  | 0x80 => .ok (.xori b.rx b.imm)
  | 0x81 => .ok (.xor b.rx b.ry)
  | 0x82 => .ok (.xor2 b.rx b.ry b.rz)
  | 0x90 => .ok (.muli b.rx b.imm)
  | 0x91 => .ok (.mul b.rx b.ry)
  | 0x92 => .ok (.mul2 b.rx b.ry b.rz)
  | 0xA0 => .ok (.divi b.rx b.imm)
  | 0xA1 => .ok (.div b.rx b.ry)
  | 0xA2 => .ok (.div2 b.rx b.ry b.rz)
  | 0xA3 => .ok (.modi b.rx b.imm)
  | 0xA4 => .ok (.mod b.rx b.ry)
  | 0xA5 => .ok (.mod2 b.rx b.ry b.rz)
  | 0xA6 => .ok (.remi b.rx b.imm)
  | 0xA7 => .ok (.rem b.rx b.ry)
  | 0xA8 => .ok (.rem2 b.rx b.ry b.rz)
  | 0xB0 => .ok (.shl b.rx b.sh)
  | 0xB1 => .ok (.shr b.rx b.sh)
  | 0xB2 => .ok (.sar b.rx b.sh)
  | 0xB3 => .ok (.shl2 b.rx b.ry)
  | 0xB4 => .ok (.shr2 b.rx b.ry)
  | 0xB5 => .ok (.sar2 b.rx b.ry)
  | 0xC0 => .ok (.push b.rx)
  | 0xC1 => .ok (.pop b.rx)
  | 0xC2 => .ok .pushall
  | 0xC3 => .ok .popall
  | 0xC4 => .ok .pushf
  | 0xC5 => .ok .popf
  | 0xD0 => .ok (.pal b.imm)
  | 0xD1 => .ok (.pal2 b.rx)
  | 0xE0 => .ok (.noti b.rx b.imm)
  | 0xE1 => .ok (.not b.rx)
  | 0xE2 => .ok (.not2 b.rx b.ry)
  | 0xE3 => .ok (.negi b.rx b.imm)
  | 0xE4 => .ok (.neg b.rx)
  | 0xE5 => .ok (.neg2 b.rx b.ry)
  | _ => .error (.badOpcode b.b0)

/-! ## The formats and the bits they use (30_encoding.md R76, R77) -/

/-- The formats of 30_encoding.md R77. -/
inductive Format where
  | n0 | i | ci | ri | r | rr | rri | rrr | rs | bg | wh | fl | sg
  deriving DecidableEq, Repr

/-- The format of an opcode byte, none for an invalid one (30_encoding.md R78, R79). -/
def formatOf (b0 : Byte) : Option Format :=
  match b0.toNat with
  | 0x00 => some .n0
  | 0x01 => some .n0
  | 0x02 => some .n0
  | 0x03 => some .bg
  | 0x04 => some .wh
  | 0x05 => some .rri
  | 0x06 => some .rrr
  | 0x07 => some .ri
  | 0x08 => some .fl
  | 0x09 => some .n0
  | 0x0A => some .i
  | 0x0B => some .i
  | 0x0C => some .i
  | 0x0D => some .ri
  | 0x0E => some .sg
  | 0x10 => some .i
  | 0x11 => some .i
  | 0x12 => some .ci
  | 0x13 => some .rri
  | 0x14 => some .i
  | 0x15 => some .n0
  | 0x16 => some .r
  | 0x17 => some .ci
  | 0x18 => some .r
  | 0x20 => some .ri
  | 0x21 => some .i
  | 0x22 => some .ri
  | 0x23 => some .rr
  | 0x24 => some .rr
  | 0x30 => some .ri
  | 0x31 => some .rr
  | 0x40 => some .ri
  | 0x41 => some .rr
  | 0x42 => some .rrr
  | 0x50 => some .ri
  | 0x51 => some .rr
  | 0x52 => some .rrr
  | 0x53 => some .ri
  | 0x54 => some .rr
  | 0x60 => some .ri
  | 0x61 => some .rr
  | 0x62 => some .rrr
  | 0x63 => some .ri
  | 0x64 => some .rr
  | 0x70 => some .ri
  | 0x71 => some .rr
  | 0x72 => some .rrr
  | 0x80 => some .ri
  | 0x81 => some .rr
  | 0x82 => some .rrr
  | 0x90 => some .ri
  | 0x91 => some .rr
  | 0x92 => some .rrr
  | 0xA0 => some .ri
  | 0xA1 => some .rr
  | 0xA2 => some .rrr
  | 0xA3 => some .ri
  | 0xA4 => some .rr
  | 0xA5 => some .rrr
  | 0xA6 => some .ri
  | 0xA7 => some .rr
  | 0xA8 => some .rrr
  | 0xB0 => some .rs
  | 0xB1 => some .rs
  | 0xB2 => some .rs
  | 0xB3 => some .rr
  | 0xB4 => some .rr
  | 0xB5 => some .rr
  | 0xC0 => some .r
  | 0xC1 => some .r
  | 0xC2 => some .n0
  | 0xC3 => some .n0
  | 0xC4 => some .n0
  | 0xC5 => some .n0
  | 0xD0 => some .i
  | 0xD1 => some .r
  | 0xE0 => some .ri
  | 0xE1 => some .r
  | 0xE2 => some .rr
  | 0xE3 => some .ri
  | 0xE4 => some .r
  | 0xE5 => some .rr
  | _ => none

/-- The bytes with every bit the format ignores set to 0 (30_encoding.md R76, R77). -/
def Format.clearIgnored (f : Format) (b : InstrBytes) : InstrBytes :=
  match f with
  | .n0 => ⟨b.b0, 0, 0, 0⟩
  | .i => ⟨b.b0, 0, b.b2, b.b3⟩
  | .ci => ⟨b.b0, b.b1 &&& 0x0F, b.b2, b.b3⟩
  | .ri => ⟨b.b0, b.b1 &&& 0x0F, b.b2, b.b3⟩
  | .r => ⟨b.b0, b.b1 &&& 0x0F, 0, 0⟩
  | .rr => ⟨b.b0, b.b1, 0, 0⟩
  | .rri => b
  | .rrr => ⟨b.b0, b.b1, b.b2 &&& 0x0F, 0⟩
  | .rs => ⟨b.b0, b.b1 &&& 0x0F, b.b2 &&& 0x0F, 0⟩
  | .bg => ⟨b.b0, 0, b.b2 &&& 0x0F, 0⟩
  | .wh => ⟨b.b0, 0, b.b2, b.b3⟩
  | .fl => ⟨b.b0, 0, 0, b.b3 &&& 0x03⟩
  | .sg => b

/-- The bytes with the bits their opcode's format ignores set to 0. -/
def InstrBytes.clearIgnored (b : InstrBytes) : InstrBytes :=
  match formatOf b.b0 with
  | some f => f.clearIgnored b
  | none => b

/-! ## Encode (30_encoding.md R77, R78) -/

def encodeN0 (op : Byte) : InstrBytes := ⟨op, 0, 0, 0⟩

def encodeI (op : Byte) (imm : Word) : InstrBytes := ⟨op, 0, lowByte imm, highByte imm⟩

def encodeCi (op : Byte) (cnd : CondIndex) (imm : Word) : InstrBytes :=
  ⟨op, joinNibbles (BitVec.ofFin cnd) 0, lowByte imm, highByte imm⟩

def encodeRi (op : Byte) (rx : Reg) (imm : Word) : InstrBytes :=
  ⟨op, joinNibbles (BitVec.ofFin rx) 0, lowByte imm, highByte imm⟩

def encodeR (op : Byte) (rx : Reg) : InstrBytes := ⟨op, joinNibbles (BitVec.ofFin rx) 0, 0, 0⟩

def encodeRr (op : Byte) (rx ry : Reg) : InstrBytes :=
  ⟨op, joinNibbles (BitVec.ofFin rx) (BitVec.ofFin ry), 0, 0⟩

def encodeRri (op : Byte) (rx ry : Reg) (imm : Word) : InstrBytes :=
  ⟨op, joinNibbles (BitVec.ofFin rx) (BitVec.ofFin ry), lowByte imm, highByte imm⟩

def encodeRrr (op : Byte) (rx ry rz : Reg) : InstrBytes :=
  ⟨op, joinNibbles (BitVec.ofFin rx) (BitVec.ofFin ry), joinNibbles (BitVec.ofFin rz) 0, 0⟩

def encodeRs (op : Byte) (rx : Reg) (sh : ShiftCount) : InstrBytes :=
  ⟨op, joinNibbles (BitVec.ofFin rx) 0, joinNibbles (BitVec.ofFin sh) 0, 0⟩

def encodeBg (op : Byte) (nib : Colour) : InstrBytes := ⟨op, 0, joinNibbles nib 0, 0⟩

def encodeWh (op : Byte) (w h : Byte) : InstrBytes := ⟨op, 0, w, h⟩

def encodeFl (op : Byte) (h v : Bool) : InstrBytes := ⟨op, 0, 0, putBit (putBit 0 1 h) 0 v⟩

def encodeSg (op : Byte) (ad vt sr : Byte) : InstrBytes := ⟨op, ad, vt, sr⟩

/-- The four bytes of an instruction, ignored bits 0. -/
def encode : Instr → InstrBytes
  | .nop => encodeN0 0x00
  | .cls => encodeN0 0x01
  | .vblnk => encodeN0 0x02
  | .bgc nib => encodeBg 0x03 nib
  | .spr w h => encodeWh 0x04 w h
  | .drw rx ry imm => encodeRri 0x05 rx ry imm
  | .drw2 rx ry rz => encodeRrr 0x06 rx ry rz
  | .rnd rx imm => encodeRi 0x07 rx imm
  | .flip h v => encodeFl 0x08 h v
  | .snd0 => encodeN0 0x09
  | .snd1 imm => encodeI 0x0A imm
  | .snd2 imm => encodeI 0x0B imm
  | .snd3 imm => encodeI 0x0C imm
  | .snp rx imm => encodeRi 0x0D rx imm
  | .sng ad vt sr => encodeSg 0x0E ad vt sr
  | .jmp imm => encodeI 0x10 imm
  | .jmc imm => encodeI 0x11 imm
  | .jx cnd imm => encodeCi 0x12 cnd imm
  | .jme rx ry imm => encodeRri 0x13 rx ry imm
  | .call imm => encodeI 0x14 imm
  | .ret => encodeN0 0x15
  | .jmp2 rx => encodeR 0x16 rx
  | .cx cnd imm => encodeCi 0x17 cnd imm
  | .call2 rx => encodeR 0x18 rx
  | .ldi rx imm => encodeRi 0x20 rx imm
  | .ldi2 imm => encodeI 0x21 imm
  | .ldm rx imm => encodeRi 0x22 rx imm
  | .ldm2 rx ry => encodeRr 0x23 rx ry
  | .mov rx ry => encodeRr 0x24 rx ry
  | .stm rx imm => encodeRi 0x30 rx imm
  | .stm2 rx ry => encodeRr 0x31 rx ry
  | .addi rx imm => encodeRi 0x40 rx imm
  | .add rx ry => encodeRr 0x41 rx ry
  | .add2 rx ry rz => encodeRrr 0x42 rx ry rz
  | .subi rx imm => encodeRi 0x50 rx imm
  | .sub rx ry => encodeRr 0x51 rx ry
  | .sub2 rx ry rz => encodeRrr 0x52 rx ry rz
  | .cmpi rx imm => encodeRi 0x53 rx imm
  | .cmp rx ry => encodeRr 0x54 rx ry
  | .andi rx imm => encodeRi 0x60 rx imm
  | .and rx ry => encodeRr 0x61 rx ry
  | .and2 rx ry rz => encodeRrr 0x62 rx ry rz
  | .tsti rx imm => encodeRi 0x63 rx imm
  | .tst rx ry => encodeRr 0x64 rx ry
  | .ori rx imm => encodeRi 0x70 rx imm
  | .or rx ry => encodeRr 0x71 rx ry
  | .or2 rx ry rz => encodeRrr 0x72 rx ry rz
  | .xori rx imm => encodeRi 0x80 rx imm
  | .xor rx ry => encodeRr 0x81 rx ry
  | .xor2 rx ry rz => encodeRrr 0x82 rx ry rz
  | .muli rx imm => encodeRi 0x90 rx imm
  | .mul rx ry => encodeRr 0x91 rx ry
  | .mul2 rx ry rz => encodeRrr 0x92 rx ry rz
  | .divi rx imm => encodeRi 0xA0 rx imm
  | .div rx ry => encodeRr 0xA1 rx ry
  | .div2 rx ry rz => encodeRrr 0xA2 rx ry rz
  | .modi rx imm => encodeRi 0xA3 rx imm
  | .mod rx ry => encodeRr 0xA4 rx ry
  | .mod2 rx ry rz => encodeRrr 0xA5 rx ry rz
  | .remi rx imm => encodeRi 0xA6 rx imm
  | .rem rx ry => encodeRr 0xA7 rx ry
  | .rem2 rx ry rz => encodeRrr 0xA8 rx ry rz
  | .shl rx sh => encodeRs 0xB0 rx sh
  | .shr rx sh => encodeRs 0xB1 rx sh
  | .sar rx sh => encodeRs 0xB2 rx sh
  | .shl2 rx ry => encodeRr 0xB3 rx ry
  | .shr2 rx ry => encodeRr 0xB4 rx ry
  | .sar2 rx ry => encodeRr 0xB5 rx ry
  | .push rx => encodeR 0xC0 rx
  | .pop rx => encodeR 0xC1 rx
  | .pushall => encodeN0 0xC2
  | .popall => encodeN0 0xC3
  | .pushf => encodeN0 0xC4
  | .popf => encodeN0 0xC5
  | .pal imm => encodeI 0xD0 imm
  | .pal2 rx => encodeR 0xD1 rx
  | .noti rx imm => encodeRi 0xE0 rx imm
  | .not rx => encodeR 0xE1 rx
  | .not2 rx ry => encodeRr 0xE2 rx ry
  | .negi rx imm => encodeRi 0xE3 rx imm
  | .neg rx => encodeR 0xE4 rx
  | .neg2 rx ry => encodeRr 0xE5 rx ry

/-! ## The table's numbering of a word -/

/-- The bytes of the low `nbits` bits of `w`, numbered as opcode_table.json numbers them: the word is
`b0 << 24 | b1 << 16 | b2 << 8 | b3`, its upper bits 0 where `nbits` is less than 32. -/
def bytesOfTableWord (nbits w : Nat) : InstrBytes :=
  let v := w % 2 ^ nbits
  ⟨BitVec.ofNat 8 (v / 2 ^ 24), BitVec.ofNat 8 (v / 2 ^ 16), BitVec.ofNat 8 (v / 2 ^ 8),
   BitVec.ofNat 8 v⟩

/-- The instruction the decoder reads from a table word. -/
def decodeTableWord (nbits w : Nat) : Option Instr :=
  match decode (bytesOfTableWord nbits w) with
  | .ok i => some i
  | .error _ => none

end Sys2Proof
end

