-- ==== Sys2Proof/Machine/Cells.lean ====
section
/-! DEFINITION. Sparse storage: a list of (index, byte) pairs in one canonical form. An index that is not
listed holds 0, so no listed byte is 0; the indexes rise strictly. Memory (10_state.md R38) and the
framebuffer (R36) are both held so. -/

namespace Sys2Proof.Machine

/-- The byte at index `k`: 0 where nothing is listed (10_state.md R36, R38). -/
def cellGet (cs : List Host.Cell) (k : Nat) : Byte :=
  match cs with
  | [] => 0
  | c :: rest => if c.1 = k then c.2 else cellGet rest k

/-- The list with `(k, v)` at its place in the order. -/
def cellInsert (cs : List Host.Cell) (k : Nat) (v : Byte) : List Host.Cell :=
  match cs with
  | [] => [(k, v)]
  | c :: rest =>
    if k < c.1 then (k, v) :: c :: rest
    else if c.1 = k then (k, v) :: rest
    else c :: cellInsert rest k v

/-- The list with the byte at `k` set to `v`; setting 0 removes the entry. -/
def cellSet (cs : List Host.Cell) (k : Nat) (v : Byte) : List Host.Cell :=
  if v = 0 then cs.filter (fun c => c.1 != k) else cellInsert cs k v

/-- The canonical form: indexes strictly rising and no byte 0 listed. -/
abbrev cellsWf (cs : List Host.Cell) : Prop :=
  cs.Pairwise (fun c d => c.1 < d.1) ∧ ∀ c ∈ cs, c.2 ≠ 0

end Sys2Proof.Machine
end

