-- ==== Sys2Proof/Config.lean ====
section
/-! DEFINITION. The block's parameters (00_scope.md R9) and the values the spec leaves free.

The free values are constants with no body: nothing can evaluate them, so what is proved of the
machine holds for each of their values. -/

namespace Sys2Proof

/-- `STACK_BASE`: the reset value of `sp` and the bound of instruction fetch (00_scope.md R9, D5). -/
def Config.stackBase : Nat := 0xFDF0

/-- `CTRL1_ADDR`: the address of controller 1's word (00_scope.md R9, 60_exceptions.md R275). -/
def Config.ctrl1Addr : Nat := 0xFFF0

/-- `CTRL2_ADDR`: the address of controller 2's word (00_scope.md R9, 60_exceptions.md R275). -/
def Config.ctrl2Addr : Nat := 0xFFF2

/-- The highest byte address (20_memory.md R50): `MEMSIZE` is 65536. -/
def Config.maxAddr : Nat := 0xFFFF

/-- `SCREEN_W` (00_scope.md R9). -/
def Config.screenW : Nat := 320

/-- `SCREEN_H` (00_scope.md R9). -/
def Config.screenH : Nat := 240

/-- The number of framebuffer cells (00_scope.md R9, 10_state.md R36). -/
def Config.fbSize : Nat := 76800

/-- `ENTRY_PC` of a raw image (10_state.md R24, D4); a `.c16` image supplies its own at load. -/
def Config.entryPc : Word := 0x0000

/-- `DEFAULT_PALETTE` (10_state.md R41, D24). -/
def Config.defaultPalette : Vector Rgb 16 :=
  #v[0x000000, 0x000000, 0x888888, 0xBF3932, 0xDE7AAE, 0x4C3D21, 0x905F25, 0xE49452,
     0xEAD979, 0x537A3B, 0xABD54A, 0x252E38, 0x00467F, 0x68ABCC, 0xBCDEE4, 0xFFFFFF]

/-- `VBLANK_STEPS` (00_scope.md R9): how many of a frame's last steps see `vblank` true. -/
def Config.vblankSteps : Nat := 1

/-- FREE VALUE (log 5): how many steps a frame has before its last one. -/
opaque Config.stepsBeforeLast : Nat

/-- `STEPS_PER_FRAME`, OPEN in 00_scope.md R9: some positive integer (60_exceptions.md R272). -/
def Config.stepsPerFrame : Nat := Config.stepsBeforeLast + 1

/-- FREE VALUE (log 7): the random source. The `n`-th draw of a run takes `freeRandom n` modulo the
limit, so it may be any value in `[0, max)` (10_state.md R45). -/
opaque Config.freeRandom : Nat → Word

/-- FREE VALUE (log 6): player 1's buttons at the `n`-th frame boundary, bits 7..0 of the mask
(60_exceptions.md R275, R277). -/
opaque Config.freeMask1 : Nat → Byte

/-- FREE VALUE (log 6): player 2's buttons at the `n`-th frame boundary. -/
opaque Config.freeMask2 : Nat → Byte

/-- FREE VALUE (log 10): whether the host renders at the `n`-th frame boundary (60_exceptions.md R274). -/
opaque Config.freeRender : Nat → Bool

/-! The host's own frame subdivision, where it does not use the reference scheduler (60_exceptions.md R271,
R278, log 5). -/

/-- FREE VALUE (log 5): how many steps the `n`-th frame has before its last one. -/
opaque Config.freeStepsBeforeLast : Nat → Nat

/-- FREE VALUE (log 5): whether step `k` of the `n`-th frame sees `vblank`. -/
opaque Config.freeVblank : Nat → Nat → Bool

/-- FREE VALUE (log 5): a step of the `n`-th frame, modulo its length, that sees `vblank` whatever the other
choice is: a frame has at least one (60_exceptions.md R271 (a)). -/
opaque Config.freeVblankStep : Nat → Nat

end Sys2Proof
end

