-- ==== Sys2Proof/Machine/State.lean ====
section
/-! DEFINITION. The state of the block (10_state.md), why a step stops, and the state after reset.

A fault is terminal (60_exceptions.md R260): the step that raises it answers `Host.Outcome.fault` with
the fault's name and `info`; `status` holds the whole record in the terminal state (log 8). -/

namespace Sys2Proof.Machine

/-- The faults of 60_exceptions.md R262, each with the `info` its `raise` names. Every one of them
stops the core as the spec says, so stopping is the machine's own behaviour. -/
inductive Fault where
  /-- Raised by the step when `u16(pc) >= STACK_BASE`; `info` is `pc` (30_encoding.md R70). Safe: the
  spec's own fault. -/
  | pcRange (pc : Word)
  /-- Raised by the step on an opcode byte outside the table; `info` is `b0` (30_encoding.md R79).
  Safe: the spec's own fault. -/
  | badOpcode (b0 : Byte)
  /-- Raised by `JX` and `CX` on condition index 0xF; `info` is `cnd` (40_control_flow.md R102, R107).
  Safe: the spec's own fault. -/
  | badCond (cnd : CondIndex)
  /-- Raised by an access any byte of which lies above 0xFFFF; `info` is the first address
  (20_memory.md R52, R53, 47_palette_unary.md R210, 48_graphics.md R226). Safe (D7, D22). -/
  | memRange (addr : Nat)
  /-- Raised by a zero divisor; `info` is the dividend (44_muldiv.md R174, R178, R182). Safe (D12). -/
  | divZero (dividend : Word)
  /-- Raised by -32768 divided by -1; `info` is both operands (44_muldiv.md R174, R178, R182).
  Safe (D13). -/
  | divOverflow (dividend divisor : Word)
  /-- Raised by a push or pop that would leave memory; `info` is `sp` (46_stack.md R200, R201, R204,
  R205). Safe (D6). -/
  | stackRange (sp : Word)
  /-- Raised by `RND` with limit 0; `info` is the limit (48_graphics.md R225). Safe (D23). -/
  | rndRange (max : Word)
  /-- Raised by a register shift count of 16 or more; `info` is the count (45_shift.md R194 to R196).
  Safe (D16). -/
  | shiftRange (count : Word)
  deriving DecidableEq, Repr

/-- Why a step has no outcome of the machine's own. -/
inductive Refusal where
  /-- Raised by an arm of `exec` whose instruction has no meaning yet. Safe: nothing is claimed. -/
  | notModelled (mnemonic : String)
  /-- Raised by the step after the host has closed the run: no step follows (60_exceptions.md R283,
  log 9). Safe: nothing is claimed. -/
  | hostClosed
  deriving DecidableEq, Repr

/-- The fault record `{code, pc0, bytes, info}` of 60_exceptions.md R261: `fault` carries the name,
hence the code, and the `info`; `bytes` is none for `PC_RANGE`. -/
structure FaultRecord where
  fault : Fault
  pc0 : Word
  bytes : Option InstrBytes
  deriving DecidableEq, Repr

/-- The core's run status (10_state.md R42). -/
inductive Status where
  | running
  | faulted (r : FaultRecord)
  deriving DecidableEq, Repr

/-- The address space `MEM[0..65535]` (10_state.md R38). The four controller bytes have their home in
the two controller words (log 3); every other byte that is not 0 is in `cells`. -/
structure Memory where
  /-- Address and byte, addresses rising, no byte 0 and no controller byte listed (`Memory.wf`). -/
  cells : List Host.Cell
  /-- The word at 0xFFF0 (60_exceptions.md R275). -/
  ctrl1 : Word
  /-- The word at 0xFFF2 (60_exceptions.md R275). -/
  ctrl2 : Word
  deriving DecidableEq, Repr

/-- What the render sink is told at a frame boundary: framebuffer, palette and `bg` (60_exceptions.md R276).
The framebuffer is held as the state holds it (log 19). -/
structure RenderCall where
  /-- The number of the boundary, the model's own `frameNo`. -/
  frame : Nat
  /-- The framebuffer's cells that are not 0. -/
  fb : List Host.Cell
  /-- The palette. -/
  pal : Vector Rgb 16
  /-- The background colour index. -/
  bg : Colour
  deriving DecidableEq, Repr

/-- The frame subdivision the host runs the core with (60_exceptions.md R271, R272, R278, log 5). -/
inductive Schedule where
  /-- The reference scheduler of R272. -/
  | reference
  /-- Frame lengths and vertical-blank steps of the host's own choice, within the contract of R271. -/
  | hostChosen
  deriving DecidableEq, Repr

/-- The whole state: 10_state.md, each field under the rule INVENTORY.md gives for it. -/
structure State where
  /-- `x[0..15]` (R20). -/
  regs : Vector Word 16
  /-- The program counter (R23). -/
  pc : Word
  /-- The stack pointer (R25). -/
  sp : Word
  /-- `FLAGS`: C bit 1, Z bit 2, O bit 6, N bit 7 (R27). -/
  flags : Byte
  /-- `MEM` (R38). -/
  mem : Memory
  /-- The background colour index (R32). -/
  bg : Colour
  /-- The sprite width in bytes (R33). -/
  spritew : Byte
  /-- The sprite height in rows (R33). -/
  spriteh : Byte
  /-- Horizontal flip (R34). -/
  hflip : Bool
  /-- Vertical flip (R34). -/
  vflip : Bool
  /-- `PAL[0..15]`, each `0x00RRGGBB` (R35). -/
  pal : Vector Rgb 16
  /-- `FB`: the cells that are not 0, by index `sy*320 + sx`, indexes rising (R36, log 19). -/
  fb : List Host.Cell
  /-- The vertical-blank signal (R39). -/
  vblank : Bool
  /-- Running, or stopped by a fault (R42). -/
  status : Status
  /-- The scheduler's position in the frame, the steps of it taken so far; a full frame awaits its boundary
  (R40, 60_exceptions.md R272). -/
  framePos : Nat
  /-- The host's close signal (60_exceptions.md R283, log 9). -/
  hostClosed : Bool
  /-- MODEL's own: the host's frame subdivision (60_exceptions.md R278, log 5). -/
  schedule : Schedule
  /-- MODEL's own: the renders so far, the newest first: the output of 60_exceptions.md R274 (log 10). -/
  renders : List RenderCall
  /-- MODEL's own: frame boundaries passed, the index of the host's free choices (logs 5, 6, 10). -/
  frameNo : Nat
  /-- MODEL's own: `RND` draws taken, the index of the free random values (log 7). -/
  draws : Nat
  deriving DecidableEq, Repr

/-- The state after power-on (10_state.md R46), before a program is loaded (log 2). -/
def State.reset : State where
  regs := Vector.replicate 16 0
  pc := Config.entryPc
  sp := BitVec.ofNat 16 Config.stackBase
  flags := 0x00
  mem := { cells := [], ctrl1 := 0, ctrl2 := 0 }
  bg := 0
  spritew := 0
  spriteh := 0
  hflip := false
  vflip := false
  pal := Config.defaultPalette
  fb := []
  vblank := false
  status := .running
  framePos := 0
  hostClosed := false
  schedule := .reference
  renders := []
  frameNo := 0
  draws := 0

end Sys2Proof.Machine
end

