-- ==== Sys2Proof/Machine/Ops.lean ====
section
/-! DEFINITION. The named operations over registers, memory and the stack (00_scope.md R11, 20_memory.md,
46_stack.md), and what raising a fault does (60_exceptions.md R260, R261). -/

namespace Sys2Proof.Machine

/-! ## Registers (10_state.md R20) -/

/-- `x[r]`. -/
def State.reg (s : State) (r : Reg) : Word := s.regs[r]

/-- `x[r] <- v`. -/
def State.setReg (s : State) (r : Reg) (v : Word) : State := { s with regs := s.regs.set r v }

/-- `pc <- v`. -/
def State.setPc (s : State) (v : Word) : State := { s with pc := v }

/-- `pc <- pc + 4`, before the handler runs (10_state.md R23, 30_encoding.md R70). -/
def State.advancePc (s : State) : State := s.setPc (s.pc + 4)

/-! ## Bytes of memory (20_memory.md R50, R51) -/

/-- `MemByte(a)`: the byte at address `a`. The controller words hold the bytes 0xFFF0..0xFFF3 (log 3). -/
def Memory.readByte (m : Memory) (a : Nat) : Byte :=
  if a = Config.ctrl1Addr then lowByte m.ctrl1
  else if a = Config.ctrl1Addr + 1 then highByte m.ctrl1
  else if a = Config.ctrl2Addr then lowByte m.ctrl2
  else if a = Config.ctrl2Addr + 1 then highByte m.ctrl2
  else cellGet m.cells a

/-- `MEM[a] <- v`. -/
def Memory.writeByte (m : Memory) (a : Nat) (v : Byte) : Memory :=
  if a = Config.ctrl1Addr then { m with ctrl1 := joinBytes v (highByte m.ctrl1) }
  else if a = Config.ctrl1Addr + 1 then { m with ctrl1 := joinBytes (lowByte m.ctrl1) v }
  else if a = Config.ctrl2Addr then { m with ctrl2 := joinBytes v (highByte m.ctrl2) }
  else if a = Config.ctrl2Addr + 1 then { m with ctrl2 := joinBytes (lowByte m.ctrl2) v }
  else { m with cells := cellSet m.cells a v }

/-- The word at `a`, little-endian: the high byte at `a + 1` (20_memory.md R51). -/
def Memory.readWord (m : Memory) (a : Nat) : Word := joinBytes (m.readByte a) (m.readByte (a + 1))

/-- The word `v` at `a`, its low byte first (20_memory.md R53). -/
def Memory.writeWord (m : Memory) (a : Nat) (v : Word) : Memory :=
  (m.writeByte a (lowByte v)).writeByte (a + 1) (highByte v)

/-- Bytes stored at rising addresses from `a`. -/
def Memory.writeBytes (m : Memory) (a : Nat) (bs : List Byte) : Memory :=
  match bs with
  | [] => m
  | b :: rest => (m.writeByte a b).writeBytes (a + 1) rest

/-- No controller byte is listed and every listed address exists, in the canonical form of a cell list:
equal memories are equal data. -/
abbrev Memory.wf (m : Memory) : Prop :=
  cellsWf m.cells ∧
    ∀ c ∈ m.cells, c.1 ≤ Config.maxAddr ∧ (c.1 < Config.ctrl1Addr ∨ Config.ctrl2Addr + 1 < c.1)

/-! ## Checked accesses (20_memory.md R52, R53) -/

/-- `MemRead(a, 2)`: `MEM_RANGE` when a byte of it lies above 0xFFFF. -/
def State.memReadWord (s : State) (a : Nat) : Except Fault Word :=
  if a + 1 > Config.maxAddr then .error (.memRange a) else .ok (s.mem.readWord a)

/-- `MemWrite(a, 2, v)`: the range check comes before either byte is written. -/
def State.memWriteWord (s : State) (a : Nat) (v : Word) : Except Fault State :=
  if a + 1 > Config.maxAddr then .error (.memRange a)
  else .ok { s with mem := s.mem.writeWord a v }

/-! ## The stack (46_stack.md R200, R201) -/

/-- `push16(v)`: write at `sp`, then `sp + 2`; `STACK_RANGE` when `u16(sp) > 0xFFFD`. -/
def State.push16 (s : State) (v : Word) : Except Fault State :=
  if s.sp.toNat > 0xFFFD then .error (.stackRange s.sp)
  else .ok { s with mem := s.mem.writeWord s.sp.toNat v, sp := s.sp + 2 }

/-- `pop16()`: `sp - 2`, then read there; `STACK_RANGE` when `u16(sp) < 2`. -/
def State.pop16 (s : State) : Except Fault (Word × State) :=
  if s.sp.toNat < 2 then .error (.stackRange s.sp)
  else .ok (s.mem.readWord (s.sp - 2).toNat, { s with sp := s.sp - 2 })

/-- `push16(x[i])` for each register of the list, first to last (46_stack.md R204). -/
def State.pushRegs (s : State) (rs : List Reg) : Except Fault State :=
  match rs with
  | [] => .ok s
  | r :: rest =>
    match s.push16 (s.reg r) with
    | .error f => .error f
    | .ok t => t.pushRegs rest

/-- `x[i] <- pop16()` for each register of the list, first to last (46_stack.md R205). -/
def State.popRegs (s : State) (rs : List Reg) : Except Fault State :=
  match rs with
  | [] => .ok s
  | r :: rest =>
    match s.pop16 with
    | .error f => .error f
    | .ok (v, t) => (t.setReg r v).popRegs rest

/-! ## Instruction bytes (30_encoding.md R71) -/

/-- The four bytes at `pc`. -/
def State.fetch (s : State) : InstrBytes :=
  ⟨s.mem.readByte s.pc.toNat, s.mem.readByte (s.pc.toNat + 1), s.mem.readByte (s.pc.toNat + 2),
   s.mem.readByte (s.pc.toNat + 3)⟩

/-- The state with the four bytes of an instruction stored at `pc`. -/
def State.placeAtPc (s : State) (b : InstrBytes) : State :=
  { s with mem := s.mem.writeBytes s.pc.toNat [b.b0, b.b1, b.b2, b.b3] }

/-! ## Raising a fault (60_exceptions.md R260 to R262)

The block has no exception that goes on and no return from one (R264, R265): raising is the one way an
instruction leaves its normal course, and it ends the run. -/

/-- The fault's code: the spec's own numbering (R262). -/
def Fault.code : Fault → Nat
  | .pcRange _ => 1
  | .badOpcode _ => 2
  | .badCond _ => 3
  | .memRange _ => 4
  | .divZero _ => 5
  | .divOverflow _ _ => 6
  | .stackRange _ => 7
  | .rndRange _ => 8
  | .shiftRange _ => 9

/-- The record of a fault raised by the step from `s`: `pc0` is `pc` before the step, `bytes` the
fetched bytes, none for `PC_RANGE` (R261). -/
def State.faultRecord (s : State) (f : Fault) : FaultRecord :=
  match f with
  | .pcRange _ => { fault := f, pc0 := s.pc, bytes := none }
  | _ => { fault := f, pc0 := s.pc, bytes := some s.fetch }

/-- The terminal state of a fault raised by the step from `s`: `status <- Faulted(record)`, everything
else as it stood, `pc` advanced where the instruction was fetched (R260, D30, log 8). -/
def State.raise (s : State) (f : Fault) : State :=
  match f with
  | .pcRange _ => { s with status := .faulted (s.faultRecord f) }
  | _ => { s.advancePc with status := .faulted (s.faultRecord f) }

/-- The outcome of a meaning that ends in a state or a fault. -/
def outcomeOf (r : Except Fault State) : Host.Outcome State Fault Refusal :=
  match r with
  | .ok t => .next t
  | .error f => .fault f

end Sys2Proof.Machine
end

