-- ==== Sys2Proof/Machine/Flags.lean ====
section
/-! DEFINITION. `FLAGS`, the condition predicate, and the ALU functions with the flags they write
(10_state.md R27 to R30, 42_arithmetic.md, 43_bitwise.md, 44_muldiv.md, 45_shift.md, 47_palette_unary.md).

An ALU function takes the operands and the old `FLAGS` and answers the result with the new `FLAGS`. A
flag a rule does not name keeps its value (R28, log 14). -/

namespace Sys2Proof.Machine

/-! ## The flag bits (10_state.md R27) -/

/-- Carry. -/
def flagC (f : Byte) : Bool := f.getLsbD 1

/-- Zero. -/
def flagZ (f : Byte) : Bool := f.getLsbD 2

/-- Overflow. -/
def flagO (f : Byte) : Bool := f.getLsbD 6

/-- Negative. -/
def flagN (f : Byte) : Bool := f.getLsbD 7

/-- `C <- b`. -/
def putC (f : Byte) (b : Bool) : Byte := putBit f 1 b

/-- `Z <- b`. -/
def putZ (f : Byte) (b : Bool) : Byte := putBit f 2 b

/-- `O <- b`. -/
def putO (f : Byte) (b : Bool) : Byte := putBit f 6 b

/-- `N <- b`. -/
def putN (f : Byte) (b : Bool) : Byte := putBit f 7 b

/-- The bits that carry a flag; the others are always 0 (10_state.md R27). -/
def flagMask : Byte := 0xC6

/-- `setZN(r)` (00_scope.md R11). -/
def setZN (f : Byte) (r : Word) : Byte := putN (putZ f (r.toNat == 0)) r.msb

/-! ## Conditions (10_state.md R30) -/

/-- `cond(i)`: none for index 0xF. The table of R30 wins over the source's prose names (90_conflicts.md
C2). -/
def condition (i : CondIndex) (f : Byte) : Option Bool :=
  let c := flagC f
  let z := flagZ f
  let o := flagO f
  let n := flagN f
  match i.val with
  | 0x0 => some z
  | 0x1 => some (!z)
  | 0x2 => some n
  | 0x3 => some (!n)
  | 0x4 => some (!n && !z)
  | 0x5 => some o
  | 0x6 => some (!o)
  | 0x7 => some (!c && !z)
  | 0x8 => some (!c)
  | 0x9 => some c
  | 0xA => some (c || z)
  | 0xB => some (o == n && !z)
  | 0xC => some (o == n)
  | 0xD => some (o != n)
  | 0xE => some (o != n || z)
  | _ => none

/-! ## Addition and subtraction (42_arithmetic.md R130, R131) -/

/-- `ADDF(a, b)`. -/
def addF (a b : Word) (f : Byte) : Word × Byte :=
  let s := a.toNat + b.toNat
  let r := BitVec.ofNat 16 s
  (r, putN (putO (putZ (putC f (decide (s > 0xFFFF))) (r.toNat == 0))
    (a.msb == b.msb && r.msb != a.msb)) r.msb)

/-- `SUBF(a, b)`: the signed-overflow rule of 90_conflicts.md C3. -/
def subF (a b : Word) (f : Byte) : Word × Byte :=
  let d : Int := (a.toNat : Int) - b.toNat
  let r := BitVec.ofInt 16 d
  (r, putN (putO (putZ (putC f (decide (d < 0))) (r.toNat == 0))
    (a.msb != b.msb && r.msb != a.msb)) r.msb)

/-! ## A result with Z and N only (43_bitwise.md R161, 47_palette_unary.md R218) -/

/-- A result `r` with `setZN(r)`. -/
def withZN (r : Word) (f : Byte) : Word × Byte := (r, setZN f r)

/-- `r <- a & b; setZN(r)`. -/
def andF (a b : Word) (f : Byte) : Word × Byte := withZN (a &&& b) f

/-- `r <- a | b; setZN(r)`. -/
def orF (a b : Word) (f : Byte) : Word × Byte := withZN (a ||| b) f

/-- `r <- a ^ b; setZN(r)`. -/
def xorF (a b : Word) (f : Byte) : Word × Byte := withZN (a ^^^ b) f

/-- `r <- ~v; setZN(r)`. -/
def notF (v : Word) (f : Byte) : Word × Byte := withZN (~~~v) f

/-- `r <- trunc16(0 - u16(v)); setZN(r)`. -/
def negF (v : Word) (f : Byte) : Word × Byte := withZN (BitVec.ofInt 16 (0 - (v.toNat : Int))) f

/-! ## Multiplication and division (44_muldiv.md R170, R174, R178, R182) -/

/-- `MULF(a, b)`: the product of the unsigned readings; `O` is not written. -/
def mulF (a b : Word) (f : Byte) : Word × Byte :=
  let p := a.toNat * b.toNat
  let r := BitVec.ofNat 16 p
  (r, setZN (putC f (decide (p > 0xFFFF))) r)

/-- The checks every division makes first: a zero divisor, then the overflowing quotient. -/
def divCheck (a b : Word) : Option Fault :=
  if b.toInt = 0 then some (.divZero a)
  else if a.toInt = -32768 ∧ b.toInt = -1 then some (.divOverflow a b)
  else none

/-- `DIVF(a, b)`: truncating toward zero; `C` when the division was inexact. -/
def divF (a b : Word) (f : Byte) : Except Fault (Word × Byte) :=
  match divCheck a b with
  | some e => .error e
  | none =>
    let q := Int.tdiv a.toInt b.toInt
    let r := BitVec.ofInt 16 q
    .ok (r, setZN (putC f (decide (q * b.toInt ≠ a.toInt))) r)

/-- `MODF(a, b)`: `((a % b) + b) % b` exactly, the sign of the divisor (90_conflicts.md C4). -/
def modF (a b : Word) (f : Byte) : Except Fault (Word × Byte) :=
  match divCheck a b with
  | some e => .error e
  | none =>
    let t := Int.tmod a.toInt b.toInt
    let m := Int.tmod (t + b.toInt) b.toInt
    .ok (withZN (BitVec.ofInt 16 m) f)

/-- `REMF(a, b)`: the sign of the dividend. -/
def remF (a b : Word) (f : Byte) : Except Fault (Word × Byte) :=
  match divCheck a b with
  | some e => .error e
  | none => .ok (withZN (BitVec.ofInt 16 (Int.tmod a.toInt b.toInt)) f)

/-! ## Shifts (45_shift.md R190) -/

/-- `SHLF(a, n)`. -/
def shlF (a : Word) (n : Nat) (f : Byte) : Word × Byte := withZN (BitVec.ofNat 16 (a.toNat * 2 ^ n)) f

/-- `SHRF(a, n)`. -/
def shrF (a : Word) (n : Nat) (f : Byte) : Word × Byte := withZN (BitVec.ofNat 16 (a.toNat / 2 ^ n)) f

/-- `SARF(a, n)`: the floor of the signed quotient. -/
def sarF (a : Word) (n : Nat) (f : Byte) : Word × Byte :=
  withZN (BitVec.ofInt 16 (a.toInt / (2 ^ n : Int))) f

end Sys2Proof.Machine
end

