-- ==== Sys2Proof/Machine/Operands.lean ====
section
/-! DEFINITION. The operand forms: how an instruction's operands name an address, a count or a screen
position, and how an ALU result is written back (41_load_store.md R127, 45_shift.md R190, 48_graphics.md
R227). -/

namespace Sys2Proof.Machine

/-- Absolute: the effective address is `imm` (R127). -/
def addrAbs (imm : Word) : Nat := imm.toNat

/-- Register-indirect: the effective address is the register's pattern read unsigned (R127, D8). -/
def State.addrInd (s : State) (r : Reg) : Nat := (s.reg r).toNat

/-- A screen coordinate: the register read signed (48_graphics.md R227). -/
def State.coord (s : State) (r : Reg) : Int := (s.reg r).toInt

/-- A register shift count: `SHIFT_RANGE` when it is 16 or more (45_shift.md R190, D16). -/
def State.shiftCount (s : State) (r : Reg) : Except Fault Nat :=
  if (s.reg r).toNat ≥ 16 then .error (.shiftRange (s.reg r)) else .ok (s.reg r).toNat

/-- `x[r] <- F(...)`: the result to a register, the flags to `FLAGS`. -/
def State.writeAlu (s : State) (r : Reg) (res : Word × Byte) : State :=
  { s.setReg r res.1 with flags := res.2 }

/-- `discard F(...)`: the flags to `FLAGS`, the result dropped. -/
def State.writeFlags (s : State) (res : Word × Byte) : State := { s with flags := res.2 }

/-- `x[r] <- F(...)` for an ALU function that may raise a fault; on a fault nothing is written. -/
def State.writeChecked (s : State) (r : Reg) (res : Except Fault (Word × Byte)) :
    Except Fault State :=
  match res with
  | .error f => .error f
  | .ok v => .ok (s.writeAlu r v)

end Sys2Proof.Machine
end

