-- ==== Sys2Proof/Machine/Arithmetic.lean ====
section
/-! DEFINITION. Addition, subtraction and compare (42_arithmetic.md). -/

namespace Sys2Proof.Machine

/-- `ADDI rx, imm` (R132). -/
def execAddi (rx : Reg) (imm : Word) (s : State) : Host.Outcome State Fault Refusal :=
  .next (s.writeAlu rx (addF (s.reg rx) imm s.flags))

/-- `ADD rx, ry` (R133). -/
def execAdd (rx ry : Reg) (s : State) : Host.Outcome State Fault Refusal :=
  .next (s.writeAlu rx (addF (s.reg rx) (s.reg ry) s.flags))

/-- `ADD2 rx, ry, rz`: the result goes to `rz` (R134). -/
def execAdd2 (rx ry rz : Reg) (s : State) : Host.Outcome State Fault Refusal :=
  .next (s.writeAlu rz (addF (s.reg rx) (s.reg ry) s.flags))

/-- `SUBI rx, imm` (R135). -/
def execSubi (rx : Reg) (imm : Word) (s : State) : Host.Outcome State Fault Refusal :=
  .next (s.writeAlu rx (subF (s.reg rx) imm s.flags))

/-- `SUB rx, ry` (R136). -/
def execSub (rx ry : Reg) (s : State) : Host.Outcome State Fault Refusal :=
  .next (s.writeAlu rx (subF (s.reg rx) (s.reg ry) s.flags))

/-- `SUB2 rx, ry, rz`: the result goes to `rz` (R137). -/
def execSub2 (rx ry rz : Reg) (s : State) : Host.Outcome State Fault Refusal :=
  .next (s.writeAlu rz (subF (s.reg rx) (s.reg ry) s.flags))

/-- `CMPI rx, imm`: flags only (R138). -/
def execCmpi (rx : Reg) (imm : Word) (s : State) : Host.Outcome State Fault Refusal :=
  .next (s.writeFlags (subF (s.reg rx) imm s.flags))

/-- `CMP rx, ry`: flags only (R139). -/
def execCmp (rx ry : Reg) (s : State) : Host.Outcome State Fault Refusal :=
  .next (s.writeFlags (subF (s.reg rx) (s.reg ry) s.flags))

end Sys2Proof.Machine
end

