-- ==== Sys2Proof/Machine/Bitwise.lean ====
section
/-! DEFINITION. Bitwise AND, OR, XOR and test (43_bitwise.md). -/

namespace Sys2Proof.Machine

/-- `ANDI rx, imm` (R150). -/
def execAndi (rx : Reg) (imm : Word) (s : State) : Host.Outcome State Fault Refusal :=
  .next (s.writeAlu rx (andF (s.reg rx) imm s.flags))

/-- `AND rx, ry` (R151). -/
def execAnd (rx ry : Reg) (s : State) : Host.Outcome State Fault Refusal :=
  .next (s.writeAlu rx (andF (s.reg rx) (s.reg ry) s.flags))

/-- `AND2 rx, ry, rz`: the result goes to `rz` (R152). -/
def execAnd2 (rx ry rz : Reg) (s : State) : Host.Outcome State Fault Refusal :=
  .next (s.writeAlu rz (andF (s.reg rx) (s.reg ry) s.flags))

/-- `TSTI rx, imm`: flags only (R153). -/
def execTsti (rx : Reg) (imm : Word) (s : State) : Host.Outcome State Fault Refusal :=
  .next (s.writeFlags (andF (s.reg rx) imm s.flags))

/-- `TST rx, ry`: flags only (R154). -/
def execTst (rx ry : Reg) (s : State) : Host.Outcome State Fault Refusal :=
  .next (s.writeFlags (andF (s.reg rx) (s.reg ry) s.flags))

/-- `ORI rx, imm` (R155). -/
def execOri (rx : Reg) (imm : Word) (s : State) : Host.Outcome State Fault Refusal :=
  .next (s.writeAlu rx (orF (s.reg rx) imm s.flags))

/-- `OR rx, ry` (R156). -/
def execOr (rx ry : Reg) (s : State) : Host.Outcome State Fault Refusal :=
  .next (s.writeAlu rx (orF (s.reg rx) (s.reg ry) s.flags))

/-- `OR2 rx, ry, rz`: the result goes to `rz` (R157). -/
def execOr2 (rx ry rz : Reg) (s : State) : Host.Outcome State Fault Refusal :=
  .next (s.writeAlu rz (orF (s.reg rx) (s.reg ry) s.flags))

/-- `XORI rx, imm` (R158). -/
def execXori (rx : Reg) (imm : Word) (s : State) : Host.Outcome State Fault Refusal :=
  .next (s.writeAlu rx (xorF (s.reg rx) imm s.flags))

/-- `XOR rx, ry` (R159). -/
def execXor (rx ry : Reg) (s : State) : Host.Outcome State Fault Refusal :=
  .next (s.writeAlu rx (xorF (s.reg rx) (s.reg ry) s.flags))

/-- `XOR2 rx, ry, rz`: the result goes to `rz` (R160). -/
def execXor2 (rx ry rz : Reg) (s : State) : Host.Outcome State Fault Refusal :=
  .next (s.writeAlu rz (xorF (s.reg rx) (s.reg ry) s.flags))

end Sys2Proof.Machine
end

