-- ==== Sys2Proof/Machine/ControlFlow.lean ====
section
/-! DEFINITION. Control flow (40_control_flow.md). `pc` already holds the instruction's address plus 4. -/

namespace Sys2Proof.Machine

/-- A condition index is tested before anything else; 0xF raises `BAD_COND` (R102, R107, R263). -/
def State.whenCond (s : State) (cnd : CondIndex) (taken : Except Fault State) : Except Fault State :=
  match condition cnd s.flags with
  | none => .error (.badCond cnd)
  | some true => taken
  | some false => .ok s

/-- Push the return address and go to `target` (R104, R107, R108). -/
def State.call (s : State) (target : Word) : Except Fault State :=
  match s.push16 s.pc with
  | .error f => .error f
  | .ok t => .ok (t.setPc target)

/-- `JMP imm` (R100). -/
def execJmp (imm : Word) (s : State) : Host.Outcome State Fault Refusal := .next (s.setPc imm)

/-- `JMC imm` (R101). -/
def execJmc (imm : Word) (s : State) : Host.Outcome State Fault Refusal :=
  .next (if flagC s.flags then s.setPc imm else s)

/-- `Jx imm` (R102). -/
def execJx (cnd : CondIndex) (imm : Word) (s : State) : Host.Outcome State Fault Refusal :=
  outcomeOf (s.whenCond cnd (.ok (s.setPc imm)))

/-- `JME rx, ry, imm` (R103). -/
def execJme (rx ry : Reg) (imm : Word) (s : State) : Host.Outcome State Fault Refusal :=
  .next (if s.reg rx = s.reg ry then s.setPc imm else s)

/-- `CALL imm` (R104). -/
def execCall (imm : Word) (s : State) : Host.Outcome State Fault Refusal := outcomeOf (s.call imm)

/-- `RET` (R105). -/
def execRet (s : State) : Host.Outcome State Fault Refusal :=
  match s.pop16 with
  | .error f => .fault f
  | .ok (v, t) => .next (t.setPc v)

/-- `JMP2 rx` (R106). -/
def execJmp2 (rx : Reg) (s : State) : Host.Outcome State Fault Refusal := .next (s.setPc (s.reg rx))

/-- `Cx imm` (R107). -/
def execCx (cnd : CondIndex) (imm : Word) (s : State) : Host.Outcome State Fault Refusal :=
  outcomeOf (s.whenCond cnd (s.call imm))

/-- `CALL2 rx` (R108). -/
def execCall2 (rx : Reg) (s : State) : Host.Outcome State Fault Refusal :=
  outcomeOf (s.call (s.reg rx))

end Sys2Proof.Machine
end

