-- ==== Sys2Proof/Machine/Graphics.lean ====
section
/-! DEFINITION. Graphics, vertical blank and random numbers (48_graphics.md). -/

namespace Sys2Proof.Machine

/-! ## The framebuffer (10_state.md R36) -/

/-- Cell `(sy, sx)` is element `sy*320 + sx` (D37). -/
def fbIndex (sy sx : Nat) : Nat := sy * Config.screenW + sx

/-- `FB[sy][sx]`. -/
def State.fbCell (s : State) (sy sx : Nat) : Byte := cellGet s.fb (fbIndex sy sx)

/-! ## The sprite blit (48_graphics.md R226) -/

/-- What the blit accumulates: `hit`, the OR of the old values, and the framebuffer. -/
structure Blit where
  hit : Byte
  fb : List Host.Cell
  deriving DecidableEq, Repr

/-- A screen position inside `[0,320) x [0,240)`. -/
def onScreen (sx sy : Int) : Bool := decide (0 ≤ sx ∧ sx ≤ 319 ∧ 0 ≤ sy ∧ sy ≤ 239)

/-- `plot(sx, sy, p)`: transparent and clipped pixels change nothing; the old value is sampled before the
write. -/
def Blit.plot (b : Blit) (sx sy : Int) (p : BitVec 4) : Blit :=
  if p = 0 then b
  else if onScreen sx sy then
    let k := fbIndex sy.toNat sx.toNat
    { hit := b.hit ||| cellGet b.fb k, fb := cellSet b.fb k (widen p) }
  else b

/-- The draw state and position one call of the blit uses. -/
structure BlitArgs where
  x : Int
  y : Int
  addr : Nat
  w : Nat
  h : Nat
  hflip : Bool
  vflip : Bool
  deriving DecidableEq, Repr

/-- The two pixels of the sprite byte at row `r`, column `c`: the high nibble is the left pixel unless
flipped. -/
def Blit.plotByte (b : Blit) (m : Memory) (g : BlitArgs) (r c : Nat) : Blit :=
  let v := m.readByte (g.addr + r * g.w + c)
  let sy : Int := g.y + ((if g.vflip then g.h - 1 - r else r : Nat) : Int)
  let sc : Nat := if g.hflip then g.w - 1 - c else c
  let left := if g.hflip then lowNibble v else highNibble v
  let right := if g.hflip then highNibble v else lowNibble v
  (b.plot (g.x + 2 * sc) sy left).plot (g.x + 2 * sc + 1) sy right

/-- One row of the sprite, columns `0 .. w-1`. -/
def Blit.plotRow (b : Blit) (m : Memory) (g : BlitArgs) (r : Nat) : Blit :=
  (List.range g.w).foldl (fun b c => b.plotByte m g r c) b

/-- The rows `0 .. h-1`. -/
def Blit.plotAll (b : Blit) (m : Memory) (g : BlitArgs) : Blit :=
  (List.range g.h).foldl (fun b r => b.plotRow m g r) b

/-- The bounding box lies entirely outside the screen. -/
def BlitArgs.culled (g : BlitArgs) : Bool :=
  decide (g.x > 319 ∨ g.y > 239 ∨ g.x + 2 * g.w < 0 ∨ g.y + g.h < 0)

/-- The call draws nothing and reads nothing: an empty sprite, or a culled one. -/
def BlitArgs.noOp (g : BlitArgs) : Bool := g.w == 0 || g.h == 0 || g.culled

/-- The arguments of `draw_sprite(x, y, a)` with the draw state of `s`. -/
def State.blitArgs (s : State) (x y : Int) (a : Nat) : BlitArgs :=
  { x := x, y := y, addr := a, w := s.spritew.toNat, h := s.spriteh.toNat, hflip := s.hflip,
    vflip := s.vflip }

/-- `C <- draw_sprite(x, y, a)`: a call that draws nothing clears `C`; otherwise the whole sprite must lie
in memory, checked before any cell changes (R226, R227, D22). -/
def State.drawSprite (s : State) (x y : Int) (a : Nat) : Except Fault State :=
  let g := s.blitArgs x y a
  if g.noOp then .ok { s with flags := putC s.flags false }
  else if a + g.w * g.h - 1 > Config.maxAddr then .error (.memRange a)
  else
    let b := Blit.plotAll { hit := 0, fb := s.fb } s.mem g
    .ok { s with fb := b.fb, flags := putC s.flags (b.hit != 0) }

/-! ## The instructions -/

/-- `CLS`: `bg` and the framebuffer; the palette, the sprite size and the flips are kept (R220, D21). -/
def execCls (s : State) : Host.Outcome State Fault Refusal := .next { s with bg := 0, fb := [] }

/-- `BGC n` (R221). -/
def execBgc (nib : Colour) (s : State) : Host.Outcome State Fault Refusal := .next { s with bg := nib }

/-- `SPR w, h` (R222). -/
def execSpr (w h : Byte) (s : State) : Host.Outcome State Fault Refusal :=
  .next { s with spritew := w, spriteh := h }

/-- `FLIP h, v`: both flips are written every time (R223). -/
def execFlip (h v : Bool) (s : State) : Host.Outcome State Fault Refusal :=
  .next { s with hflip := h, vflip := v }

/-- `VBLNK`: rewind `pc` unless the vertical-blank flag is set (R224). -/
def execVblnk (s : State) : Host.Outcome State Fault Refusal :=
  .next (if s.vblank then s else s.setPc (s.pc - 4))

/-- A value in `[0, max)` for a positive `max`: the next free value modulo `max` (10_state.md R45, log 7). -/
def State.drawRnd (s : State) (max : Word) : Word :=
  BitVec.ofNat 16 ((Config.freeRandom s.draws).toNat % max.toNat)

/-- `RND rx, max`: `RND_RANGE` when `max` is 0; one draw is taken (R225). -/
def execRnd (rx : Reg) (max : Word) (s : State) : Host.Outcome State Fault Refusal :=
  if max.toNat = 0 then .fault (.rndRange max)
  else .next { s.setReg rx (s.drawRnd max) with draws := s.draws + 1 }

/-- `DRW rx, ry, addr` (R227). -/
def execDrw (rx ry : Reg) (imm : Word) (s : State) : Host.Outcome State Fault Refusal :=
  outcomeOf (s.drawSprite (s.coord rx) (s.coord ry) (addrAbs imm))

/-- `DRW2 rx, ry, rz` (R228). -/
def execDrw2 (rx ry rz : Reg) (s : State) : Host.Outcome State Fault Refusal :=
  outcomeOf (s.drawSprite (s.coord rx) (s.coord ry) (s.addrInd rz))

end Sys2Proof.Machine
end

