-- ==== Sys2Proof/Machine/LoadStore.lean ====
section
/-! DEFINITION. Loads, stores and moves (41_load_store.md). They write no flags (R127). -/

namespace Sys2Proof.Machine

/-- A word loaded from `a` into `x[rx]`. -/
def State.loadWord (s : State) (rx : Reg) (a : Nat) : Except Fault State :=
  match s.memReadWord a with
  | .error f => .error f
  | .ok v => .ok (s.setReg rx v)

/-- `LDI rx, imm` (R120). -/
def execLdi (rx : Reg) (imm : Word) (s : State) : Host.Outcome State Fault Refusal :=
  .next (s.setReg rx imm)

/-- `LDI2 imm`: the stack pointer (R121). -/
def execLdi2 (imm : Word) (s : State) : Host.Outcome State Fault Refusal := .next { s with sp := imm }

/-- `LDM rx, imm` (R122). -/
def execLdm (rx : Reg) (imm : Word) (s : State) : Host.Outcome State Fault Refusal :=
  outcomeOf (s.loadWord rx (addrAbs imm))

/-- `LDM2 rx, ry` (R123). -/
def execLdm2 (rx ry : Reg) (s : State) : Host.Outcome State Fault Refusal :=
  outcomeOf (s.loadWord rx (s.addrInd ry))

/-- `MOV rx, ry` (R124). -/
def execMov (rx ry : Reg) (s : State) : Host.Outcome State Fault Refusal :=
  .next (s.setReg rx (s.reg ry))

/-- `STM rx, imm` (R125). -/
def execStm (rx : Reg) (imm : Word) (s : State) : Host.Outcome State Fault Refusal :=
  outcomeOf (s.memWriteWord (addrAbs imm) (s.reg rx))

/-- `STM2 rx, ry`: the value is `x[rx]`, the address `x[ry]` (R126). -/
def execStm2 (rx ry : Reg) (s : State) : Host.Outcome State Fault Refusal :=
  outcomeOf (s.memWriteWord (s.addrInd ry) (s.reg rx))

end Sys2Proof.Machine
end

