-- ==== Sys2Proof/Machine/MulDiv.lean ====
section
/-! DEFINITION. Multiply, divide, modulo and remainder (44_muldiv.md). -/

namespace Sys2Proof.Machine

/-- `MULI rx, imm` (R171). -/
def execMuli (rx : Reg) (imm : Word) (s : State) : Host.Outcome State Fault Refusal :=
  .next (s.writeAlu rx (mulF (s.reg rx) imm s.flags))

/-- `MUL rx, ry` (R172). -/
def execMul (rx ry : Reg) (s : State) : Host.Outcome State Fault Refusal :=
  .next (s.writeAlu rx (mulF (s.reg rx) (s.reg ry) s.flags))

/-- `MUL2 rx, ry, rz`: the result goes to `rz` (R173). -/
def execMul2 (rx ry rz : Reg) (s : State) : Host.Outcome State Fault Refusal :=
  .next (s.writeAlu rz (mulF (s.reg rx) (s.reg ry) s.flags))

/-- `DIVI rx, imm` (R175). -/
def execDivi (rx : Reg) (imm : Word) (s : State) : Host.Outcome State Fault Refusal :=
  outcomeOf (s.writeChecked rx (divF (s.reg rx) imm s.flags))

/-- `DIV rx, ry` (R176). -/
def execDiv (rx ry : Reg) (s : State) : Host.Outcome State Fault Refusal :=
  outcomeOf (s.writeChecked rx (divF (s.reg rx) (s.reg ry) s.flags))

/-- `DIV2 rx, ry, rz`: the result goes to `rz` (R177). -/
def execDiv2 (rx ry rz : Reg) (s : State) : Host.Outcome State Fault Refusal :=
  outcomeOf (s.writeChecked rz (divF (s.reg rx) (s.reg ry) s.flags))

/-- `MODI rx, imm` (R179). -/
def execModi (rx : Reg) (imm : Word) (s : State) : Host.Outcome State Fault Refusal :=
  outcomeOf (s.writeChecked rx (modF (s.reg rx) imm s.flags))

/-- `MOD rx, ry` (R180). -/
def execMod (rx ry : Reg) (s : State) : Host.Outcome State Fault Refusal :=
  outcomeOf (s.writeChecked rx (modF (s.reg rx) (s.reg ry) s.flags))

/-- `MOD2 rx, ry, rz`: the result goes to `rz` (R181). -/
def execMod2 (rx ry rz : Reg) (s : State) : Host.Outcome State Fault Refusal :=
  outcomeOf (s.writeChecked rz (modF (s.reg rx) (s.reg ry) s.flags))

/-- `REMI rx, imm` (R183). -/
def execRemi (rx : Reg) (imm : Word) (s : State) : Host.Outcome State Fault Refusal :=
  outcomeOf (s.writeChecked rx (remF (s.reg rx) imm s.flags))

/-- `REM rx, ry` (R184). -/
def execRem (rx ry : Reg) (s : State) : Host.Outcome State Fault Refusal :=
  outcomeOf (s.writeChecked rx (remF (s.reg rx) (s.reg ry) s.flags))

/-- `REM2 rx, ry, rz`: the result goes to `rz` (R185). -/
def execRem2 (rx ry rz : Reg) (s : State) : Host.Outcome State Fault Refusal :=
  outcomeOf (s.writeChecked rz (remF (s.reg rx) (s.reg ry) s.flags))

end Sys2Proof.Machine
end

