-- ==== Sys2Proof/Machine/PaletteUnary.lean ====
section
/-! DEFINITION. Palette load, complement and negation (47_palette_unary.md). -/

namespace Sys2Proof.Machine

/-- The palette word at `a`: the one big-endian reader, bytes R, G, B (R210, 20_memory.md R56). -/
def Memory.readRgb (m : Memory) (a : Nat) : Rgb :=
  rgbOf (m.readByte a) (m.readByte (a + 1)) (m.readByte (a + 2))

/-- `load_palette(base)`: the 48 bytes must lie in memory, checked before any entry changes (R210, D22). -/
def State.loadPalette (s : State) (base : Nat) : Except Fault State :=
  if base + 47 > Config.maxAddr then .error (.memRange base)
  else .ok { s with pal := Vector.ofFn fun i => s.mem.readRgb (base + 3 * i.val) }

/-- `PAL imm` (R210). -/
def execPal (imm : Word) (s : State) : Host.Outcome State Fault Refusal :=
  outcomeOf (s.loadPalette (addrAbs imm))

/-- `PAL2 rx` (R211). -/
def execPal2 (rx : Reg) (s : State) : Host.Outcome State Fault Refusal :=
  outcomeOf (s.loadPalette (s.addrInd rx))

/-- `NOTI rx, imm` (R212). -/
def execNoti (rx : Reg) (imm : Word) (s : State) : Host.Outcome State Fault Refusal :=
  .next (s.writeAlu rx (notF imm s.flags))

/-- `NOT rx` (R213). -/
def execNot (rx : Reg) (s : State) : Host.Outcome State Fault Refusal :=
  .next (s.writeAlu rx (notF (s.reg rx) s.flags))

/-- `NOT2 rx, ry` (R214). -/
def execNot2 (rx ry : Reg) (s : State) : Host.Outcome State Fault Refusal :=
  .next (s.writeAlu rx (notF (s.reg ry) s.flags))

/-- `NEGI rx, imm` (R215). -/
def execNegi (rx : Reg) (imm : Word) (s : State) : Host.Outcome State Fault Refusal :=
  .next (s.writeAlu rx (negF imm s.flags))

/-- `NEG rx` (R216). -/
def execNeg (rx : Reg) (s : State) : Host.Outcome State Fault Refusal :=
  .next (s.writeAlu rx (negF (s.reg rx) s.flags))

/-- `NEG2 rx, ry` (R217). -/
def execNeg2 (rx ry : Reg) (s : State) : Host.Outcome State Fault Refusal :=
  .next (s.writeAlu rx (negF (s.reg ry) s.flags))

end Sys2Proof.Machine
end

