-- ==== Sys2Proof/Machine/Shift.lean ====
section
/-! DEFINITION. Shifts (45_shift.md). -/

namespace Sys2Proof.Machine

/-- `n <- u16(x[ry])`, checked, then `x[rx] <- F(x[rx], n)` (R194 to R196). -/
def State.shiftBy (s : State) (rx ry : Reg) (F : Word → Nat → Byte → Word × Byte) :
    Except Fault State :=
  match s.shiftCount ry with
  | .error f => .error f
  | .ok n => .ok (s.writeAlu rx (F (s.reg rx) n s.flags))

/-- `SHL rx, sh` (R191). -/
def execShl (rx : Reg) (sh : ShiftCount) (s : State) : Host.Outcome State Fault Refusal :=
  .next (s.writeAlu rx (shlF (s.reg rx) sh.val s.flags))

/-- `SHR rx, sh` (R192). -/
def execShr (rx : Reg) (sh : ShiftCount) (s : State) : Host.Outcome State Fault Refusal :=
  .next (s.writeAlu rx (shrF (s.reg rx) sh.val s.flags))

/-- `SAR rx, sh` (R193). -/
def execSar (rx : Reg) (sh : ShiftCount) (s : State) : Host.Outcome State Fault Refusal :=
  .next (s.writeAlu rx (sarF (s.reg rx) sh.val s.flags))

/-- `SHL2 rx, ry`: the count is `x[ry]` (R194). -/
def execShl2 (rx ry : Reg) (s : State) : Host.Outcome State Fault Refusal :=
  outcomeOf (s.shiftBy rx ry shlF)

/-- `SHR2 rx, ry`: the count is `x[ry]` (R195). -/
def execShr2 (rx ry : Reg) (s : State) : Host.Outcome State Fault Refusal :=
  outcomeOf (s.shiftBy rx ry shrF)

/-- `SAR2 rx, ry`: the count is `x[ry]` (R196). -/
def execSar2 (rx ry : Reg) (s : State) : Host.Outcome State Fault Refusal :=
  outcomeOf (s.shiftBy rx ry sarF)

end Sys2Proof.Machine
end

