-- ==== Sys2Proof/Machine/SoundNop.lean ====
section
/-! DEFINITION. No operation and sound: each changes nothing but `pc`, which the step has advanced (49_sound_nop.md R257, log 15). -/

namespace Sys2Proof.Machine

/-- `NOP` (R250). -/
def execNop (s : State) : Host.Outcome State Fault Refusal := .next s

/-- `SND0` (R251). -/
def execSnd0 (s : State) : Host.Outcome State Fault Refusal := .next s

/-- `SND1 imm` (R252). -/
def execSnd1 (_imm : Word) (s : State) : Host.Outcome State Fault Refusal := .next s

/-- `SND2 imm` (R253). -/
def execSnd2 (_imm : Word) (s : State) : Host.Outcome State Fault Refusal := .next s

/-- `SND3 imm` (R254). -/
def execSnd3 (_imm : Word) (s : State) : Host.Outcome State Fault Refusal := .next s

/-- `SNP rx, imm`: no memory read, so no fault (R255, D27). -/
def execSnp (_rx : Reg) (_imm : Word) (s : State) : Host.Outcome State Fault Refusal := .next s

/-- `SNG ad, vtsr` (R256). -/
def execSng (_ad _vt _sr : Byte) (s : State) : Host.Outcome State Fault Refusal := .next s

end Sys2Proof.Machine
end

