-- ==== Sys2Proof/Machine/Stack.lean ====
section
/-! DEFINITION. The stack instructions (46_stack.md). -/

namespace Sys2Proof.Machine

/-- `x[rx] <- pop16()` (R203). -/
def State.popInto (s : State) (rx : Reg) : Except Fault State :=
  match s.pop16 with
  | .error f => .error f
  | .ok (v, t) => .ok (t.setReg rx v)

/-- Sixteen pushes after one check that all of them fit (R204). -/
def State.pushAll (s : State) : Except Fault State :=
  if s.sp.toNat > 0xFFDF then .error (.stackRange s.sp) else s.pushRegs (List.finRange 16)

/-- Sixteen pops after one check that all of them fit (R205). -/
def State.popAll (s : State) : Except Fault State :=
  if s.sp.toNat < 32 then .error (.stackRange s.sp) else s.popRegs (List.finRange 16).reverse

/-- `FLAGS <- pop16()[7:0] & 0xC6` (R207). -/
def State.popFlags (s : State) : Except Fault State :=
  match s.pop16 with
  | .error f => .error f
  | .ok (v, t) => .ok { t with flags := lowByte v &&& flagMask }

/-- `PUSH rx` (R202). -/
def execPush (rx : Reg) (s : State) : Host.Outcome State Fault Refusal :=
  outcomeOf (s.push16 (s.reg rx))

/-- `POP rx` (R203). -/
def execPop (rx : Reg) (s : State) : Host.Outcome State Fault Refusal := outcomeOf (s.popInto rx)

/-- `PUSHALL`: the whole range is checked before any write, `R0` first at the lowest address (R204). -/
def execPushall (s : State) : Host.Outcome State Fault Refusal := outcomeOf s.pushAll

/-- `POPALL`: the whole range is checked before any read, `R15` first (R205). -/
def execPopall (s : State) : Host.Outcome State Fault Refusal := outcomeOf s.popAll

/-- `PUSHF`: `FLAGS` zero-extended (R206). -/
def execPushf (s : State) : Host.Outcome State Fault Refusal :=
  outcomeOf (s.push16 (s.flags.setWidth 16))

/-- `POPF`: only bits 1, 2, 6, 7 of the word are kept (R207, D18). -/
def execPopf (s : State) : Host.Outcome State Fault Refusal := outcomeOf s.popFlags

end Sys2Proof.Machine
end

