-- ==== Sys2Proof/Machine/Dispatch.lean ====
section
/-! DEFINITION. One arm per instruction: the handler its opcode dispatches to (30_encoding.md R78). -/

namespace Sys2Proof.Machine

def exec (i : Instr) (s : State) : Host.Outcome State Fault Refusal :=
  match i with
  | .nop => Sys2Proof.Machine.execNop s
  | .cls => Sys2Proof.Machine.execCls s
  | .vblnk => Sys2Proof.Machine.execVblnk s
  | .bgc nib => Sys2Proof.Machine.execBgc nib s
  | .spr w h => Sys2Proof.Machine.execSpr w h s
  | .drw rx ry imm => Sys2Proof.Machine.execDrw rx ry imm s
  | .drw2 rx ry rz => Sys2Proof.Machine.execDrw2 rx ry rz s
  | .rnd rx imm => Sys2Proof.Machine.execRnd rx imm s
  | .flip h v => Sys2Proof.Machine.execFlip h v s
  | .snd0 => Sys2Proof.Machine.execSnd0 s
  | .snd1 imm => Sys2Proof.Machine.execSnd1 imm s
  | .snd2 imm => Sys2Proof.Machine.execSnd2 imm s
  | .snd3 imm => Sys2Proof.Machine.execSnd3 imm s
  | .snp rx imm => Sys2Proof.Machine.execSnp rx imm s
  | .sng ad vt sr => Sys2Proof.Machine.execSng ad vt sr s
  | .jmp imm => Sys2Proof.Machine.execJmp imm s
  | .jmc imm => Sys2Proof.Machine.execJmc imm s
  | .jx cnd imm => Sys2Proof.Machine.execJx cnd imm s
  | .jme rx ry imm => Sys2Proof.Machine.execJme rx ry imm s
  | .call imm => Sys2Proof.Machine.execCall imm s
  | .ret => Sys2Proof.Machine.execRet s
  | .jmp2 rx => Sys2Proof.Machine.execJmp2 rx s
  | .cx cnd imm => Sys2Proof.Machine.execCx cnd imm s
  | .call2 rx => Sys2Proof.Machine.execCall2 rx s
  | .ldi rx imm => Sys2Proof.Machine.execLdi rx imm s
  | .ldi2 imm => Sys2Proof.Machine.execLdi2 imm s
  | .ldm rx imm => Sys2Proof.Machine.execLdm rx imm s
  | .ldm2 rx ry => Sys2Proof.Machine.execLdm2 rx ry s
  | .mov rx ry => Sys2Proof.Machine.execMov rx ry s
  | .stm rx imm => Sys2Proof.Machine.execStm rx imm s
  | .stm2 rx ry => Sys2Proof.Machine.execStm2 rx ry s
  | .addi rx imm => Sys2Proof.Machine.execAddi rx imm s
  | .add rx ry => Sys2Proof.Machine.execAdd rx ry s
  | .add2 rx ry rz => Sys2Proof.Machine.execAdd2 rx ry rz s
  | .subi rx imm => Sys2Proof.Machine.execSubi rx imm s
  | .sub rx ry => Sys2Proof.Machine.execSub rx ry s
  | .sub2 rx ry rz => Sys2Proof.Machine.execSub2 rx ry rz s
  | .cmpi rx imm => Sys2Proof.Machine.execCmpi rx imm s
  | .cmp rx ry => Sys2Proof.Machine.execCmp rx ry s
  | .andi rx imm => Sys2Proof.Machine.execAndi rx imm s
  | .and rx ry => Sys2Proof.Machine.execAnd rx ry s
  | .and2 rx ry rz => Sys2Proof.Machine.execAnd2 rx ry rz s
  | .tsti rx imm => Sys2Proof.Machine.execTsti rx imm s
  | .tst rx ry => Sys2Proof.Machine.execTst rx ry s
  | .ori rx imm => Sys2Proof.Machine.execOri rx imm s
  | .or rx ry => Sys2Proof.Machine.execOr rx ry s
  | .or2 rx ry rz => Sys2Proof.Machine.execOr2 rx ry rz s
  | .xori rx imm => Sys2Proof.Machine.execXori rx imm s
  | .xor rx ry => Sys2Proof.Machine.execXor rx ry s
  | .xor2 rx ry rz => Sys2Proof.Machine.execXor2 rx ry rz s
  | .muli rx imm => Sys2Proof.Machine.execMuli rx imm s
  | .mul rx ry => Sys2Proof.Machine.execMul rx ry s
  | .mul2 rx ry rz => Sys2Proof.Machine.execMul2 rx ry rz s
  | .divi rx imm => Sys2Proof.Machine.execDivi rx imm s
  | .div rx ry => Sys2Proof.Machine.execDiv rx ry s
  | .div2 rx ry rz => Sys2Proof.Machine.execDiv2 rx ry rz s
  | .modi rx imm => Sys2Proof.Machine.execModi rx imm s
  | .mod rx ry => Sys2Proof.Machine.execMod rx ry s
  | .mod2 rx ry rz => Sys2Proof.Machine.execMod2 rx ry rz s
  | .remi rx imm => Sys2Proof.Machine.execRemi rx imm s
  | .rem rx ry => Sys2Proof.Machine.execRem rx ry s
  | .rem2 rx ry rz => Sys2Proof.Machine.execRem2 rx ry rz s
  | .shl rx sh => Sys2Proof.Machine.execShl rx sh s
  | .shr rx sh => Sys2Proof.Machine.execShr rx sh s
  | .sar rx sh => Sys2Proof.Machine.execSar rx sh s
  | .shl2 rx ry => Sys2Proof.Machine.execShl2 rx ry s
  | .shr2 rx ry => Sys2Proof.Machine.execShr2 rx ry s
  | .sar2 rx ry => Sys2Proof.Machine.execSar2 rx ry s
  | .push rx => Sys2Proof.Machine.execPush rx s
  | .pop rx => Sys2Proof.Machine.execPop rx s
  | .pushall => Sys2Proof.Machine.execPushall s
  | .popall => Sys2Proof.Machine.execPopall s
  | .pushf => Sys2Proof.Machine.execPushf s
  | .popf => Sys2Proof.Machine.execPopf s
  | .pal imm => Sys2Proof.Machine.execPal imm s
  | .pal2 rx => Sys2Proof.Machine.execPal2 rx s
  | .noti rx imm => Sys2Proof.Machine.execNoti rx imm s
  | .not rx => Sys2Proof.Machine.execNot rx s
  | .not2 rx ry => Sys2Proof.Machine.execNot2 rx ry s
  | .negi rx imm => Sys2Proof.Machine.execNegi rx imm s
  | .neg rx => Sys2Proof.Machine.execNeg rx s
  | .neg2 rx ry => Sys2Proof.Machine.execNeg2 rx ry s

end Sys2Proof.Machine
end

