-- ==== Sys2Proof/Machine/Scheduler.lean ====
section
/-! DEFINITION. The frame scheduler around the steps, and what the host does between them (60_exceptions.md
R269 to R283, log 5).

A frame is its steps and then a boundary. The boundary of a full frame stands between its last step and the
next frame's first: the host may close the run before it or after it (R272's two tests). `passBoundary` is
that boundary; a step that finds one due passes it first. -/

namespace Sys2Proof.Machine

/-! ## The subdivision of a frame (R271, R272) -/

/-- How many steps the present frame has, at least one: `STEPS_PER_FRAME`, or the host's own choice. -/
def State.frameLength (s : State) : Nat :=
  match s.schedule with
  | .reference => Config.stepsPerFrame
  | .hostChosen => Config.freeStepsBeforeLast s.frameNo + 1

/-- What `vblank` is in the step at this position of the frame. By the reference scheduler
`k >= STEPS_PER_FRAME - VBLANK_STEPS` (R272); else as the host chooses, with at least one such step in every
frame (R271 (a)). -/
def State.vblankNow (s : State) : Bool :=
  match s.schedule with
  | .reference => decide (Config.stepsPerFrame - Config.vblankSteps ≤ s.framePos)
  | .hostChosen =>
    Config.freeVblank s.frameNo s.framePos ||
      s.framePos == Config.freeVblankStep s.frameNo % s.frameLength

/-- The host's choice of a subdivision, made with the load, before the first step (R278). -/
def State.hostSchedule (s : State) (c : Schedule) : State := { s with schedule := c }

/-! ## The frame boundary (R272 to R275)

Each of its acts is guarded by `due` field by field, so that a step can be evaluated without the frame's
length, which is open. -/

/-- `status == Running and not host_closed`: else the scheduler stops (R272). -/
def State.live (s : State) : Bool :=
  match s.status with
  | .running => !s.hostClosed
  | .faulted _ => false

/-- The frame has had all its steps and the run goes on. -/
def State.boundaryDue (s : State) : Bool := s.live && decide (s.frameLength ≤ s.framePos)

/-- What `render(FB, PAL, bg)` tells the render sink (R276). -/
def State.renderCall (s : State) : RenderCall :=
  { frame := s.frameNo, fb := s.fb, pal := s.pal, bg := s.bg }

/-- `render(FB, PAL, bg)`, if the host does not skip it: an output, which changes nothing else (R274). -/
def State.render (s : State) (due : Bool) : State :=
  { s with
    renders := if due && Config.freeRender s.frameNo then s.renderCall :: s.renders else s.renders }

/-- Player 1's mask at this boundary: a free value, bits 15..8 zero (R275, R277, log 6). -/
def State.inputMask1 (s : State) : Word := (Config.freeMask1 s.frameNo).setWidth 16

/-- Player 2's mask at this boundary (R275, log 6). -/
def State.inputMask2 (s : State) : Word := (Config.freeMask2 s.frameNo).setWidth 16

/-- `(p1, p2) <- host_input()`: the host writes both controller words (R275). -/
def State.pollInput (s : State) (due : Bool) : State :=
  { s with
    mem := { s.mem with
      ctrl1 := if due then s.inputMask1 else s.mem.ctrl1
      ctrl2 := if due then s.inputMask2 else s.mem.ctrl2 } }

/-- The next frame starts at position 0. -/
def State.nextFrame (s : State) (due : Bool) : State :=
  { s with
    framePos := if due then 0 else s.framePos
    frameNo := if due then s.frameNo + 1 else s.frameNo }

/-- The frame boundary where one is due, in R272's order: the render, the input, the next frame. -/
def State.passBoundary (s : State) : State :=
  ((s.render s.boundaryDue).pollInput s.boundaryDue).nextFrame s.boundaryDue

/-! ## Around a step (R272) -/

/-- `vblank` is written before the step. -/
def State.beginStep (s : State) : State := { s with vblank := s.vblankNow }

/-- After a step the position advances. -/
def State.endStep (s : State) : State := { s with framePos := s.framePos + 1 }

/-- The host's close signal, given between two steps, or between a frame's last step and its boundary (R272,
R283, log 9). -/
def State.hostClose (s : State) : State := { s with hostClosed := true }

end Sys2Proof.Machine
end

