-- ==== Sys2Proof/Machine/Engine.lean ====
section
/-! DEFINITION. One step of the engine: fetch, decode, dispatch (30_encoding.md R70). -/

namespace Sys2Proof.Machine

/-- `step()` of R70, with the value of `vblank` the state holds. A faulted core stays stopped by its
fault; the order of checks is that of 60_exceptions.md R263. -/
def engineStep (s : State) : Host.Outcome State Fault Refusal :=
  match s.status with
  | .faulted r => .fault r.fault
  | .running =>
    if s.pc.toNat ≥ Config.stackBase then .fault (.pcRange s.pc)
    else
      match decode s.fetch with
      | .error (.badOpcode b0) => .fault (.badOpcode b0)
      | .ok i => exec i s.advancePc

/-- The scheduler's course up to and including the next step (60_exceptions.md R269, R272): nothing once the
host has closed the run; else the boundary where the frame before has had all its steps, `vblank`, and the
engine's step. -/
def schedulerStep (s : State) : Host.Outcome State Fault Refusal :=
  if s.hostClosed then .refused .hostClosed
  else
    match engineStep s.passBoundary.beginStep with
    | .next t => .next t.endStep
    | .fault f => .fault f
    | .refused r => .refused r

/-- The state after one step, the terminal state of a fault included: `raise` writes `status`
(60_exceptions.md R260, log 8). A stopped core keeps its state. -/
def State.settle (s : State) : State :=
  match schedulerStep s with
  | .next t => t
  | .refused _ => s
  | .fault f =>
    match s.status with
    | .faulted _ => s
    | .running => s.passBoundary.beginStep.raise f

end Sys2Proof.Machine
end

