-- ==== Sys2Proof/Machine/Step.lean ====
section
/-! DEFINITION. One step of the machine (30_encoding.md R70 within 60_exceptions.md R272), and how the host
places an instruction where the next step fetches. -/

namespace Sys2Proof.Machine

/-- One step: one instruction, or a stop (00_scope.md R12). -/
def step (s : State) : Host.Outcome State Fault Refusal := schedulerStep s

/-- The state with a table word's four bytes at `pc`, where the next step fetches (log 2). -/
def State.withFetchWord (s : State) (nbits w : Nat) : State := s.placeAtPc (bytesOfTableWord nbits w)

end Sys2Proof.Machine
end

