-- ==== Sys2Proof/Machine/Display.lean ====
section
/-! DEFINITION. What a render tells the render sink and what the sink shows (60_exceptions.md R274, R276). The
renders themselves are made at frame boundaries by `State.render`. -/

namespace Sys2Proof.Machine

/-- Cell `(sy, sx)` of the framebuffer handed over. -/
def RenderCall.cell (c : RenderCall) (sy sx : Nat) : Byte := cellGet c.fb (fbIndex sy sx)

/-- The framebuffer as the 76800-byte array, cell `(sy, sx)` at `sy*320 + sx` (R276, 10_state.md R36). -/
def RenderCall.framebuffer (c : RenderCall) : List Byte := (List.range Config.fbSize).map (cellGet c.fb)

/-- The three arguments of the call: framebuffer, palette and `bg` (R276). -/
def RenderCall.args (c : RenderCall) : List Byte × Vector Rgb 16 × Byte := (c.framebuffer, c.pal, widen c.bg)

/-- The colour shown at `(sy, sx)`: index 0 is shown as `PAL[bg]` (R276, 10_state.md R37). -/
def RenderCall.colour (c : RenderCall) (sy sx : Nat) : Rgb :=
  if c.cell sy sx = 0 then c.pal[c.bg.toFin] else c.pal[(lowNibble (c.cell sy sx)).toFin]

/-- The framebuffer array a render would hand over now. -/
def State.framebuffer (s : State) : List Byte := s.renderCall.framebuffer

/-- What a render would hand over now. -/
def State.renderArgs (s : State) : List Byte × Vector Rgb 16 × Byte := s.renderCall.args

/-- The colour a render would show now. -/
def State.colour (s : State) (sy sx : Nat) : Rgb := s.renderCall.colour sy sx

end Sys2Proof.Machine
end

