-- ==== Sys2Proof/Machine/Loader.lean ====
section
/-! DEFINITION. The host's load of a program before the first step (70_reset_and_hazards.md R291, R292,
R294, logs 2 and 17). -/

namespace Sys2Proof.Machine

/-- Why the host refuses to start the core; the core takes no step (R291, R292). -/
inductive LoadRefusal where
  /-- More bytes than memory holds (R291, D35). -/
  | imageTooLarge
  /-- A file with the magic but shorter than the header (R292). -/
  | headerShort
  /-- The header's size field is not the file's length less 16 (R292). -/
  | sizeMismatch
  deriving DecidableEq, Repr

/-- `MEM[i] <- bytes[i]`, refused above 65536 bytes; `pc` at the entry point (R291, R294). -/
def State.loadImage (s : State) (image : List Byte) (entry : Word) : Except LoadRefusal State :=
  if image.length > Config.maxAddr + 1 then .error .imageTooLarge
  else .ok { s with mem := s.mem.writeBytes 0 image, pc := entry }

/-- `load_raw` of a headerless image: `ENTRY_PC` is 0 (R291). -/
def State.loadRaw (s : State) (file : List Byte) : Except LoadRefusal State :=
  s.loadImage file Config.entryPc

/-- Byte `i` of a file, 0 past its end. -/
def fileByte (file : List Byte) (i : Nat) : Byte := file.getD i 0

/-- The little-endian number of the `n` bytes from `i`. -/
def fileNat (file : List Byte) (i n : Nat) : Nat :=
  match n with
  | 0 => 0
  | k + 1 => (fileByte file i).toNat + 256 * fileNat file (i + 1) k

/-- The magic "CH16" (R292). -/
def c16Magic : List Byte := [0x43, 0x48, 0x31, 0x36]

/-- `load_c16`: `C16_LAYOUT` of R292, the checksum ignored (`VERIFY_CHECKSUM` is false). -/
def State.loadC16 (s : State) (file : List Byte) : Except LoadRefusal State :=
  if file.take 4 ≠ c16Magic then s.loadRaw file
  else if file.length < 16 then .error .headerShort
  else if fileNat file 0x06 4 ≠ file.length - 16 then .error .sizeMismatch
  else s.loadImage (file.drop 16) (joinBytes (fileByte file 0x0E) (fileByte file 0x0F))

end Sys2Proof.Machine
end

