-- ==== Sys2Proof/WellFormed.lean ====
section
/-! DEFINITION. Which instructions a program may use.

Every operand type is exactly as wide as its field, so the one check left is the condition index:
"Never use condition 0xF" (70_reset_and_hazards.md R299, 30_encoding.md R80). -/

namespace Sys2Proof

/-- A condition index that names a condition (10_state.md R30). -/
def CondIndex.named (c : CondIndex) : Bool := decide (c.val < 15)

/-- The operands are ones the spec defines the instruction for (30_encoding.md R80). -/
def Instr.wellFormed : Instr → Bool
  | .jx cnd _ => CondIndex.named cnd
  | .cx cnd _ => CondIndex.named cnd
  | .nop | .cls | .vblnk | .bgc _ | .spr _ _ | .drw _ _ _ | .drw2 _ _ _ | .rnd _ _ | .flip _ _ |
    .snd0 | .snd1 _ | .snd2 _ | .snd3 _ | .snp _ _ | .sng _ _ _ | .jmp _ | .jmc _ | .jme _ _ _ |
    .call _ | .ret | .jmp2 _ | .call2 _ | .ldi _ _ | .ldi2 _ | .ldm _ _ | .ldm2 _ _ | .mov _ _ |
    .stm _ _ | .stm2 _ _ | .addi _ _ | .add _ _ | .add2 _ _ _ | .subi _ _ | .sub _ _ |
    .sub2 _ _ _ | .cmpi _ _ | .cmp _ _ | .andi _ _ | .and _ _ | .and2 _ _ _ | .tsti _ _ |
    .tst _ _ | .ori _ _ | .or _ _ | .or2 _ _ _ | .xori _ _ | .xor _ _ | .xor2 _ _ _ | .muli _ _ |
    .mul _ _ | .mul2 _ _ _ | .divi _ _ | .div _ _ | .div2 _ _ _ | .modi _ _ | .mod _ _ |
    .mod2 _ _ _ | .remi _ _ | .rem _ _ | .rem2 _ _ _ | .shl _ _ | .shr _ _ | .sar _ _ |
    .shl2 _ _ | .shr2 _ _ | .sar2 _ _ | .push _ | .pop _ | .pushall | .popall | .pushf | .popf |
    .pal _ | .pal2 _ | .noti _ _ | .not _ | .not2 _ _ | .negi _ _ | .neg _ | .neg2 _ _ => true

end Sys2Proof
end

