-- ==== Sys2Proof/Safety.lean ====
section
/-! DEFINITION. The terms claims are made in: the invariant of every state a run reaches, when an
instruction runs (70_reset_and_hazards.md R299), and what an instruction leaves unchanged. -/

namespace Sys2Proof.Machine

/-! ## The invariant -/

/-- The framebuffer in its canonical form: every listed cell is on the screen and holds an index 1..15
(10_state.md R36, 48_graphics.md R229). -/
abbrev fbWf (fb : List Host.Cell) : Prop :=
  cellsWf fb ∧ ∀ c ∈ fb, c.1 < Config.fbSize ∧ c.2.toNat ≤ 15

/-- What every step keeps: storage in its canonical form, bits 0, 3, 4, 5 of `FLAGS` 0 (10_state.md R27),
palette words `0x00RRGGBB` (R35), the frame position inside the frame or at its end (60_exceptions.md R272),
and at most one render per boundary, made at a boundary passed (R271 (b), R274). -/
structure State.Inv (s : State) : Prop where
  mem_wf : s.mem.wf
  fb_wf : fbWf s.fb
  flags_reserved : s.flags &&& ~~~flagMask = 0
  pal_24bit : ∀ i : Fin 16, s.pal[i].toNat < 2 ^ 24
  framePos_le : s.framePos ≤ s.frameLength
  renders_past : ∀ r ∈ s.renders, r.frame < s.frameNo
  renders_once : s.renders.Pairwise fun r q => q.frame < r.frame

/-! ## When an instruction runs -/

/-- A dividend and divisor DIVF, MODF and REMF answer for (44_muldiv.md R174, R178, R182). -/
def divisible (a b : Word) : Prop := b.toInt ≠ 0 ∧ ¬ (a.toInt = -32768 ∧ b.toInt = -1)

/-- A sprite the blit draws nothing of, or whose data lies in memory (48_graphics.md R226). -/
def State.spriteFits (s : State) (x y : Int) (a : Nat) : Prop :=
  (s.blitArgs x y a).noOp = true ∨ a + s.spritew.toNat * s.spriteh.toNat ≤ 0x10000

/-- What a program must do to stay inside the defined behaviour, per instruction
(70_reset_and_hazards.md R299). -/
def instrRuns (i : Instr) (s : State) : Prop :=
  match i with
  | .jx cnd _ => cnd.val < 15
  | .cx cnd _ => cnd.val < 15 ∧ (condition cnd s.flags = some true → s.sp.toNat ≤ 0xFFFD)
  | .call _ | .call2 _ | .push _ | .pushf => s.sp.toNat ≤ 0xFFFD
  | .ret | .pop _ | .popf => 2 ≤ s.sp.toNat
  | .pushall => s.sp.toNat ≤ 0xFFDF
  | .popall => 32 ≤ s.sp.toNat
  | .ldm _ imm | .stm _ imm => imm.toNat < 0xFFFF
  | .ldm2 _ ry | .stm2 _ ry => (s.reg ry).toNat < 0xFFFF
  | .pal imm => imm.toNat ≤ 0xFFD0
  | .pal2 rx => (s.reg rx).toNat ≤ 0xFFD0
  | .divi rx imm | .modi rx imm | .remi rx imm => divisible (s.reg rx) imm
  | .div rx ry | .mod rx ry | .rem rx ry => divisible (s.reg rx) (s.reg ry)
  | .div2 rx ry _ | .mod2 rx ry _ | .rem2 rx ry _ => divisible (s.reg rx) (s.reg ry)
  | .shl2 _ ry | .shr2 _ ry | .sar2 _ ry => (s.reg ry).toNat < 16
  | .rnd _ max => max.toNat ≠ 0
  | .drw rx ry imm => s.spriteFits (s.coord rx) (s.coord ry) imm.toNat
  | .drw2 rx ry rz => s.spriteFits (s.coord rx) (s.coord ry) (s.reg rz).toNat
  | .nop | .cls | .vblnk | .bgc _ | .spr _ _ | .flip _ _ | .snd0 | .snd1 _ | .snd2 _ | .snd3 _ |
    .snp _ _ | .sng _ _ _ | .jmp _ | .jmc _ | .jme _ _ _ | .jmp2 _ | .ldi _ _ | .ldi2 _ |
    .mov _ _ | .addi _ _ | .add _ _ | .add2 _ _ _ | .subi _ _ | .sub _ _ | .sub2 _ _ _ |
    .cmpi _ _ | .cmp _ _ | .andi _ _ | .and _ _ | .and2 _ _ _ | .tsti _ _ | .tst _ _ | .ori _ _ |
    .or _ _ | .or2 _ _ _ | .xori _ _ | .xor _ _ | .xor2 _ _ _ | .muli _ _ | .mul _ _ |
    .mul2 _ _ _ | .shl _ _ | .shr _ _ | .sar _ _ | .noti _ _ | .not _ | .not2 _ _ | .negi _ _ |
    .neg _ | .neg2 _ _ => True

/-! ## The picture of a sprite (48_graphics.md R226)

The blit as a picture instead of a loop: which pixel of the sprite lies over a screen position. -/

/-- The sprite's box covers the screen position. -/
def BlitArgs.covers (g : BlitArgs) (sx sy : Int) : Prop :=
  0 ≤ sx - g.x ∧ sx - g.x < 2 * g.w ∧ 0 ≤ sy - g.y ∧ sy - g.y < g.h

/-- The sprite's row shown at screen row `sy`: mirrored within the height by `vflip`. -/
def BlitArgs.rowOf (g : BlitArgs) (sy : Int) : Nat :=
  if g.vflip then g.h - 1 - (sy - g.y).toNat else (sy - g.y).toNat

/-- The sprite's byte column shown at screen column `sx`: mirrored within the row by `hflip`. -/
def BlitArgs.colOf (g : BlitArgs) (sx : Int) : Nat :=
  if g.hflip then g.w - 1 - (sx - g.x).toNat / 2 else (sx - g.x).toNat / 2

/-- The palette index the sprite shows at a position its box covers: the high nibble is the left pixel of
its byte, the right one under `hflip`. -/
def BlitArgs.pixelAt (g : BlitArgs) (m : Memory) (sx sy : Int) : BitVec 4 :=
  let v := m.readByte (g.addr + g.rowOf sy * g.w + g.colOf sx)
  if ((sx - g.x).toNat % 2 == 0) != g.hflip then highNibble v else lowNibble v

/-- The position holds a drawn pixel: on the screen, covered, and not transparent. -/
def BlitArgs.draws (g : BlitArgs) (m : Memory) (sx sy : Int) : Prop :=
  onScreen sx sy = true ∧ g.covers sx sy ∧ g.pixelAt m sx sy ≠ 0

/-! ## What an instruction leaves unchanged -/

/-- The bits of `FLAGS` an instruction may write: the table of 10_state.md R31. -/
def flagBits (i : Instr) : List Nat :=
  match i with
  | .addi _ _ | .add _ _ | .add2 _ _ _ | .subi _ _ | .sub _ _ | .sub2 _ _ _ | .cmpi _ _ | .cmp _ _
  | .popf => [1, 2, 6, 7]
  | .muli _ _ | .mul _ _ | .mul2 _ _ _ | .divi _ _ | .div _ _ | .div2 _ _ _ => [1, 2, 7]
  | .andi _ _ | .and _ _ | .and2 _ _ _ | .tsti _ _ | .tst _ _ | .ori _ _ | .or _ _ | .or2 _ _ _
  | .xori _ _ | .xor _ _ | .xor2 _ _ _ | .modi _ _ | .mod _ _ | .mod2 _ _ _ | .remi _ _ | .rem _ _
  | .rem2 _ _ _ | .shl _ _ | .shr _ _ | .sar _ _ | .shl2 _ _ | .shr2 _ _ | .sar2 _ _ | .noti _ _
  | .not _ | .not2 _ _ | .negi _ _ | .neg _ | .neg2 _ _ => [2, 7]
  | .drw _ _ _ | .drw2 _ _ _ => [1]
  | _ => []

/-- The instructions that store to memory (20_memory.md R57). -/
def storesToMemory (i : Instr) : Bool :=
  match i with
  | .stm _ _ | .stm2 _ _ | .push _ | .pushall | .pushf | .call _ | .call2 _ | .cx _ _ => true
  | _ => false

/-- The instructions that move the stack pointer (10_state.md R25). -/
def movesSp (i : Instr) : Bool :=
  match i with
  | .ldi2 _ | .push _ | .pop _ | .pushall | .popall | .pushf | .popf | .call _ | .call2 _ | .cx _ _
  | .ret => true
  | _ => false

/-- What an instruction may write. Everything not named here is unchanged. -/
structure Writes where
  /-- General registers. -/
  regs : List Reg := []
  /-- Bits of `FLAGS`. -/
  flags : List Nat := []
  /-- `pc` beyond the step's advance. -/
  pc : Bool := false
  /-- `sp`. -/
  sp : Bool := false
  /-- First address of the stored bytes. -/
  memAt : Nat := 0
  /-- How many bytes are stored. -/
  memLen : Nat := 0
  /-- `bg`. -/
  bg : Bool := false
  /-- `spritew`, `spriteh`. -/
  size : Bool := false
  /-- `hflip`, `vflip`. -/
  flips : Bool := false
  /-- The palette. -/
  pal : Bool := false
  /-- The framebuffer. -/
  fb : Bool := false
  /-- The draw counter. -/
  draws : Bool := false

/-- The frame of an instruction: from `s` to `t` nothing changes but what `w` names. The vertical-blank
flag, the status, the scheduler's state, the renders and the close signal are written by no instruction. -/
structure OnlyWrites (w : Writes) (s t : State) : Prop where
  regs : ∀ r, r ∉ w.regs → t.reg r = s.reg r
  flags : ∀ k, k ∉ w.flags → t.flags.getLsbD k = s.flags.getLsbD k
  pc : w.pc = false → t.pc = s.pc
  sp : w.sp = false → t.sp = s.sp
  mem : ∀ a, (a < w.memAt ∨ w.memAt + w.memLen ≤ a) → t.mem.readByte a = s.mem.readByte a
  bg : w.bg = false → t.bg = s.bg
  size : w.size = false → t.spritew = s.spritew ∧ t.spriteh = s.spriteh
  flips : w.flips = false → t.hflip = s.hflip ∧ t.vflip = s.vflip
  pal : w.pal = false → t.pal = s.pal
  fb : w.fb = false → ∀ k, cellGet t.fb k = cellGet s.fb k
  draws : w.draws = false → t.draws = s.draws
  vblank : t.vblank = s.vblank
  status : t.status = s.status
  framePos : t.framePos = s.framePos
  frameNo : t.frameNo = s.frameNo
  schedule : t.schedule = s.schedule
  renders : t.renders = s.renders
  hostClosed : t.hostClosed = s.hostClosed

end Sys2Proof.Machine
end

