-- ==== Sys2Proof/Certificates/Slice0/Obligations.lean ====
section
/-! DEFINITION. The statements for the provers.

A statement about `exec i s` speaks of the state the handler sees: `pc` already holds the instruction's
address plus 4 (30_encoding.md R70). "Log n" is notes/assumptions/n.md; "D<n>" is a decision the spec marks
as its own (92_eei_decisions.md). -/

namespace Sys2Proof.Claims

open Sys2Proof.Machine

/-! ## Words used by the statements -/

/-- `exec i s` answers a next state with `P`, and nothing but what `w` names has changed. -/
def Gives (i : Instr) (s : State) (w : Writes) (P : State → Prop) : Prop :=
  ∃ t, exec i s = .next t ∧ P t ∧ OnlyWrites w s t

/-- `Z` and `N` are those of the result `r` (00_scope.md R11). -/
def FlagsZN (t : State) (r : Word) : Prop :=
  flagZ t.flags = decide (r.toNat = 0) ∧ flagN t.flags = r.getLsbD 15

/-- `i` puts `ADDF(a, b)` into `x[rd]` (42_arithmetic.md R130). -/
def AddsTo (i : Instr) (rd : Reg) (a b : Word) (s : State) : Prop :=
  Gives i s { regs := [rd], flags := [1, 2, 6, 7] } fun t =>
    (t.reg rd).toNat = (a.toNat + b.toNat) % 65536 ∧
    flagC t.flags = decide (a.toNat + b.toNat > 0xFFFF) ∧
    flagO t.flags = decide (a.getLsbD 15 = b.getLsbD 15 ∧ (t.reg rd).getLsbD 15 ≠ a.getLsbD 15) ∧
    FlagsZN t (t.reg rd)

/-- The flags of `SUBF(a, b)` with result `r` (42_arithmetic.md R131). -/
def SubFlags (t : State) (a b r : Word) : Prop :=
  (r.toNat : Int) = ((a.toNat : Int) - b.toNat) % 65536 ∧
  flagC t.flags = decide (a.toNat < b.toNat) ∧
  flagO t.flags = decide (a.getLsbD 15 ≠ b.getLsbD 15 ∧ r.getLsbD 15 ≠ a.getLsbD 15) ∧
  FlagsZN t r

/-- `i` puts `SUBF(a, b)` into `x[rd]`. -/
def SubsTo (i : Instr) (rd : Reg) (a b : Word) (s : State) : Prop :=
  Gives i s { regs := [rd], flags := [1, 2, 6, 7] } fun t => SubFlags t a b (t.reg rd)

/-- `i` writes the flags of `SUBF(a, b)` and no register. -/
def Compares (i : Instr) (a b : Word) (s : State) : Prop :=
  Gives i s { flags := [1, 2, 6, 7] } fun t => ∃ r, SubFlags t a b r

/-- `i` puts `r` into `x[rd]` and sets `Z` and `N` from it, keeping `C` and `O`. -/
def PutsZN (i : Instr) (rd : Reg) (r : Word) (s : State) : Prop :=
  Gives i s { regs := [rd], flags := [2, 7] } fun t => t.reg rd = r ∧ FlagsZN t r

/-- `i` sets `Z` and `N` from `r` and writes no register. -/
def TestsZN (i : Instr) (r : Word) (s : State) : Prop :=
  Gives i s { flags := [2, 7] } fun t => FlagsZN t r

/-- `i` puts `MULF(a, b)` into `x[rd]` (44_muldiv.md R170). -/
def MulsTo (i : Instr) (rd : Reg) (a b : Word) (s : State) : Prop :=
  Gives i s { regs := [rd], flags := [1, 2, 7] } fun t =>
    (t.reg rd).toNat = a.toNat * b.toNat % 65536 ∧
    flagC t.flags = decide (a.toNat * b.toNat > 0xFFFF) ∧ FlagsZN t (t.reg rd)

/-- `i` puts `DIVF(a, b)` into `x[rd]` (44_muldiv.md R174). -/
def DivsTo (i : Instr) (rd : Reg) (a b : Word) (s : State) : Prop :=
  Gives i s { regs := [rd], flags := [1, 2, 7] } fun t =>
    (t.reg rd).toInt = Int.tdiv a.toInt b.toInt ∧
    flagC t.flags = decide ((t.reg rd).toInt * b.toInt ≠ a.toInt) ∧ FlagsZN t (t.reg rd)

/-- `i` puts a word of signed value `n` into `x[rd]` and sets `Z` and `N` from it. -/
def PutsInt (i : Instr) (rd : Reg) (n : Int) (s : State) : Prop :=
  Gives i s { regs := [rd], flags := [2, 7] } fun t => (t.reg rd).toInt = n ∧ FlagsZN t (t.reg rd)

/-- `i` pushes `v` and goes to `target` (40_control_flow.md R104, 46_stack.md R200). -/
def Calls (i : Instr) (target : Word) (s : State) : Prop :=
  Gives i s { pc := true, sp := true, memAt := s.sp.toNat, memLen := 2 } fun t =>
    t.mem.readByte s.sp.toNat = s.pc.extractLsb' 0 8 ∧
    t.mem.readByte (s.sp.toNat + 1) = s.pc.extractLsb' 8 8 ∧
    t.sp.toNat = s.sp.toNat + 2 ∧ t.pc = target

/-- `i` pushes the word `v` (46_stack.md R200). -/
def Pushes (i : Instr) (v : Word) (s : State) : Prop :=
  Gives i s { sp := true, memAt := s.sp.toNat, memLen := 2 } fun t =>
    t.mem.readByte s.sp.toNat = v.extractLsb' 0 8 ∧
    t.mem.readByte (s.sp.toNat + 1) = v.extractLsb' 8 8 ∧ t.sp.toNat = s.sp.toNat + 2

/-- The two bytes at `a`, little-endian, have the value of the word `v` (20_memory.md R51). -/
def WordAt (s : State) (a : Nat) (v : Word) : Prop :=
  v.toNat = 256 * (s.mem.readByte (a + 1)).toNat + (s.mem.readByte a).toNat

/-- `i` stores the word `v` at `a`, its low byte first (20_memory.md R53). -/
def Stores (i : Instr) (a : Nat) (v : Word) (s : State) : Prop :=
  Gives i s { memAt := a, memLen := 2 } fun t =>
    t.mem.readByte a = v.extractLsb' 0 8 ∧ t.mem.readByte (a + 1) = v.extractLsb' 8 8

/-- `i` loads the palette from the 48 bytes at `a` (47_palette_unary.md R210). -/
def LoadsPalette (i : Instr) (a : Nat) (s : State) : Prop :=
  Gives i s { pal := true } fun t => ∀ k : Fin 16,
    t.pal[k].toNat = 65536 * (s.mem.readByte (a + 3 * k)).toNat +
      256 * (s.mem.readByte (a + 3 * k + 1)).toNat + (s.mem.readByte (a + 3 * k + 2)).toNat

/-- `draw_sprite(x, y, a)` draws nothing: no sprite, or its box off the screen (48_graphics.md R226). -/
def DrawsNothing (s : State) (x y : Int) : Prop :=
  s.spritew.toNat = 0 ∨ s.spriteh.toNat = 0 ∨ x > 319 ∨ y > 239 ∨
    x + 2 * s.spritew.toNat < 0 ∨ y + s.spriteh.toNat < 0

/-- `i` draws the sprite at `a` with its corner at `(x, y)` and puts the collision into `C`: every pixel the
picture shows is in its cell, every other cell is as before, and `C` is 1 exactly when a drawn pixel met a
cell that was not 0. -/
def Paints (i : Instr) (x y : Int) (a : Nat) (s : State) : Prop :=
  Gives i s { flags := [1], fb := true } fun t =>
    (∀ sx sy : Int, (s.blitArgs x y a).draws s.mem sx sy →
      t.fbCell sy.toNat sx.toNat = widen ((s.blitArgs x y a).pixelAt s.mem sx sy)) ∧
    (∀ k, (∀ sx sy : Int, (s.blitArgs x y a).draws s.mem sx sy → k ≠ fbIndex sy.toNat sx.toNat) →
      cellGet t.fb k = cellGet s.fb k) ∧
    (flagC t.flags = true ↔ ∃ sx sy : Int, (s.blitArgs x y a).draws s.mem sx sy ∧
      s.fbCell sy.toNat sx.toNat ≠ 0)

/-- The form names a dividend and a divisor: the nine forms of 44_muldiv.md R175 to R185 that divide. -/
def divOperands (i : Instr) (s : State) : Option (Word × Word) :=
  match i with
  | .divi rx imm | .modi rx imm | .remi rx imm => some (s.reg rx, imm)
  | .div rx ry | .mod rx ry | .rem rx ry => some (s.reg rx, s.reg ry)
  | .div2 rx ry _ | .mod2 rx ry _ | .rem2 rx ry _ => some (s.reg rx, s.reg ry)
  | _ => none

/-- The opcode bytes of the table: the complement of the ranges 30_encoding.md R79 lists. -/
def validOpcode (n : Nat) : Prop :=
  n ≤ 0x0E ∨ (0x10 ≤ n ∧ n ≤ 0x18) ∨ (0x20 ≤ n ∧ n ≤ 0x24) ∨ (0x30 ≤ n ∧ n ≤ 0x31) ∨
  (0x40 ≤ n ∧ n ≤ 0x42) ∨ (0x50 ≤ n ∧ n ≤ 0x54) ∨ (0x60 ≤ n ∧ n ≤ 0x64) ∨ (0x70 ≤ n ∧ n ≤ 0x72) ∨
  (0x80 ≤ n ∧ n ≤ 0x82) ∨ (0x90 ≤ n ∧ n ≤ 0x92) ∨ (0xA0 ≤ n ∧ n ≤ 0xA8) ∨ (0xB0 ≤ n ∧ n ≤ 0xB5) ∨
  (0xC0 ≤ n ∧ n ≤ 0xC5) ∨ (0xD0 ≤ n ∧ n ≤ 0xD1) ∨ (0xE0 ≤ n ∧ n ≤ 0xE5)

/-- The state of a core that is free to take a step: not stopped by a fault, not closed by the host. -/
def Live (s : State) : Prop := s.status = .running ∧ s.hostClosed = false

/-- The state the handler of the instruction at `pc` sees: a frame boundary that is due passed, `pc` advanced
by 4 and the vertical-blank flag written (30_encoding.md R70, 60_exceptions.md R272). -/
def handlerState (s : State) : State :=
  { s.passBoundary with pc := s.pc + 4, vblank := s.passBoundary.vblankNow }

/-- The steps left until the present frame ends; a full frame's boundary starts a whole new one. -/
def stepsLeft (s : State) : Nat := s.passBoundary.frameLength - s.passBoundary.framePos

/-- `n` steps from `s`, whose `pc` stands on a `VBLNK`, leave `pc` on it until the last of them moves it past,
no register, flag, stack pointer, palette entry, cell or byte below the controller words having changed. -/
def FallsThroughAt (s : State) (n : Nat) : Prop :=
  (∀ m, m < n → ∃ t, Host.Core.run Sys2Proof.core m s = .next t ∧ t.pc = s.pc) ∧
  ∃ t, Host.Core.run Sys2Proof.core n s = .next t ∧ t.pc = s.pc + 4 ∧ t.regs = s.regs ∧
    t.flags = s.flags ∧ t.sp = s.sp ∧ t.fb = s.fb ∧ t.pal = s.pal ∧
    ∀ a, a < 0xFFF0 → t.mem.readByte a = s.mem.readByte a

end Sys2Proof.Claims

open Sys2Proof Sys2Proof.Machine Sys2Proof.Claims

/-! ## Encoding -/

/-- Every instruction decodes back from its encoding, at every operand value (30_encoding.md R73 to R78;
the layouts are the spec's decisions D1, D2, log 16). -/
def Obligations.DecodeOfEncode : Prop := ∀ i : Instr, decode (encode i) = .ok i

/-- Four bytes stand for `i` exactly when their opcode is in the table and, with the bits their format
ignores set to 0, they are the encoding of `i`: one meaning per word, ignored bits free (R76, D3, log 11). -/
def Obligations.DecodeIsInverseUpToIgnoredBits : Prop :=
  ∀ (b : InstrBytes) (i : Instr),
    decode b = .ok i ↔ (formatOf b.b0).isSome = true ∧ b.clearIgnored = encode i

/-- Exactly the opcode bytes outside the ranges of the table are rejected, each by its own byte
(30_encoding.md R79; the list of ranges is the spec's inference). -/
def Obligations.DecodeRejectsExactlyInvalidOpcodes : Prop :=
  ∀ b : InstrBytes,
    (decode b = .error (.badOpcode b.b0) ↔ ¬ validOpcode b.b0.toNat) ∧
    ((∃ i, decode b = .ok i) ↔ validOpcode b.b0.toNat)

/-- Words written out from the spec's encodings stand for the instructions the spec says
(95_test_vectors.md; opcode bytes from the spec's decision D1, log 16). -/
def Obligations.WrittenWordsDecode : Prop :=
  decode ⟨0x10, 0x00, 0x10, 0x20⟩ = .ok (.jmp 0x2010) ∧
  decode ⟨0x40, 0x05, 0xFF, 0xFF⟩ = .ok (.addi 5 0xFFFF) ∧
  decode ⟨0x13, 0x21, 0x00, 0x20⟩ = .ok (.jme 1 2 0x2000) ∧
  decode ⟨0x42, 0x21, 0x03, 0x00⟩ = .ok (.add2 1 2 3) ∧
  decode ⟨0xB0, 0x00, 0xF1, 0x00⟩ = .ok (.shl 0 1) ∧
  decode ⟨0x12, 0xF1, 0x08, 0x00⟩ = .ok (.jx 1 0x0008) ∧
  decode ⟨0x08, 0x00, 0x00, 0x02⟩ = .ok (.flip true false) ∧
  decode ⟨0x03, 0x00, 0x1F, 0x00⟩ = .ok (.bgc 0xF) ∧
  decode ⟨0x05, 0x10, 0x00, 0x01⟩ = .ok (.drw 0 1 0x0100) ∧
  decode ⟨0x0F, 0x00, 0x00, 0x00⟩ = .error (.badOpcode 0x0F)

/-! ## Reset and the invariant -/

/-- The state after power-on (10_state.md R46; the values are the spec's decisions D4, D5, D24 and D35, log 1;
`pc` is 0 because the model's reset takes a raw image's entry point, a DESIGN CHOICE, log 2; `hostClosed`, the
schedule, the renders and the two counters are the model's own, logs 5, 9, 10 and 21, and are not stated). -/
def Obligations.ResetHoldsPowerOnValues : Prop :=
  (∀ r : Reg, State.reset.reg r = 0) ∧ State.reset.pc = 0 ∧ State.reset.sp = 0xFDF0 ∧
  State.reset.flags = 0 ∧ (∀ a, State.reset.mem.readByte a = 0) ∧
  (∀ k, cellGet State.reset.fb k = 0) ∧ State.reset.bg = 0 ∧ State.reset.spritew = 0 ∧
  State.reset.spriteh = 0 ∧ State.reset.hflip = false ∧ State.reset.vflip = false ∧
  State.reset.vblank = false ∧ State.reset.framePos = 0 ∧ State.reset.status = .running ∧
  State.reset.pal.toList =
    [0x000000, 0x000000, 0x888888, 0xBF3932, 0xDE7AAE, 0x4C3D21, 0x905F25, 0xE49452,
     0xEAD979, 0x537A3B, 0xABD54A, 0x252E38, 0x00467F, 0x68ABCC, 0xBCDEE4, 0xFFFFFF]

/-- The invariant holds after power-on. -/
def Obligations.InvariantHoldsAtReset : Prop := State.reset.Inv

/-- Every step keeps the invariant: canonical storage, cells 0..15, reserved flag bits 0, palette words of 24
bits, the frame position inside the frame or at its end, and at most one render per frame boundary (10_state.md
R27, R35, R36, 48_graphics.md R229, 60_exceptions.md R271 (b), logs 5, 10 and 19). -/
def Obligations.StepKeepsInvariant : Prop :=
  ∀ s t : State, s.Inv → step s = .next t → t.Inv

/-! ## The step -/

/-- When the bytes at `pc` decode to `i`, a step is `exec i` in the handler's state, a due frame boundary passed,
`pc` advanced by 4 and the vertical-blank flag written, and then advances the position in the frame; a fault of
`exec` is the step's (30_encoding.md R70, 60_exceptions.md R272, log 5). -/
def Obligations.StepRunsDecodedInstruction : Prop :=
  ∀ (s : State) (i : Instr), Live s → s.pc.toNat < 0xFDF0 → decode s.fetch = .ok i →
    (∀ t, exec i (handlerState s) = .next t → step s = .next { t with framePos := t.framePos + 1 }) ∧
    (∀ f, exec i (handlerState s) = .fault f → step s = .fault f)

/-- A step whose `pc` has reached the stack base faults before the fetch, whatever the bytes there; below it
an opcode byte outside the table faults at dispatch (30_encoding.md R70, 60_exceptions.md R263). -/
def Obligations.FetchAndDispatchFaults : Prop :=
  ∀ s : State, Live s →
    (0xFDF0 ≤ s.pc.toNat → step s = .fault (.pcRange s.pc)) ∧
    (s.pc.toNat < 0xFDF0 → ¬ validOpcode (s.mem.readByte s.pc.toNat).toNat →
      step s = .fault (.badOpcode (s.mem.readByte s.pc.toNat)))

/-- A fault is terminal: it writes the record of the faulting instruction into `status`, and from then on
every step stops with it and changes nothing (10_state.md R42, 60_exceptions.md R260, R261, D30, log 8). -/
def Obligations.FaultIsTerminal : Prop :=
  ∀ (s : State) (f : Fault), Live s → step s = .fault f →
    s.settle.status = .faulted
      { fault := f, pc0 := s.pc, bytes := if 0xFDF0 ≤ s.pc.toNat then none else some s.fetch } ∧
    step s.settle = .fault f ∧ s.settle.settle = s.settle

/-- After the host has closed the run no step, render or input write happens, be it inside a frame or between its
last step and its boundary, and the state stays that of the last completed step (60_exceptions.md R272, R283, log
9). -/
def Obligations.NoStepAfterHostClose : Prop :=
  ∀ s : State, step s.hostClose = .refused .hostClosed ∧ s.hostClose.settle = s.hostClose ∧
    s.hostClose.passBoundary = s.hostClose

/-- The scheduler around a step. A full frame's boundary comes before the step, and may as well be passed on its
own: the host renders or skips the render, both controller words become the boundary's masks, and a new frame
starts; inside a frame none of this happens. Nothing else is touched before the handler but `pc` and `vblank`, and
nothing after it but the position in the frame. By the reference scheduler a frame's last step sees `vblank` true
and no other does, and by any schedule some step of the frame does (60_exceptions.md R271, R272, R274, R275; D28,
D29, logs 5, 6 and 10). -/
def Obligations.FrameBoundaryWritesControllerWords : Prop :=
  ∀ s t : State, s.Inv → step s = .next t → step s.passBoundary = .next t ∧
    ∃ i u, decode s.fetch = .ok i ∧ exec i (handlerState s) = .next u ∧
      t = { u with framePos := u.framePos + 1 } ∧
      (s.framePos = s.frameLength →
        (handlerState s).mem.readByte 0xFFF0 = Config.freeMask1 s.frameNo ∧
        (handlerState s).mem.readByte 0xFFF1 = 0 ∧
        (handlerState s).mem.readByte 0xFFF2 = Config.freeMask2 s.frameNo ∧
        (handlerState s).mem.readByte 0xFFF3 = 0 ∧
        (handlerState s).framePos = 0 ∧ (handlerState s).frameNo = s.frameNo + 1 ∧
        (handlerState s).renders =
          if Config.freeRender s.frameNo then
            { frame := s.frameNo, fb := s.fb, pal := s.pal, bg := s.bg } :: s.renders
          else s.renders) ∧
      (s.framePos < s.frameLength → handlerState s = { s with pc := s.pc + 4, vblank := s.vblankNow }) ∧
      (∀ a, (a < 0xFFF0 ∨ 0xFFF3 < a) → (handlerState s).mem.readByte a = s.mem.readByte a) ∧
      (handlerState s).regs = s.regs ∧ (handlerState s).sp = s.sp ∧ (handlerState s).flags = s.flags ∧
      (handlerState s).bg = s.bg ∧ (handlerState s).spritew = s.spritew ∧
      (handlerState s).spriteh = s.spriteh ∧ (handlerState s).hflip = s.hflip ∧
      (handlerState s).vflip = s.vflip ∧ (handlerState s).pal = s.pal ∧ (handlerState s).fb = s.fb ∧
      (handlerState s).status = s.status ∧ (handlerState s).hostClosed = s.hostClosed ∧
      (handlerState s).schedule = s.schedule ∧ (handlerState s).draws = s.draws ∧
      (s.schedule = .reference →
        (handlerState s).vblank = decide ((handlerState s).framePos + 1 = Config.stepsPerFrame)) ∧
      ∃ k, k < s.frameLength ∧ { s with framePos := k }.vblankNow = true

/-- A spinning `VBLNK` falls through. By the reference scheduler it does so in the last step of the frame it spins
in, and in no step before, which is that scheduler's choice and not R273's (D28, log 5); by any schedule it does so
before the next frame ends, since every frame has a step with `vblank` true (60_exceptions.md R271 (a), R273,
48_graphics.md R224). -/
def Obligations.SpinningVblnkFallsThroughWithinFrame : Prop :=
  ∀ s : State, Live s → s.Inv → s.pc.toNat < 0xFDF0 → s.mem.readByte s.pc.toNat = 0x02 →
    (s.schedule = .reference → FallsThroughAt s (stepsLeft s)) ∧
    ∃ n, n ≤ stepsLeft s + { s with frameNo := s.passBoundary.frameNo + 1 }.frameLength ∧
      FallsThroughAt s n

/-! ## When an instruction runs, and the fault when it does not -/

/-- An instruction runs exactly inside the defined behaviour of 70_reset_and_hazards.md R299, and outside it
stops with a fault; no instruction is ever refused. -/
def Obligations.ExecRunsExactlyInsideDefinedBehaviour : Prop :=
  ∀ (i : Instr) (s : State),
    (instrRuns i s → ∃ t, exec i s = .next t) ∧ (¬ instrRuns i s → ∃ f, exec i s = .fault f)

/-- Condition index 0xF in `Jx` or `Cx` faults, whatever the flags and the stack (30_encoding.md R80). -/
def Obligations.ConditionFifteenFaults : Prop :=
  ∀ (s : State) (imm : Word),
    exec (.jx 15 imm) s = .fault (.badCond 15) ∧ exec (.cx 15 imm) s = .fault (.badCond 15)

/-- Every form that divides faults on a zero divisor, and else on -32768 by -1 (44_muldiv.md R174, R178,
R182; D12, D13, log 13). -/
def Obligations.DivisionFaults : Prop :=
  ∀ (s : State) (i : Instr) (a b : Word), divOperands i s = some (a, b) →
    (b = 0 → exec i s = .fault (.divZero a)) ∧
    (a = 0x8000 → b = 0xFFFF → exec i s = .fault (.divOverflow a b))

/-- Loads and stores whose second byte would lie above 0xFFFF, palette loads above 0xFFD0 and sprites that are
drawn and whose data passes 0xFFFF fault with their first address (20_memory.md R52, R53, 47_palette_unary.md
R210, 48_graphics.md R226; D7, D22, log 13). -/
def Obligations.AddressFaults : Prop :=
  ∀ (s : State) (rx ry rz : Reg) (imm : Word),
    (imm.toNat = 0xFFFF → exec (.ldm rx imm) s = .fault (.memRange 0xFFFF) ∧
      exec (.stm rx imm) s = .fault (.memRange 0xFFFF)) ∧
    ((s.reg ry).toNat = 0xFFFF → exec (.ldm2 rx ry) s = .fault (.memRange 0xFFFF) ∧
      exec (.stm2 rx ry) s = .fault (.memRange 0xFFFF)) ∧
    (0xFFD0 < imm.toNat → exec (.pal imm) s = .fault (.memRange imm.toNat)) ∧
    (0xFFD0 < (s.reg rx).toNat → exec (.pal2 rx) s = .fault (.memRange (s.reg rx).toNat)) ∧
    (¬ DrawsNothing s (s.reg rx).toInt (s.reg ry).toInt →
      0x10000 < imm.toNat + s.spritew.toNat * s.spriteh.toNat →
      exec (.drw rx ry imm) s = .fault (.memRange imm.toNat)) ∧
    (¬ DrawsNothing s (s.reg rx).toInt (s.reg ry).toInt →
      0x10000 < (s.reg rz).toNat + s.spritew.toNat * s.spriteh.toNat →
      exec (.drw2 rx ry rz) s = .fault (.memRange (s.reg rz).toNat))

/-- Pushes and pops that would leave memory fault with `sp` (46_stack.md R200, R201, R204, R205,
40_control_flow.md R104, R105, R107, R108; D6, log 13). -/
def Obligations.StackFaults : Prop :=
  ∀ (s : State) (rx : Reg) (cnd : CondIndex) (imm : Word),
    (0xFFFD < s.sp.toNat → exec (.push rx) s = .fault (.stackRange s.sp) ∧
      exec .pushf s = .fault (.stackRange s.sp) ∧ exec (.call imm) s = .fault (.stackRange s.sp) ∧
      exec (.call2 rx) s = .fault (.stackRange s.sp) ∧
      (condition cnd s.flags = some true → exec (.cx cnd imm) s = .fault (.stackRange s.sp))) ∧
    (s.sp.toNat < 2 → exec (.pop rx) s = .fault (.stackRange s.sp) ∧
      exec .popf s = .fault (.stackRange s.sp) ∧ exec .ret s = .fault (.stackRange s.sp)) ∧
    (0xFFDF < s.sp.toNat → exec .pushall s = .fault (.stackRange s.sp)) ∧
    (s.sp.toNat < 32 → exec .popall s = .fault (.stackRange s.sp))

/-- A register shift count of 16 or more faults with the count, and `RND` with limit 0 with the limit
(45_shift.md R190, R194 to R196, 48_graphics.md R225; D16, D23, log 13). -/
def Obligations.ShiftCountAndRandomLimitFaults : Prop :=
  ∀ (s : State) (rx ry : Reg),
    (16 ≤ (s.reg ry).toNat → exec (.shl2 rx ry) s = .fault (.shiftRange (s.reg ry)) ∧
      exec (.shr2 rx ry) s = .fault (.shiftRange (s.reg ry)) ∧
      exec (.sar2 rx ry) s = .fault (.shiftRange (s.reg ry))) ∧
    exec (.rnd rx 0) s = .fault (.rndRange 0)

/-! ## Addition, subtraction and compare -/

/-- `ADDI` and `ADD` put the wrapped sum into `rx` and write all four flags (42_arithmetic.md R130). -/
def Obligations.AddPutsSumAndFlags : Prop :=
  ∀ (s : State) (rx ry : Reg) (imm : Word),
    AddsTo (.addi rx imm) rx (s.reg rx) imm s ∧ AddsTo (.add rx ry) rx (s.reg rx) (s.reg ry) s

/-- `SUBI` and `SUB` put the wrapped difference into `rx` and write all four flags (42_arithmetic.md R131). -/
def Obligations.SubPutsDifferenceAndFlags : Prop :=
  ∀ (s : State) (rx ry : Reg) (imm : Word),
    SubsTo (.subi rx imm) rx (s.reg rx) imm s ∧ SubsTo (.sub rx ry) rx (s.reg rx) (s.reg ry) s

/-- `CMPI` and `CMP` write the flags of the subtraction and no register (42_arithmetic.md R138, R139). -/
def Obligations.CompareWritesFlagsOnly : Prop :=
  ∀ (s : State) (rx ry : Reg) (imm : Word),
    Compares (.cmpi rx imm) (s.reg rx) imm s ∧ Compares (.cmp rx ry) (s.reg rx) (s.reg ry) s

/-- `O` after an addition or subtraction is 1 exactly when the exact signed result leaves
[-32768, 32767] (42_arithmetic.md, the inferences of R130 and R131; 90_conflicts.md C3). -/
def Obligations.OverflowIffSignedResultOutOfRange : Prop :=
  ∀ (s : State) (rx ry : Reg), ∃ t u v : State,
    exec (.add rx ry) s = .next t ∧ exec (.sub rx ry) s = .next u ∧ exec (.cmp rx ry) s = .next v ∧
    (flagO t.flags = true ↔ ¬ (-32768 ≤ (s.reg rx).toInt + (s.reg ry).toInt ∧
      (s.reg rx).toInt + (s.reg ry).toInt ≤ 32767)) ∧
    (flagO u.flags = true ↔ ¬ (-32768 ≤ (s.reg rx).toInt - (s.reg ry).toInt ∧
      (s.reg rx).toInt - (s.reg ry).toInt ≤ 32767)) ∧
    flagO v.flags = flagO u.flags

/-- After `CMP rx, ry` the conditions order the operands as their meanings say: B, AE, A, BE unsigned, L, GE,
G, LE signed, Z equal (42_arithmetic.md R139's inference, 10_state.md R30). -/
def Obligations.ConditionsAfterCompareOrderOperands : Prop :=
  ∀ (s : State) (rx ry : Reg), ∃ t, exec (.cmp rx ry) s = .next t ∧
    condition 0x0 t.flags = some (decide (s.reg rx = s.reg ry)) ∧
    condition 0x9 t.flags = some (decide ((s.reg rx).toNat < (s.reg ry).toNat)) ∧
    condition 0x8 t.flags = some (decide ((s.reg ry).toNat ≤ (s.reg rx).toNat)) ∧
    condition 0x7 t.flags = some (decide ((s.reg ry).toNat < (s.reg rx).toNat)) ∧
    condition 0xA t.flags = some (decide ((s.reg rx).toNat ≤ (s.reg ry).toNat)) ∧
    condition 0xD t.flags = some (decide ((s.reg rx).toInt < (s.reg ry).toInt)) ∧
    condition 0xC t.flags = some (decide ((s.reg ry).toInt ≤ (s.reg rx).toInt)) ∧
    condition 0xB t.flags = some (decide ((s.reg ry).toInt < (s.reg rx).toInt)) ∧
    condition 0xE t.flags = some (decide ((s.reg rx).toInt ≤ (s.reg ry).toInt))

/-! ## The other data-processing families -/

/-- The three-register forms put `x[rx] op x[ry]` into `rz`, operands read before the write (D11, log 18). -/
def Obligations.ThreeRegisterFormsWriteRz : Prop :=
  ∀ (s : State) (rx ry rz : Reg),
    AddsTo (.add2 rx ry rz) rz (s.reg rx) (s.reg ry) s ∧
    SubsTo (.sub2 rx ry rz) rz (s.reg rx) (s.reg ry) s ∧
    PutsZN (.and2 rx ry rz) rz (s.reg rx &&& s.reg ry) s ∧
    PutsZN (.or2 rx ry rz) rz (s.reg rx ||| s.reg ry) s ∧
    PutsZN (.xor2 rx ry rz) rz (s.reg rx ^^^ s.reg ry) s ∧
    MulsTo (.mul2 rx ry rz) rz (s.reg rx) (s.reg ry) s

/-- AND, OR and XOR put the bitwise result into `rx`, the TST forms write no register; `Z` and `N` are the
result's, `C` and `O` are kept (43_bitwise.md R161, D9, log 14). -/
def Obligations.BitwisePutsResultAndZN : Prop :=
  ∀ (s : State) (rx ry : Reg) (imm : Word),
    PutsZN (.andi rx imm) rx (s.reg rx &&& imm) s ∧
    PutsZN (.and rx ry) rx (s.reg rx &&& s.reg ry) s ∧
    PutsZN (.ori rx imm) rx (s.reg rx ||| imm) s ∧ PutsZN (.or rx ry) rx (s.reg rx ||| s.reg ry) s ∧
    PutsZN (.xori rx imm) rx (s.reg rx ^^^ imm) s ∧
    PutsZN (.xor rx ry) rx (s.reg rx ^^^ s.reg ry) s ∧
    TestsZN (.tsti rx imm) (s.reg rx &&& imm) s ∧ TestsZN (.tst rx ry) (s.reg rx &&& s.reg ry) s

/-- NOT forms put the complement and NEG forms the two's-complement negation into `rx`, of the immediate, of
`rx` or of `ry`; -32768 negates to itself (47_palette_unary.md R212 to R218, D15, D9, logs 14 and 18). -/
def Obligations.ComplementAndNegation : Prop :=
  ∀ (s : State) (rx ry : Reg) (imm : Word),
    PutsZN (.noti rx imm) rx (~~~imm) s ∧ PutsZN (.not rx) rx (~~~(s.reg rx)) s ∧
    PutsZN (.not2 rx ry) rx (~~~(s.reg ry)) s ∧ PutsZN (.negi rx imm) rx (0 - imm) s ∧
    PutsZN (.neg rx) rx (0 - s.reg rx) s ∧ PutsZN (.neg2 rx ry) rx (0 - s.reg ry) s

/-- `MULI` and `MUL` put the wrapped product of the unsigned readings into `rx`; `C` when it does not fit, `O`
kept (44_muldiv.md R170, D38, D9, log 18). -/
def Obligations.MulPutsProductAndFlags : Prop :=
  ∀ (s : State) (rx ry : Reg) (imm : Word),
    MulsTo (.muli rx imm) rx (s.reg rx) imm s ∧ MulsTo (.mul rx ry) rx (s.reg rx) (s.reg ry) s

/-- The DIV forms put the quotient truncated toward zero into their destination, `C` when it is inexact
(44_muldiv.md R174 to R177, D12, D11, log 18). -/
def Obligations.DivPutsTruncatedQuotient : Prop :=
  ∀ (s : State) (rx ry rz : Reg) (imm : Word),
    (divisible (s.reg rx) imm → DivsTo (.divi rx imm) rx (s.reg rx) imm s) ∧
    (divisible (s.reg rx) (s.reg ry) → DivsTo (.div rx ry) rx (s.reg rx) (s.reg ry) s ∧
      DivsTo (.div2 rx ry rz) rz (s.reg rx) (s.reg ry) s)

/-- The MOD forms put `((a % b) + b) % b`, exactly evaluated, and the REM forms `a % b` into their destination,
`%` truncating (44_muldiv.md R178 to R185, D12, D14, D11, log 18). -/
def Obligations.ModAndRemPutRemainders : Prop :=
  ∀ (s : State) (rx ry rz : Reg) (imm : Word),
    (divisible (s.reg rx) imm →
      PutsInt (.modi rx imm) rx
        (Int.tmod (Int.tmod (s.reg rx).toInt imm.toInt + imm.toInt) imm.toInt) s ∧
      PutsInt (.remi rx imm) rx (Int.tmod (s.reg rx).toInt imm.toInt) s) ∧
    (divisible (s.reg rx) (s.reg ry) →
      PutsInt (.mod rx ry) rx
        (Int.tmod (Int.tmod (s.reg rx).toInt (s.reg ry).toInt + (s.reg ry).toInt) (s.reg ry).toInt) s ∧
      PutsInt (.mod2 rx ry rz) rz
        (Int.tmod (Int.tmod (s.reg rx).toInt (s.reg ry).toInt + (s.reg ry).toInt) (s.reg ry).toInt) s ∧
      PutsInt (.rem rx ry) rx (Int.tmod (s.reg rx).toInt (s.reg ry).toInt) s ∧
      PutsInt (.rem2 rx ry rz) rz (Int.tmod (s.reg rx).toInt (s.reg ry).toInt) s)

/-- The laws that tie the three divisions: `a = q*b + r`, `|r| < |b|`, `MOD` is `r` or `r + b`, in `[0, b)` for a
positive divisor and in `(b, 0]` for a negative one (44_muldiv.md, the inference R186; 90_conflicts.md C4). -/
def Obligations.DivisionLaws : Prop :=
  ∀ (s : State) (rx ry rz : Reg), divisible (s.reg rx) (s.reg ry) → ∃ q m r : State,
    exec (.div2 rx ry rz) s = .next q ∧ exec (.mod2 rx ry rz) s = .next m ∧
    exec (.rem2 rx ry rz) s = .next r ∧
    (s.reg rx).toInt = (q.reg rz).toInt * (s.reg ry).toInt + (r.reg rz).toInt ∧
    (r.reg rz).toInt.natAbs < (s.reg ry).toInt.natAbs ∧
    ((m.reg rz).toInt = (r.reg rz).toInt ∨
      (m.reg rz).toInt = (r.reg rz).toInt + (s.reg ry).toInt) ∧
    (0 < (s.reg ry).toInt → 0 ≤ (m.reg rz).toInt ∧ (m.reg rz).toInt < (s.reg ry).toInt) ∧
    ((s.reg ry).toInt < 0 → (s.reg ry).toInt < (m.reg rz).toInt ∧ (m.reg rz).toInt ≤ 0)

/-- The shifts by an immediate 0..15 or by a register of at most 15: `SHL` and `SHR` on the pattern, `SAR` on the
signed value, rounding down; `Z` and `N` only (45_shift.md R190 to R196, D16, D9, logs 13 and 14). -/
def Obligations.ShiftsPutShiftedValue : Prop :=
  ∀ (s : State) (rx ry : Reg) (n : ShiftCount),
    PutsZN (.shl rx n) rx (BitVec.ofNat 16 ((s.reg rx).toNat * 2 ^ n.val)) s ∧
    PutsZN (.shr rx n) rx (BitVec.ofNat 16 ((s.reg rx).toNat / 2 ^ n.val)) s ∧
    PutsInt (.sar rx n) rx ((s.reg rx).toInt / 2 ^ n.val) s ∧
    ((s.reg ry).toNat < 16 →
      PutsZN (.shl2 rx ry) rx (BitVec.ofNat 16 ((s.reg rx).toNat * 2 ^ (s.reg ry).toNat)) s ∧
      PutsZN (.shr2 rx ry) rx (BitVec.ofNat 16 ((s.reg rx).toNat / 2 ^ (s.reg ry).toNat)) s ∧
      PutsInt (.sar2 rx ry) rx ((s.reg rx).toInt / 2 ^ (s.reg ry).toNat) s)

/-! ## Loads, stores and moves -/

/-- `LDI`, `LDI SP` and `MOV` (41_load_store.md R120, R121, R124). -/
def Obligations.LoadImmediateAndMove : Prop :=
  ∀ (s : State) (rx ry : Reg) (imm : Word),
    Gives (.ldi rx imm) s { regs := [rx] } (fun t => t.reg rx = imm) ∧
    Gives (.ldi2 imm) s { sp := true } (fun t => t.sp = imm) ∧
    Gives (.mov rx ry) s { regs := [rx] } (fun t => t.reg rx = s.reg ry)

/-- `LDM` absolute and register-indirect load the little-endian word at any address below 0xFFFF, odd ones too
(41_load_store.md R122, R123, 20_memory.md R51, D7, D8, log 13). -/
def Obligations.LoadsReadLittleEndianWord : Prop :=
  ∀ (s : State) (rx ry : Reg) (imm : Word),
    (imm.toNat < 0xFFFF →
      Gives (.ldm rx imm) s { regs := [rx] } (fun t => WordAt s imm.toNat (t.reg rx))) ∧
    ((s.reg ry).toNat < 0xFFFF →
      Gives (.ldm2 rx ry) s { regs := [rx] } (fun t => WordAt s (s.reg ry).toNat (t.reg rx)))

/-- `STM` absolute and register-indirect store `x[rx]`, low byte first, and no other byte (41_load_store.md R125,
R126, 20_memory.md R53, D7, D8, logs 13 and 18). -/
def Obligations.StoresWriteLittleEndianWord : Prop :=
  ∀ (s : State) (rx ry : Reg) (imm : Word),
    (imm.toNat < 0xFFFF → Stores (.stm rx imm) imm.toNat (s.reg rx) s) ∧
    ((s.reg ry).toNat < 0xFFFF → Stores (.stm2 rx ry) (s.reg ry).toNat (s.reg rx) s)

/-- A word stored is the word loaded from the same address, and the bytes fetched there as an instruction, with
nothing between (20_memory.md R62, R65, 70_reset_and_hazards.md R296). -/
def Obligations.StoreIsSeenByLoadAndFetch : Prop :=
  ∀ (s : State) (rx ry : Reg) (imm : Word), imm.toNat < 0xFFFF →
    ∃ t u, exec (.stm rx imm) s = .next t ∧ exec (.ldm ry imm) t = .next u ∧ u.reg ry = s.reg rx ∧
      (t.setPc imm).fetch.b0 = (s.reg rx).extractLsb' 0 8 ∧
      (t.setPc imm).fetch.b1 = (s.reg rx).extractLsb' 8 8

/-! ## Control flow -/

/-- `JMP`, `JMC` and `JME` (40_control_flow.md R100, R101, R103). -/
def Obligations.JumpsSetPc : Prop :=
  ∀ (s : State) (rx ry : Reg) (imm : Word),
    Gives (.jmp imm) s { pc := true } (fun t => t.pc = imm) ∧
    Gives (.jmc imm) s { pc := true } (fun t => t.pc = if flagC s.flags then imm else s.pc) ∧
    Gives (.jme rx ry imm) s { pc := true }
      (fun t => t.pc = if s.reg rx = s.reg ry then imm else s.pc)

/-- The condition predicate is the table of 10_state.md R30. -/
def Obligations.ConditionTable : Prop :=
  ∀ f : Byte,
    condition 0x0 f = some (flagZ f) ∧ condition 0x1 f = some (!flagZ f) ∧ condition 0x2 f = some (flagN f) ∧
    condition 0x3 f = some (!flagN f) ∧ condition 0x4 f = some (!flagN f && !flagZ f) ∧
    condition 0x5 f = some (flagO f) ∧ condition 0x6 f = some (!flagO f) ∧
    condition 0x7 f = some (!flagC f && !flagZ f) ∧ condition 0x8 f = some (!flagC f) ∧
    condition 0x9 f = some (flagC f) ∧ condition 0xA f = some (flagC f || flagZ f) ∧
    condition 0xB f = some (decide (flagO f = flagN f) && !flagZ f) ∧
    condition 0xC f = some (decide (flagO f = flagN f)) ∧
    condition 0xD f = some (decide (flagO f ≠ flagN f)) ∧
    condition 0xE f = some (decide (flagO f ≠ flagN f) || flagZ f) ∧ condition 0xF f = none ∧
    flagC f = f.getLsbD 1 ∧ flagZ f = f.getLsbD 2 ∧ flagO f = f.getLsbD 6 ∧ flagN f = f.getLsbD 7

/-- `Jx` jumps exactly when its condition holds, and index 0xF faults whatever the flags (40_control_flow.md
R102). -/
def Obligations.ConditionalJumpFollowsCondition : Prop :=
  ∀ (s : State) (cnd : CondIndex) (imm : Word),
    (cnd.val < 15 → Gives (.jx cnd imm) s { pc := true }
      (fun t => t.pc = if condition cnd s.flags = some true then imm else s.pc)) ∧
    (cnd.val = 15 → exec (.jx cnd imm) s = .fault (.badCond cnd))

/-- `CALL` pushes the address of the instruction after it and jumps (40_control_flow.md R104; when it does not fit is
the spec's decision D6, log 13). -/
def Obligations.CallPushesReturnAddress : Prop :=
  ∀ (s : State) (imm : Word),
    (s.sp.toNat ≤ 0xFFFD → Calls (.call imm) imm s) ∧
    (0xFFFD < s.sp.toNat → exec (.call imm) s = .fault (.stackRange s.sp))

/-- `JMP RX` and `CALL RX` take the register's pattern as the address, and a taken `Cx` calls; a `Cx` not taken
changes nothing (40_control_flow.md R106 to R108, D8, D26, logs 16 and 18). -/
def Obligations.IndirectJumpsAndConditionalCalls : Prop :=
  ∀ (s : State) (rx : Reg) (cnd : CondIndex) (imm : Word),
    Gives (.jmp2 rx) s { pc := true } (fun t => t.pc = s.reg rx) ∧
    (s.sp.toNat ≤ 0xFFFD → Calls (.call2 rx) (s.reg rx) s ∧
      (condition cnd s.flags = some true → Calls (.cx cnd imm) imm s)) ∧
    (condition cnd s.flags = some false → exec (.cx cnd imm) s = .next s)

/-- `RET` pops `pc` (40_control_flow.md R105; when there is no word below `sp` is the spec's decision D6, log 13). -/
def Obligations.RetPopsPc : Prop :=
  ∀ s : State,
    (2 ≤ s.sp.toNat → Gives .ret s { pc := true, sp := true } fun t =>
      WordAt s (s.sp.toNat - 2) t.pc ∧ t.sp.toNat = s.sp.toNat - 2) ∧
    (s.sp.toNat < 2 → exec .ret s = .fault (.stackRange s.sp))

/-! ## The stack -/

/-- `PUSH` and `PUSHF` store a word at `sp` and move `sp` up; `POP` takes the word below `sp` (46_stack.md R202,
R203, R206, D6, log 13). -/
def Obligations.PushAndPopMoveOneWord : Prop :=
  ∀ (s : State) (rx : Reg),
    (s.sp.toNat ≤ 0xFFFD → Pushes (.push rx) (s.reg rx) s ∧ Pushes .pushf (s.flags.setWidth 16) s) ∧
    (2 ≤ s.sp.toNat → Gives (.pop rx) s { regs := [rx], sp := true } fun t =>
      WordAt s (s.sp.toNat - 2) (t.reg rx) ∧ t.sp.toNat = s.sp.toNat - 2)

/-- `POPF` keeps bits 1, 2, 6 and 7 of the popped word and clears the rest of `FLAGS` (46_stack.md R207, D18, log
18). -/
def Obligations.PopfKeepsFlagBits : Prop :=
  ∀ s : State, 2 ≤ s.sp.toNat →
    Gives .popf s { flags := [0, 1, 2, 3, 4, 5, 6, 7], sp := true } fun t =>
      t.sp.toNat = s.sp.toNat - 2 ∧
      ∀ k, t.flags.getLsbD k =
        (decide (k = 1 ∨ k = 2 ∨ k = 6 ∨ k = 7) && (s.mem.readByte (s.sp.toNat - 2)).getLsbD k)

/-- `PUSHALL` stores `x[i]` at `sp + 2i` for all sixteen registers and moves `sp` up by 32; `POPALL` is the inverse
order (46_stack.md R204, R205, D17, log 18). -/
def Obligations.PushallAndPopallMoveSixteenWords : Prop :=
  ∀ s : State,
    (s.sp.toNat ≤ 0xFFDF →
      Gives .pushall s { sp := true, memAt := s.sp.toNat, memLen := 32 } fun t =>
        t.sp.toNat = s.sp.toNat + 32 ∧ ∀ i : Reg, WordAt t (s.sp.toNat + 2 * i) (s.reg i)) ∧
    (32 ≤ s.sp.toNat →
      Gives .popall s { regs := List.finRange 16, sp := true } fun t =>
        t.sp.toNat = s.sp.toNat - 32 ∧ ∀ i : Reg, WordAt s (s.sp.toNat - 32 + 2 * i) (t.reg i))

/-- `PUSHALL` then `POPALL` restores every register and `sp`, whatever the registers hold between them
(46_stack.md R205). -/
def Obligations.PopallUndoesPushall : Prop :=
  ∀ (s : State) (rs : Vector Word 16), s.sp.toNat ≤ 0xFFDF →
    ∃ t u, exec .pushall s = .next t ∧ exec .popall { t with regs := rs } = .next u ∧
      u.regs = s.regs ∧ u.sp = s.sp ∧ u.flags = s.flags ∧ u.mem = t.mem

/-- `PUSH` then `POP` moves a word between registers, `PUSHF` then `POPF` leaves `FLAGS` as it was, and `CALL` then
`RET` comes back to the instruction after the call; `sp` is unchanged by each pair (46_stack.md R203, R207,
40_control_flow.md R110). -/
def Obligations.PushPopRoundTrips : Prop :=
  ∀ (s : State) (rx ry : Reg) (imm : Word), s.sp.toNat ≤ 0xFFFD →
    (∃ t u, exec (.push rx) s = .next t ∧ exec (.pop ry) t = .next u ∧ u.reg ry = s.reg rx ∧
      u.sp = s.sp) ∧
    (s.flags &&& ~~~flagMask = 0 → ∃ t u, exec .pushf s = .next t ∧ exec .popf t = .next u ∧
      u.flags = s.flags ∧ u.sp = s.sp) ∧
    (∃ t u, exec (.call imm) s = .next t ∧ exec .ret t = .next u ∧ u.pc = s.pc ∧ u.sp = s.sp)

/-! ## Palette, graphics, vertical blank, random numbers, sound -/

/-- `PAL` and `PAL2` load the sixteen entries from 48 bytes, R, G, B in that order, at an address of at most
0xFFD0 (47_palette_unary.md R210, R211, D22, D8, log 13). -/
def Obligations.PaletteLoadsBigEndianTriples : Prop :=
  ∀ (s : State) (rx : Reg) (imm : Word),
    (imm.toNat ≤ 0xFFD0 → LoadsPalette (.pal imm) imm.toNat s) ∧
    ((s.reg rx).toNat ≤ 0xFFD0 → LoadsPalette (.pal2 rx) (s.reg rx).toNat s)

/-- `CLS` clears `bg` and every framebuffer cell and nothing else; `BGC`, `SPR` and `FLIP` set their own part of the
draw state (48_graphics.md R220 to R223, D19 to D21, log 18). -/
def Obligations.DrawStateSetters : Prop :=
  ∀ (s : State) (n : Colour) (w h : Byte) (fh fv : Bool),
    Gives .cls s { bg := true, fb := true } (fun t => t.bg = 0 ∧ ∀ k, cellGet t.fb k = 0) ∧
    Gives (.bgc n) s { bg := true } (fun t => t.bg = n) ∧
    Gives (.spr w h) s { size := true } (fun t => t.spritew = w ∧ t.spriteh = h) ∧
    Gives (.flip fh fv) s { flips := true } (fun t => t.hflip = fh ∧ t.vflip = fv)

/-- `VBLNK` rewinds `pc` by 4 unless the vertical-blank flag is set (48_graphics.md R224). -/
def Obligations.VblnkSpinsUnlessVblank : Prop :=
  ∀ s : State, Gives .vblnk s { pc := true } fun t => t.pc = if s.vblank then s.pc else s.pc - 4

/-- `RND` puts a value below its limit into `rx`, whatever the free value drawn is, and takes one draw
(48_graphics.md R225, 10_state.md R45, D23, log 7). -/
def Obligations.RndDrawsBelowLimit : Prop :=
  ∀ (s : State) (rx : Reg) (max : Word), max.toNat ≠ 0 →
    Gives (.rnd rx max) s { regs := [rx], draws := true } fun t =>
      (t.reg rx).toNat < max.toNat ∧ t.draws = s.draws + 1

/-- `DRW` and `DRW2` with an empty or culled sprite clear `C` and do nothing else, wherever the data lies
(48_graphics.md R226 to R228, log 18). -/
def Obligations.CulledSpriteOnlyClearsCarry : Prop :=
  ∀ (s : State) (rx ry rz : Reg) (imm : Word),
    DrawsNothing s (s.reg rx).toInt (s.reg ry).toInt →
      Gives (.drw rx ry imm) s { flags := [1] } (fun t => flagC t.flags = false) ∧
      Gives (.drw2 rx ry rz) s { flags := [1] } (fun t => flagC t.flags = false)

/-- `DRW` and `DRW2` paint the picture of the sprite over the framebuffer and report the collision in `C`: the
blit's loops against the picture they leave, with transparency, flips and per-pixel clipping (48_graphics.md
R226 to R228, D22, D19, D8, log 18). -/
def Obligations.DrawPaintsSpritePicture : Prop :=
  ∀ (s : State) (rx ry rz : Reg) (imm : Word),
    ¬ DrawsNothing s (s.reg rx).toInt (s.reg ry).toInt →
      (imm.toNat + s.spritew.toNat * s.spriteh.toNat ≤ 0x10000 →
        Paints (.drw rx ry imm) (s.reg rx).toInt (s.reg ry).toInt imm.toNat s) ∧
      ((s.reg rz).toNat + s.spritew.toNat * s.spriteh.toNat ≤ 0x10000 →
        Paints (.drw2 rx ry rz) (s.reg rx).toInt (s.reg ry).toInt (s.reg rz).toNat s)

/-- A sprite with a pixel that is drawn on the screen, drawn twice at one place over an empty framebuffer, does not
collide the first time and collides with itself the second (48_graphics.md, the inference R229). -/
def Obligations.SecondDrawCollidesWithFirst : Prop :=
  ∀ (s : State) (rx ry : Reg) (imm : Word),
    (∀ k, cellGet s.fb k = 0) → ¬ DrawsNothing s (s.reg rx).toInt (s.reg ry).toInt →
    imm.toNat + s.spritew.toNat * s.spriteh.toNat ≤ 0x10000 →
    (∃ sx sy : Int, (s.blitArgs (s.reg rx).toInt (s.reg ry).toInt imm.toNat).draws s.mem sx sy) →
    ∃ t u, exec (.drw rx ry imm) s = .next t ∧ flagC t.flags = false ∧
      exec (.drw rx ry imm) t = .next u ∧ flagC u.flags = true

/-- `NOP` and the sound instructions change nothing, whatever their operands (49_sound_nop.md R250 to R257, D25,
D27, logs 15 and 16). -/
def Obligations.NopAndSoundChangeNothing : Prop :=
  ∀ (s : State) (rx : Reg) (imm : Word) (a b c : Byte),
    exec .nop s = .next s ∧ exec .snd0 s = .next s ∧ exec (.snd1 imm) s = .next s ∧
    exec (.snd2 imm) s = .next s ∧ exec (.snd3 imm) s = .next s ∧ exec (.snp rx imm) s = .next s ∧
    exec (.sng a b c) s = .next s

/-! ## Rules about the whole machine -/

/-- Which instructions write which part of the graphics state, the stack pointer and memory: the "written only
by" clauses of 10_state.md R25, R32 to R36 and the table of 20_memory.md R57; and none writes the vertical-blank
flag, the status, the scheduler's state, a render or the close signal (R39, R42, 60_exceptions.md R271, R274). -/
def Obligations.OnlyNamedInstructionsWriteState : Prop :=
  ∀ (i : Instr) (s t : State), exec i s = .next t →
    (t.bg ≠ s.bg → i = .cls ∨ ∃ n, i = .bgc n) ∧
    (t.spritew ≠ s.spritew ∨ t.spriteh ≠ s.spriteh → ∃ w h, i = .spr w h) ∧
    (t.hflip ≠ s.hflip ∨ t.vflip ≠ s.vflip → ∃ h v, i = .flip h v) ∧
    (t.pal ≠ s.pal → (∃ imm, i = .pal imm) ∨ ∃ rx, i = .pal2 rx) ∧
    (t.fb ≠ s.fb → i = .cls ∨ (∃ rx ry imm, i = .drw rx ry imm) ∨ ∃ rx ry rz, i = .drw2 rx ry rz) ∧
    (t.sp ≠ s.sp → movesSp i = true) ∧ (t.mem ≠ s.mem → storesToMemory i = true) ∧
    t.vblank = s.vblank ∧ t.status = s.status ∧ t.framePos = s.framePos ∧ t.frameNo = s.frameNo ∧
    t.schedule = s.schedule ∧ t.renders = s.renders ∧ t.hostClosed = s.hostClosed

/-- Which instructions write which flags: the table the spec infers in 10_state.md R31. `POPF` also clears the bits
that carry no flag. -/
def Obligations.OnlyNamedInstructionsWriteFlags : Prop :=
  ∀ (i : Instr) (s t : State), exec i s = .next t →
    ∀ k, (k = 1 ∨ k = 2 ∨ k = 6 ∨ k = 7) → k ∉ flagBits i →
      t.flags.getLsbD k = s.flags.getLsbD k

/-! ## The host's interface -/

/-- The load of a raw image fills memory from 0, leaves the rest 0 and enters at 0; an image larger than memory is
refused (70_reset_and_hazards.md R291, D35, logs 2 and 17). -/
def Obligations.RawLoadFillsMemory : Prop :=
  ∀ file : List Byte,
    (65536 < file.length → State.reset.loadRaw file = .error .imageTooLarge) ∧
    (file.length ≤ 65536 → ∃ t, State.reset.loadRaw file = .ok t ∧ t.pc = 0 ∧ t.sp = 0xFDF0 ∧
      (∀ (k : Nat) (h : k < file.length), t.mem.readByte k = file[k]) ∧
      ∀ k, file.length ≤ k → t.mem.readByte k = 0)

/-- A file that does not begin with the magic "CH16" is loaded raw; one that does is refused when it is shorter than
its header, when its size field is not its length less 16, or when its code is larger than memory, and else loaded
from offset 16 with its own entry point (70_reset_and_hazards.md R291, R292, D34, D35, log 17). -/
def Obligations.C16LoadChecksSizeField : Prop :=
  (∀ file : List Byte, file.take 4 ≠ [0x43, 0x48, 0x31, 0x36] →
    State.reset.loadC16 file = State.reset.loadRaw file) ∧
  (∀ rest : List Byte, rest.length < 12 →
    State.reset.loadC16 ([0x43, 0x48, 0x31, 0x36] ++ rest) = .error .headerShort) ∧
  ∀ (size check : BitVec 32) (entry : Word) (v r : Byte) (code : List Byte),
    let header : List Byte := [0x43, 0x48, 0x31, 0x36, v, r,
      size.extractLsb' 0 8, size.extractLsb' 8 8, size.extractLsb' 16 8, size.extractLsb' 24 8,
      check.extractLsb' 0 8, check.extractLsb' 8 8, check.extractLsb' 16 8, check.extractLsb' 24 8,
      entry.extractLsb' 0 8, entry.extractLsb' 8 8]
    (size.toNat ≠ code.length → State.reset.loadC16 (header ++ code) = .error .sizeMismatch) ∧
    (size.toNat = code.length → 65536 < code.length →
      State.reset.loadC16 (header ++ code) = .error .imageTooLarge) ∧
    (size.toNat = code.length → code.length ≤ 65536 →
      ∃ t, State.reset.loadC16 (header ++ code) = .ok t ∧ t.pc = entry ∧ t.sp = 0xFDF0 ∧
        (∀ (k : Nat) (h : k < code.length), t.mem.readByte k = code[k]) ∧
        ∀ k, code.length ≤ k → t.mem.readByte k = 0)

/-- What a render hands to the render sink, where a cell stands in its array, and the colour shown there (60_exceptions.md
R276, 10_state.md R36, R37, D37, log 10). -/
def Obligations.RenderShowsPaletteColours : Prop :=
  ∀ (s : State) (sy sx : Nat), sy < 240 → sx < 320 →
    s.renderCall.args = (s.framebuffer, s.pal, s.bg.setWidth 8) ∧
    s.framebuffer.length = 76800 ∧ s.framebuffer[sy * 320 + sx]? = some (s.fbCell sy sx) ∧
    ∀ (c b : Fin 16), (s.fbCell sy sx).toNat = c.val → s.bg.toNat = b.val →
      s.colour sy sx = if c = 0 then s.pal[b] else s.pal[c]
end

