-- ==== Sys2Proof/Laws/Bits.lean ====
section
/-! SUPPORT. Bytes, nibbles and bits: taking apart what was put together. -/

namespace Sys2Proof

@[simp] theorem lowByte_joinBytes (lo hi : Byte) : lowByte (joinBytes lo hi) = lo := by
  apply BitVec.eq_of_getLsbD_eq
  intro i h
  simp only [lowByte, joinBytes, BitVec.getLsbD_extractLsb', BitVec.getLsbD_append]
  simp [h]

@[simp] theorem highByte_joinBytes (lo hi : Byte) : highByte (joinBytes lo hi) = hi := by
  apply BitVec.eq_of_getLsbD_eq
  intro i h
  simp only [highByte, joinBytes, BitVec.getLsbD_extractLsb', BitVec.getLsbD_append]
  simp [h]

@[simp] theorem joinBytes_low_high (w : Word) : joinBytes (lowByte w) (highByte w) = w := by
  apply BitVec.eq_of_getLsbD_eq
  intro i h
  simp only [joinBytes, lowByte, highByte, BitVec.getLsbD_append, BitVec.getLsbD_extractLsb']
  split
  · simp_all
  · have : 8 + (i - 8) = i := by omega
    simp [this]; omega

@[simp] theorem lowNibble_joinNibbles (lo hi : BitVec 4) : lowNibble (joinNibbles lo hi) = lo := by
  revert lo hi; decide

@[simp] theorem highNibble_joinNibbles (lo hi : BitVec 4) : highNibble (joinNibbles lo hi) = hi := by
  revert lo hi; decide

@[simp] theorem joinNibbles_low_high (b : Byte) : joinNibbles (lowNibble b) (highNibble b) = b := by
  revert b; decide

theorem joinNibbles_low_zero (b : Byte) : joinNibbles (lowNibble b) 0 = b &&& 0x0F := by
  revert b; decide

theorem lowNibble_and (b : Byte) : lowNibble (b &&& 0x0F) = lowNibble b := by revert b; decide

theorem widen_toNat (p : BitVec 4) : (widen p).toNat = p.toNat := by revert p; decide

theorem widen_eq_zero (p : BitVec 4) : widen p = 0 ↔ p = 0 := by revert p; decide

@[simp] theorem lowNibble_widen (p : BitVec 4) : lowNibble (widen p) = p := by revert p; decide

/-- A bit put is the one read back; every other bit keeps its value (10_state.md R28). -/
theorem getLsbD_putBit (f : Byte) (i j : Nat) (hi : i < 8) (v : Bool) :
    (putBit f i v).getLsbD j = if j = i then v else f.getLsbD j := by
  by_cases hj : j < 8
  · cases v <;> simp [putBit, hj] <;> by_cases h : j = i
      <;> simp_all <;> omega
  · have hne : ¬ j = i := by omega
    have h1 : (putBit f i v).getLsbD j = false := BitVec.getLsbD_of_ge _ _ (by omega)
    have h2 : f.getLsbD j = false := BitVec.getLsbD_of_ge _ _ (by omega)
    simp [hne, h1, h2]

end Sys2Proof
end

