-- ==== Sys2Proof/Laws/Cells.lean ====
section
/-! SUPPORT. Sparse storage: reading after a write, the canonical form, and that equal contents in that form
are equal lists. -/

namespace Sys2Proof.Machine

@[simp] theorem cellGet_nil (k : Nat) : cellGet [] k = 0 := rfl

theorem cellGet_cons (c : Host.Cell) (cs : List Host.Cell) (k : Nat) :
    cellGet (c :: cs) k = if c.1 = k then c.2 else cellGet cs k := rfl

theorem cellGet_insert (cs : List Host.Cell) (k j : Nat) (v : Byte) :
    cellGet (cellInsert cs k v) j = if j = k then v else cellGet cs j := by
  induction cs with
  | nil => simp [cellInsert, cellGet_cons, eq_comm]
  | cons c rest ih =>
    simp only [cellInsert]
    split
    · simp [cellGet_cons, eq_comm]
    · split
      · rename_i h
        by_cases hj : j = k
        · simp [cellGet_cons, hj]
        · have hk : ¬ k = j := fun e => hj e.symm
          have hc : ¬ c.1 = j := fun e => hj (by omega)
          simp [cellGet_cons, hj, hk, hc]
      · rename_i h
        simp only [cellGet_cons, ih]
        by_cases hc : c.1 = j
        · have : ¬ j = k := by omega
          simp [hc, this]
        · simp [hc]

theorem cellGet_filter (cs : List Host.Cell) (k j : Nat) :
    cellGet (cs.filter (fun c => c.1 != k)) j = if j = k then 0 else cellGet cs j := by
  induction cs with
  | nil => simp
  | cons c rest ih =>
    by_cases hc : c.1 = k
    · simp only [List.filter_cons, hc, bne_self_eq_false, Bool.false_eq_true, if_false, ih]
      by_cases hj : j = k
      · simp [hj]
      · have : ¬ c.1 = j := by omega
        simp [hj, cellGet_cons, this]
    · simp only [List.filter_cons, bne_iff_ne, ne_eq, hc, not_false_eq_true, if_true, cellGet_cons, ih]
      by_cases hj : c.1 = j
      · have : ¬ j = k := by omega
        simp [hj, this]
      · simp [hj]

/-- Reading after a write: the written index reads the byte, every other one reads as before. -/
theorem cellGet_set (cs : List Host.Cell) (k j : Nat) (v : Byte) :
    cellGet (cellSet cs k v) j = if j = k then v else cellGet cs j := by
  unfold cellSet
  split
  · rename_i h; simp [cellGet_filter, h]
  · exact cellGet_insert cs k j v

theorem mem_cellInsert {cs : List Host.Cell} {k : Nat} {v : Byte} {c : Host.Cell}
    (h : c ∈ cellInsert cs k v) : c = (k, v) ∨ c ∈ cs := by
  induction cs with
  | nil => simp_all [cellInsert]
  | cons d rest ih =>
    simp only [cellInsert] at h
    split at h
    · simpa using h
    · split at h
      · rcases List.mem_cons.mp h with h | h
        · exact .inl h
        · exact .inr (List.mem_cons_of_mem _ h)
      · rcases List.mem_cons.mp h with h | h
        · exact .inr (h ▸ List.mem_cons_self)
        · exact (ih h).imp_right (List.mem_cons_of_mem _)

/-- A listed cell after a write is the written one or was listed before. -/
theorem mem_cellSet {cs : List Host.Cell} {k : Nat} {v : Byte} {c : Host.Cell}
    (h : c ∈ cellSet cs k v) : c = (k, v) ∨ c ∈ cs := by
  unfold cellSet at h
  split at h
  · exact .inr (List.mem_filter.mp h).1
  · exact mem_cellInsert h

theorem cellsWf_insert {cs : List Host.Cell} {k : Nat} {v : Byte} (hv : v ≠ 0) (h : cellsWf cs) :
    cellsWf (cellInsert cs k v) := by
  refine ⟨?_, fun c hc => ?_⟩
  · obtain ⟨hs, -⟩ := h
    induction cs with
    | nil => simp [cellInsert]
    | cons d rest ih =>
      rw [List.pairwise_cons] at hs
      simp only [cellInsert]
      split
      · rename_i hk
        refine List.pairwise_cons.mpr ⟨fun c hc => ?_, List.pairwise_cons.mpr hs⟩
        rcases List.mem_cons.mp hc with rfl | hc
        · exact hk
        · have := hs.1 c hc; exact Nat.lt_trans hk this
      · split
        · rename_i h1 h2
          exact List.pairwise_cons.mpr ⟨fun c hc => by have := hs.1 c hc; simp only; omega, hs.2⟩
        · rename_i h1 h2
          refine List.pairwise_cons.mpr ⟨fun c hc => ?_, ih hs.2⟩
          rcases mem_cellInsert hc with rfl | hc
          · simp only; omega
          · exact hs.1 c hc
  · rcases mem_cellInsert hc with rfl | hc
    · exact hv
    · exact h.2 c hc

/-- A write keeps the canonical form. -/
theorem cellsWf_set {cs : List Host.Cell} {k : Nat} {v : Byte} (h : cellsWf cs) :
    cellsWf (cellSet cs k v) := by
  unfold cellSet
  split
  · exact ⟨h.1.filter _, fun c hc => h.2 c (List.mem_filter.mp hc).1⟩
  · rename_i hv; exact cellsWf_insert hv h

theorem cellGet_of_lt {cs : List Host.Cell} {k : Nat} (h : ∀ c ∈ cs, k < c.1) : cellGet cs k = 0 := by
  induction cs with
  | nil => rfl
  | cons c rest ih =>
    have := h c List.mem_cons_self
    have hk : ¬ c.1 = k := by omega
    simp only [cellGet_cons, hk, if_false]
    exact ih fun d hd => h d (List.mem_cons_of_mem _ hd)

/-- In the canonical form equal contents are equal data. -/
theorem cells_ext {cs ds : List Host.Cell} (hc : cellsWf cs) (hd : cellsWf ds)
    (h : ∀ k, cellGet cs k = cellGet ds k) : cs = ds := by
  induction cs generalizing ds with
  | nil =>
    cases ds with
    | nil => rfl
    | cons d ds =>
      have := h d.1
      rw [cellGet_cons, if_pos rfl] at this
      exact absurd this.symm (hd.2 d List.mem_cons_self)
  | cons c cs ih =>
    have hcs := List.pairwise_cons.mp hc.1
    cases ds with
    | nil =>
      have := h c.1
      rw [cellGet_cons, if_pos rfl] at this
      exact absurd this (hc.2 c List.mem_cons_self)
    | cons d ds =>
      have hds := List.pairwise_cons.mp hd.1
      have hkey : c.1 = d.1 := by
        rcases Nat.lt_trichotomy c.1 d.1 with hlt | he | hlt
        · have h1 := h c.1
          rw [cellGet_cons, if_pos rfl, cellGet_of_lt (cs := d :: ds)] at h1
          · exact absurd h1 (hc.2 c List.mem_cons_self)
          · intro e he
            rcases List.mem_cons.mp he with rfl | he
            · exact hlt
            · exact Nat.lt_trans hlt (hds.1 e he)
        · exact he
        · have h1 := h d.1
          rw [cellGet_cons (c := d), if_pos rfl, cellGet_of_lt (cs := c :: cs)] at h1
          · exact absurd h1.symm (hd.2 d List.mem_cons_self)
          · intro e he
            rcases List.mem_cons.mp he with rfl | he
            · exact hlt
            · exact Nat.lt_trans hlt (hcs.1 e he)
      have hval : c.2 = d.2 := by
        have := h c.1
        rwa [cellGet_cons, if_pos rfl, cellGet_cons, if_pos hkey.symm] at this
      have hrest : cs = ds := by
        refine ih ⟨hcs.2, fun e he => hc.2 e (List.mem_cons_of_mem _ he)⟩
          ⟨hds.2, fun e he => hd.2 e (List.mem_cons_of_mem _ he)⟩ fun k => ?_
        by_cases hk : c.1 = k
        · rw [cellGet_of_lt (cs := cs), cellGet_of_lt (cs := ds)]
          · intro e he; have := hds.1 e he; omega
          · intro e he; have := hcs.1 e he; omega
        · have := h k
          rwa [cellGet_cons, if_neg hk, cellGet_cons, if_neg (by omega)] at this
      rw [hrest]; congr 1; exact Prod.ext hkey hval

end Sys2Proof.Machine
end

