-- ==== Sys2Proof/Laws/Memory.lean ====
section
/-! SUPPORT. Memory: reading after a write, and that every write keeps the canonical form. -/

namespace Sys2Proof.Machine

/-- Reading after a byte write: the written address reads the byte, every other one reads as before. -/
theorem Memory.readByte_writeByte (m : Memory) (a b : Nat) (v : Byte) :
    (m.writeByte a v).readByte b = if b = a then v else m.readByte b := by
  by_cases hb : b = a
  · subst hb
    simp only [Memory.writeByte, Memory.readByte, if_true]
    repeat' split
    all_goals simp_all [cellGet_set, Config.ctrl1Addr, Config.ctrl2Addr]
  · simp only [Memory.writeByte, Memory.readByte, if_neg hb]
    repeat' split
    all_goals simp_all [cellGet_set, Config.ctrl1Addr, Config.ctrl2Addr]

theorem Memory.readByte_writeByte_self (m : Memory) (a : Nat) (v : Byte) :
    (m.writeByte a v).readByte a = v := by simp [Memory.readByte_writeByte]

theorem Memory.readByte_writeByte_ne (m : Memory) (a b : Nat) (v : Byte) (h : b ≠ a) :
    (m.writeByte a v).readByte b = m.readByte b := by simp [Memory.readByte_writeByte, h]

/-- Reading a byte after a word write (20_memory.md R51, R53). -/
theorem Memory.readByte_writeWord (m : Memory) (a b : Nat) (v : Word) :
    (m.writeWord a v).readByte b =
      if b = a + 1 then highByte v else if b = a then lowByte v else m.readByte b := by
  simp [Memory.writeWord, Memory.readByte_writeByte]

/-- A word write leaves every byte outside its two alone. -/
theorem Memory.readByte_writeWord_outside (m : Memory) (a b : Nat) (v : Word) (h : b < a ∨ a + 2 ≤ b) :
    (m.writeWord a v).readByte b = m.readByte b := by
  have h1 : ¬ b = a + 1 := by omega
  have h2 : ¬ b = a := by omega
  simp [Memory.readByte_writeWord, h1, h2]

theorem Memory.readWord_writeWord_self (m : Memory) (a : Nat) (v : Word) :
    (m.writeWord a v).readWord a = v := by
  simp [Memory.readWord, Memory.readByte_writeWord]

theorem Memory.readWord_writeWord_outside (m : Memory) (a b : Nat) (v : Word)
    (h : b + 2 ≤ a ∨ a + 2 ≤ b) : (m.writeWord a v).readWord b = m.readWord b := by
  simp only [Memory.readWord]
  rw [Memory.readByte_writeWord_outside _ _ _ _ (by omega),
    Memory.readByte_writeWord_outside _ _ _ _ (by omega)]

theorem Memory.writeByte_wf {m : Memory} {a : Nat} {v : Byte} (ha : a ≤ Config.maxAddr) (h : m.wf) :
    (m.writeByte a v).wf := by
  unfold Memory.writeByte
  split
  · exact h
  split
  · exact h
  split
  · exact h
  split
  · exact h
  refine ⟨cellsWf_set h.1, fun c hc => ?_⟩
  rcases mem_cellSet hc with rfl | hc
  · refine ⟨ha, ?_⟩
    simp_all only [Config.ctrl1Addr, Config.ctrl2Addr]
    omega
  · exact h.2 c hc

theorem Memory.writeWord_wf {m : Memory} {a : Nat} {v : Word} (ha : a + 1 ≤ Config.maxAddr) (h : m.wf) :
    (m.writeWord a v).wf :=
  Memory.writeByte_wf ha (Memory.writeByte_wf (Nat.le_of_succ_le ha) h)

theorem Memory.writeBytes_wf {bs : List Byte} {m : Memory} {a : Nat}
    (ha : a + bs.length ≤ Config.maxAddr + 1) (h : m.wf) : (m.writeBytes a bs).wf := by
  induction bs generalizing m a with
  | nil => exact h
  | cons b rest ih =>
    simp only [List.length_cons] at ha
    exact ih (by omega) (Memory.writeByte_wf (by omega) h)

/-- Bytes stored at rising addresses read back in place; every other byte is unchanged. -/
theorem Memory.readByte_writeBytes (bs : List Byte) (m : Memory) (a b : Nat) :
    (m.writeBytes a bs).readByte b =
      if a ≤ b ∧ b < a + bs.length then bs.getD (b - a) 0 else m.readByte b := by
  induction bs generalizing m a with
  | nil => simp only [Memory.writeBytes, List.length_nil]; rw [if_neg (by omega)]
  | cons c rest ih =>
    simp only [Memory.writeBytes, ih, Memory.readByte_writeByte, List.length_cons]
    by_cases hb : b = a
    · subst hb; simp
    · by_cases h : a + 1 ≤ b ∧ b < a + 1 + rest.length
      · have : b - a = (b - (a + 1)) + 1 := by omega
        rw [if_pos h, if_pos (by omega), this]; rfl
      · rw [if_neg h, if_neg hb, if_neg (by omega)]

/-- Memories of one canonical form with the same bytes are equal data. -/
theorem Memory.ext_readByte {m n : Memory} (hm : m.wf) (hn : n.wf)
    (h : ∀ a, m.readByte a = n.readByte a) : m = n := by
  have h0 := h Config.ctrl1Addr
  have h1 := h (Config.ctrl1Addr + 1)
  have h2 := h Config.ctrl2Addr
  have h3 := h (Config.ctrl2Addr + 1)
  simp only [Memory.readByte, Config.ctrl1Addr, Config.ctrl2Addr] at h0 h1 h2 h3
  simp at h0 h1 h2 h3
  have e1 : m.ctrl1 = n.ctrl1 := by
    rw [← joinBytes_low_high m.ctrl1, ← joinBytes_low_high n.ctrl1, h0, h1]
  have e2 : m.ctrl2 = n.ctrl2 := by
    rw [← joinBytes_low_high m.ctrl2, ← joinBytes_low_high n.ctrl2, h2, h3]
  have out : ∀ (p : Memory), p.wf → ∀ k, (k = Config.ctrl1Addr ∨ k = Config.ctrl1Addr + 1 ∨
      k = Config.ctrl2Addr ∨ k = Config.ctrl2Addr + 1) → cellGet p.cells k = 0 := by
    intro p hp k hk
    have : ∀ cs : List Host.Cell, (∀ c ∈ cs, c.1 < Config.ctrl1Addr ∨ Config.ctrl2Addr + 1 < c.1) →
        cellGet cs k = 0 := by
      intro cs hcs
      induction cs with
      | nil => rfl
      | cons c rest ih =>
        have hc := hcs c List.mem_cons_self
        simp only [Config.ctrl1Addr, Config.ctrl2Addr] at hc hk
        rw [cellGet_cons, if_neg (by omega)]
        exact ih fun d hd => hcs d (List.mem_cons_of_mem _ hd)
    exact this p.cells fun c hc => (hp.2 c hc).2
  have e3 : m.cells = n.cells := by
    refine cells_ext hm.1 hn.1 fun k => ?_
    by_cases hk : k = Config.ctrl1Addr ∨ k = Config.ctrl1Addr + 1 ∨
      k = Config.ctrl2Addr ∨ k = Config.ctrl2Addr + 1
    · rw [out m hm k hk, out n hn k hk]
    · have := h k
      simp only [not_or] at hk
      obtain ⟨a, b, c, d⟩ := hk
      simpa [Memory.readByte, a, b, c, d] using this
  cases m; cases n; simp_all

end Sys2Proof.Machine
end

