-- ==== Sys2Proof/Laws/Blit.lean ====
section
/-! SUPPORT. What the sprite blit does, said once: the loops of 48_graphics.md R226 leave the picture of the
sprite over the old framebuffer, and `hit` says whether a drawn pixel met a cell that was not 0. -/

namespace Sys2Proof.Machine

theorem onScreen_iff {sx sy : Int} :
    onScreen sx sy = true ↔ 0 ≤ sx ∧ sx ≤ 319 ∧ 0 ≤ sy ∧ sy ≤ 239 := by simp [onScreen]

theorem fbIndex_lt {sx sy : Int} (h : onScreen sx sy = true) :
    fbIndex sy.toNat sx.toNat < Config.fbSize := by
  rw [onScreen_iff] at h; simp only [fbIndex, Config.screenW, Config.fbSize]; omega

theorem fbIndex_inj {sx sy tx ty : Int} (h : onScreen sx sy = true) (h' : onScreen tx ty = true)
    (e : fbIndex sy.toNat sx.toNat = fbIndex ty.toNat tx.toNat) : sx = tx ∧ sy = ty := by
  rw [onScreen_iff] at h h'; simp only [fbIndex, Config.screenW] at e; omega

/-! ## The canonical form -/

theorem Blit.plot_wf {b : Blit} {sx sy : Int} {p : BitVec 4} (h : fbWf b.fb) :
    fbWf (b.plot sx sy p).fb := by
  unfold Blit.plot
  split
  · exact h
  split
  · rename_i hs
    refine ⟨cellsWf_set h.1, fun c hc => ?_⟩
    rcases mem_cellSet hc with rfl | hc
    · refine ⟨fbIndex_lt hs, ?_⟩
      simp only [widen_toNat]; have := p.isLt; omega
    · exact h.2 c hc
  · exact h

theorem foldl_keeps {α β : Type} {P : β → Prop} {f : β → α → β} (hf : ∀ b a, P b → P (f b a))
    (l : List α) {b : β} (h : P b) : P (l.foldl f b) := by
  induction l generalizing b with
  | nil => exact h
  | cons a l ih => exact ih (hf b a h)

theorem Blit.plotAll_wf {b : Blit} (m : Memory) (g : BlitArgs) (h : fbWf b.fb) :
    fbWf (b.plotAll m g).fb :=
  foldl_keeps (P := fun b : Blit => fbWf b.fb) (fun _ _ h =>
    foldl_keeps (P := fun b : Blit => fbWf b.fb) (fun _ _ h => Blit.plot_wf (Blit.plot_wf h)) _ h) _ h

/-! ## The picture -/

/-- `b` is the old framebuffer with the pixels `P` drawn at the positions of `S`. -/
structure Drawn (P : Int → Int → BitVec 4) (S : Int → Int → Prop) (old : List Host.Cell) (b : Blit) :
    Prop where
  drawn : ∀ sx sy, onScreen sx sy = true → S sx sy → P sx sy ≠ 0 →
    cellGet b.fb (fbIndex sy.toNat sx.toNat) = widen (P sx sy)
  kept : ∀ k, (∀ sx sy, onScreen sx sy = true → S sx sy → P sx sy ≠ 0 →
    k ≠ fbIndex sy.toNat sx.toNat) → cellGet b.fb k = cellGet old k
  hit : b.hit ≠ 0 ↔ ∃ sx sy, onScreen sx sy = true ∧ S sx sy ∧ P sx sy ≠ 0 ∧
    cellGet old (fbIndex sy.toNat sx.toNat) ≠ 0

theorem or_ne_zero {a b : Byte} : a ||| b ≠ 0 ↔ a ≠ 0 ∨ b ≠ 0 := by
  rw [← not_iff_not]; simp [BitVec.or_eq_zero_iff]

theorem Drawn.congr {P : Int → Int → BitVec 4} {S T : Int → Int → Prop} {old : List Host.Cell} {b : Blit}
    (h : Drawn P S old b) (e : ∀ sx sy, S sx sy ↔ T sx sy) : Drawn P T old b := by
  have : S = T := by funext x y; exact propext (e x y)
  exact this ▸ h

/-- Plotting the pixel of one new position draws it. -/
theorem Drawn.plot {P : Int → Int → BitVec 4} {S : Int → Int → Prop} {old : List Host.Cell} {b : Blit}
    {sx sy : Int} (h : Drawn P S old b) (hn : ¬ S sx sy) :
    Drawn P (fun x y => S x y ∨ (x = sx ∧ y = sy)) old (b.plot sx sy (P sx sy)) := by
  by_cases hp : P sx sy = 0
  · have hb : b.plot sx sy (P sx sy) = b := by simp [Blit.plot, hp]
    rw [hb]
    refine ⟨?_, fun k hk => h.kept k fun x y ho hS => hk x y ho (.inl hS), ?_⟩
    · rintro x y ho (hS | ⟨rfl, rfl⟩) hP
      · exact h.drawn x y ho hS hP
      · exact absurd hp hP
    · rw [h.hit]
      constructor
      · rintro ⟨x, y, ho, hS, r⟩; exact ⟨x, y, ho, .inl hS, r⟩
      · rintro ⟨x, y, ho, hS | ⟨rfl, rfl⟩, hP, r⟩
        · exact ⟨x, y, ho, hS, hP, r⟩
        · exact absurd hp hP
  · by_cases ho : onScreen sx sy = true
    · have hb : b.plot sx sy (P sx sy) =
          { hit := b.hit ||| cellGet b.fb (fbIndex sy.toNat sx.toNat)
            fb := cellSet b.fb (fbIndex sy.toNat sx.toNat) (widen (P sx sy)) } := by
        rw [Blit.plot, if_neg hp, if_pos ho]
      have hold : cellGet b.fb (fbIndex sy.toNat sx.toNat) = cellGet old (fbIndex sy.toNat sx.toNat) := by
        refine h.kept _ fun x y ho' hS _ e => ?_
        obtain ⟨rfl, rfl⟩ := fbIndex_inj ho ho' e
        exact hn hS
      rw [hb]
      refine ⟨?_, ?_, ?_⟩
      · rintro x y ho' hS hP
        simp only [cellGet_set]
        split
        · rename_i e; obtain ⟨rfl, rfl⟩ := fbIndex_inj ho' ho e; rfl
        · rename_i e
          rcases hS with hS | ⟨rfl, rfl⟩
          · exact h.drawn x y ho' hS hP
          · exact absurd rfl e
      · intro k hk
        have hne := hk sx sy ho (.inr ⟨rfl, rfl⟩) hp
        simp only [cellGet_set, if_neg hne]
        exact h.kept k fun x y ho' hS => hk x y ho' (.inl hS)
      · simp only [or_ne_zero, h.hit, hold]
        constructor
        · rintro (⟨x, y, ho', hS, r⟩ | hc)
          · exact ⟨x, y, ho', .inl hS, r⟩
          · exact ⟨sx, sy, ho, .inr ⟨rfl, rfl⟩, hp, hc⟩
        · rintro ⟨x, y, ho', hS | ⟨rfl, rfl⟩, hP, hc⟩
          · exact .inl ⟨x, y, ho', hS, hP, hc⟩
          · exact .inr hc
    · have hb : b.plot sx sy (P sx sy) = b := by simp [Blit.plot, ho]
      rw [hb]
      refine ⟨?_, fun k hk => h.kept k fun x y ho' hS => hk x y ho' (.inl hS), ?_⟩
      · rintro x y ho' (hS | ⟨rfl, rfl⟩) hP
        · exact h.drawn x y ho' hS hP
        · exact absurd ho' ho
      · rw [h.hit]
        constructor
        · rintro ⟨x, y, ho', hS, r⟩; exact ⟨x, y, ho', .inl hS, r⟩
        · rintro ⟨x, y, ho', hS | ⟨rfl, rfl⟩, r⟩
          · exact ⟨x, y, ho', hS, r⟩
          · exact absurd ho' ho

/-- The positions of the bytes before row `r`, column `c`, in the order of the loops. -/
def BlitArgs.before (g : BlitArgs) (r c : Nat) (sx sy : Int) : Prop :=
  g.covers sx sy ∧ (g.rowOf sy < r ∨ g.rowOf sy = r ∧ g.colOf sx < c)

/-- The screen row of sprite row `r`. -/
def BlitArgs.screenRow (g : BlitArgs) (r : Nat) : Int :=
  g.y + ((if g.vflip then g.h - 1 - r else r : Nat) : Int)

/-- The screen column of the left pixel of byte column `c`. -/
def BlitArgs.screenCol (g : BlitArgs) (c : Nat) : Int :=
  g.x + 2 * ((if g.hflip then g.w - 1 - c else c : Nat) : Int)

/-- The two positions of the byte at row `r`, column `c`. -/
theorem BlitArgs.position_iff {g : BlitArgs} {r c : Nat} (hr : r < g.h) (hc : c < g.w) (sx sy : Int) :
    g.covers sx sy ∧ g.rowOf sy = r ∧ g.colOf sx = c ↔
      sy = g.screenRow r ∧ (sx = g.screenCol c ∨ sx = g.screenCol c + 1) := by
  obtain ⟨x, y, addr, w, h, hf, vf⟩ := g
  cases hf <;> cases vf <;>
    simp only [BlitArgs.covers, BlitArgs.rowOf, BlitArgs.colOf, BlitArgs.screenRow, BlitArgs.screenCol,
      Bool.false_eq_true, if_true, if_false] at * <;> omega

/-- The pixels of the byte: the high nibble is the left one unless flipped. -/
theorem BlitArgs.pixelAt_left {m : Memory} {g : BlitArgs} {r c : Nat} (hr : r < g.h) (hc : c < g.w) :
    g.pixelAt m (g.screenCol c) (g.screenRow r) =
      if g.hflip then lowNibble (m.readByte (g.addr + r * g.w + c))
      else highNibble (m.readByte (g.addr + r * g.w + c)) := by
  obtain ⟨-, h1, h2⟩ := (g.position_iff hr hc _ _).mpr ⟨rfl, .inl rfl⟩
  have h3 : (g.screenCol c - g.x).toNat % 2 = 0 := by simp only [BlitArgs.screenCol]; omega
  simp only [BlitArgs.pixelAt, h1, h2, h3]
  cases g.hflip <;> rfl

theorem BlitArgs.pixelAt_right {m : Memory} {g : BlitArgs} {r c : Nat} (hr : r < g.h) (hc : c < g.w) :
    g.pixelAt m (g.screenCol c + 1) (g.screenRow r) =
      if g.hflip then highNibble (m.readByte (g.addr + r * g.w + c))
      else lowNibble (m.readByte (g.addr + r * g.w + c)) := by
  obtain ⟨-, h1, h2⟩ := (g.position_iff hr hc _ _).mpr ⟨rfl, .inr rfl⟩
  have h3 : (g.screenCol c + 1 - g.x).toNat % 2 = 1 := by simp only [BlitArgs.screenCol]; omega
  simp only [BlitArgs.pixelAt, h1, h2, h3]
  cases g.hflip <;> rfl

/-- The two pixels of one byte, drawn at positions not drawn before. -/
theorem Drawn.plotByte {m : Memory} {g : BlitArgs} {old : List Host.Cell} {b : Blit} {r c : Nat}
    (hr : r < g.h) (hc : c < g.w) (h : Drawn (g.pixelAt m) (g.before r c) old b) :
    Drawn (g.pixelAt m) (g.before r (c + 1)) old (b.plotByte m g r c) := by
  have pos := fun sx sy => g.position_iff hr hc sx sy
  have hl := (pos (g.screenCol c) (g.screenRow r)).mpr ⟨rfl, .inl rfl⟩
  have hr' := (pos (g.screenCol c + 1) (g.screenRow r)).mpr ⟨rfl, .inr rfl⟩
  have step1 := h.plot (sx := g.screenCol c) (sy := g.screenRow r)
    (by simp only [BlitArgs.before]; omega)
  have step2 := step1.plot (sx := g.screenCol c + 1) (sy := g.screenRow r)
    (by simp only [BlitArgs.before]; omega)
  rw [BlitArgs.pixelAt_left hr hc, BlitArgs.pixelAt_right hr hc] at step2
  refine step2.congr fun sx sy => ?_
  have := pos sx sy
  simp only [BlitArgs.before]
  constructor
  · rintro ((⟨h1, h2⟩ | h1) | h1)
    · exact ⟨h1, by omega⟩
    · have := this.mpr ⟨h1.2, .inl h1.1⟩; exact ⟨this.1, by omega⟩
    · have := this.mpr ⟨h1.2, .inr h1.1⟩; exact ⟨this.1, by omega⟩
  · rintro ⟨h1, h2⟩
    by_cases h3 : g.rowOf sy = r ∧ g.colOf sx = c
    · obtain ⟨h4, h5 | h5⟩ := this.mp ⟨h1, h3⟩
      · exact .inl (.inr ⟨h5, h4⟩)
      · exact .inr ⟨h5, h4⟩
    · exact .inl (.inl ⟨h1, by omega⟩)

theorem Drawn.plotCols {m : Memory} {g : BlitArgs} {old : List Host.Cell} {b : Blit} {r n : Nat}
    (hr : r < g.h) (hn : n ≤ g.w) (h : Drawn (g.pixelAt m) (g.before r 0) old b) :
    Drawn (g.pixelAt m) (g.before r n) old
      ((List.range n).foldl (fun b c => b.plotByte m g r c) b) := by
  induction n with
  | zero => exact h
  | succ n ih =>
    rw [List.range_succ, List.foldl_append]
    exact (ih (by omega)).plotByte hr (by omega)

theorem Drawn.plotRows {m : Memory} {g : BlitArgs} {old : List Host.Cell} {b : Blit} {n : Nat}
    (hn : n ≤ g.h) (h : Drawn (g.pixelAt m) (g.before 0 0) old b) :
    Drawn (g.pixelAt m) (g.before n 0) old
      ((List.range n).foldl (fun b r => b.plotRow m g r) b) := by
  induction n with
  | zero => exact h
  | succ n ih =>
    rw [List.range_succ, List.foldl_append]
    refine ((ih (by omega)).plotCols (by omega) (Nat.le_refl _)).congr fun sx sy => ?_
    have : g.covers sx sy → g.colOf sx < g.w := by
      simp only [BlitArgs.covers, BlitArgs.colOf]; split <;> omega
    simp only [BlitArgs.before]
    constructor
    · rintro ⟨h1, h2⟩; have := this h1; exact ⟨h1, by omega⟩
    · rintro ⟨h1, h2⟩; have := this h1; exact ⟨h1, by omega⟩

/-- The blit leaves the picture of the sprite over the old framebuffer (48_graphics.md R226). -/
theorem Blit.plotAll_drawn (m : Memory) (g : BlitArgs) (old : List Host.Cell) :
    Drawn (g.pixelAt m) g.covers old (Blit.plotAll { hit := 0, fb := old } m g) := by
  have h0 : Drawn (g.pixelAt m) (g.before 0 0) old { hit := 0, fb := old } := by
    refine ⟨?_, fun _ _ => rfl, ?_⟩
    · rintro sx sy - ⟨-, h⟩; omega
    · simp only [ne_eq, not_true_eq_false, false_iff]
      rintro ⟨sx, sy, -, ⟨-, h⟩, -⟩; omega
  refine (h0.plotRows (Nat.le_refl _)).congr fun sx sy => ?_
  have : g.covers sx sy → g.rowOf sy < g.h := by
    simp only [BlitArgs.covers, BlitArgs.rowOf]; split <;> omega
  exact ⟨fun h => h.1, fun h => ⟨h, .inl (this h)⟩⟩

/-! ## What `draw_sprite` answers -/

/-- When the call draws nothing. -/
theorem State.noOp_blitArgs_iff {s : State} {x y : Int} {a : Nat} :
    (s.blitArgs x y a).noOp = true ↔ s.spritew.toNat = 0 ∨ s.spriteh.toNat = 0 ∨ x > 319 ∨ y > 239 ∨
      x + 2 * s.spritew.toNat < 0 ∨ y + s.spriteh.toNat < 0 := by
  simp only [BlitArgs.noOp, BlitArgs.culled, State.blitArgs, Bool.or_eq_true, beq_iff_eq, or_assoc]
  exact or_congr_right (or_congr_right decide_eq_true_iff)

theorem State.drawSprite_of_noOp {s : State} {x y : Int} {a : Nat}
    (h : (s.blitArgs x y a).noOp = true) :
    s.drawSprite x y a = .ok { s with flags := putC s.flags false } := by
  simp only [State.drawSprite, h, if_true]

theorem State.drawSprite_of_gt {s : State} {x y : Int} {a : Nat}
    (h : ¬ (s.blitArgs x y a).noOp = true) (hr : 0x10000 < a + s.spritew.toNat * s.spriteh.toNat) :
    s.drawSprite x y a = .error (.memRange a) := by
  have hr' : a + (s.blitArgs x y a).w * (s.blitArgs x y a).h - 1 > Config.maxAddr := by
    simp only [State.blitArgs, Config.maxAddr]; omega
  simp only [State.drawSprite, if_neg h, if_pos hr']

theorem State.drawSprite_of_le {s : State} {x y : Int} {a : Nat}
    (h : ¬ (s.blitArgs x y a).noOp = true) (hr : a + s.spritew.toNat * s.spriteh.toNat ≤ 0x10000) :
    ∃ b, Drawn ((s.blitArgs x y a).pixelAt s.mem) (s.blitArgs x y a).covers s.fb b ∧
      b = Blit.plotAll { hit := 0, fb := s.fb } s.mem (s.blitArgs x y a) ∧
      s.drawSprite x y a = .ok { s with fb := b.fb, flags := putC s.flags (b.hit != 0) } := by
  refine ⟨_, Blit.plotAll_drawn s.mem _ s.fb, rfl, ?_⟩
  have hr' : ¬ a + (s.blitArgs x y a).w * (s.blitArgs x y a).h - 1 > Config.maxAddr := by
    simp only [State.blitArgs, Config.maxAddr]; omega
  simp only [State.drawSprite, if_neg h, if_neg hr']

end Sys2Proof.Machine
end

