-- ==== Sys2Proof/Laws/Decode.lean ====
section
/-! SUPPORT. The fields of an encoded instruction, one lemma per format (30_encoding.md R73 to R77): what the
encoder put into a field is what the decoder takes out, and an encoding uses no bit its format ignores. -/

namespace Sys2Proof

theorem toFin_ofFin4 (r : Fin 16) : (BitVec.ofFin (w := 4) r).toFin = r := rfl

theorem ofFin_toFin4 (v : BitVec 4) : BitVec.ofFin v.toFin = v := rfl

theorem joinNibbles_and_low (a b : BitVec 4) : joinNibbles a b &&& 0x0F = joinNibbles a 0 := by
  revert a b; decide

/-! ## The flip bits -/

theorem flipBits_h (h v : Bool) : (putBit (putBit 0 1 h) 0 v).getLsbD 1 = h := by revert h v; decide

theorem flipBits_v (h v : Bool) : (putBit (putBit 0 1 h) 0 v).getLsbD 0 = v := by revert h v; decide

theorem flipBits_and (h v : Bool) : putBit (putBit 0 1 h) 0 v &&& 0x03 = putBit (putBit 0 1 h) 0 v := by
  revert h v; decide

theorem flipBits_of_byte (b : Byte) : putBit (putBit 0 1 (b.getLsbD 1)) 0 (b.getLsbD 0) = b &&& 0x03 := by
  revert b; decide

/-! ## The fields of each format -/

theorem fields_encodeI (op : Byte) (imm : Word) : (encodeI op imm).imm = imm := joinBytes_low_high imm

theorem fields_encodeCi (op : Byte) (c : CondIndex) (imm : Word) :
    (encodeCi op c imm).cnd = c ∧ (encodeCi op c imm).imm = imm := by
  refine ⟨?_, joinBytes_low_high imm⟩
  simp only [InstrBytes.cnd, encodeCi, lowNibble_joinNibbles, toFin_ofFin4]

theorem fields_encodeRi (op : Byte) (rx : Reg) (imm : Word) :
    (encodeRi op rx imm).rx = rx ∧ (encodeRi op rx imm).imm = imm := by
  refine ⟨?_, joinBytes_low_high imm⟩
  simp only [InstrBytes.rx, encodeRi, lowNibble_joinNibbles, toFin_ofFin4]

theorem fields_encodeR (op : Byte) (rx : Reg) : (encodeR op rx).rx = rx := by
  simp only [InstrBytes.rx, encodeR, lowNibble_joinNibbles, toFin_ofFin4]

theorem fields_encodeRr (op : Byte) (rx ry : Reg) :
    (encodeRr op rx ry).rx = rx ∧ (encodeRr op rx ry).ry = ry := by
  simp only [InstrBytes.rx, InstrBytes.ry, encodeRr, lowNibble_joinNibbles, highNibble_joinNibbles,
    toFin_ofFin4, and_self]

theorem fields_encodeRri (op : Byte) (rx ry : Reg) (imm : Word) :
    (encodeRri op rx ry imm).rx = rx ∧ (encodeRri op rx ry imm).ry = ry ∧
      (encodeRri op rx ry imm).imm = imm := by
  refine ⟨?_, ?_, joinBytes_low_high imm⟩ <;>
    simp only [InstrBytes.rx, InstrBytes.ry, encodeRri, lowNibble_joinNibbles, highNibble_joinNibbles,
      toFin_ofFin4]

theorem fields_encodeRrr (op : Byte) (rx ry rz : Reg) :
    (encodeRrr op rx ry rz).rx = rx ∧ (encodeRrr op rx ry rz).ry = ry ∧
      (encodeRrr op rx ry rz).rz = rz := by
  simp only [InstrBytes.rx, InstrBytes.ry, InstrBytes.rz, encodeRrr, lowNibble_joinNibbles,
    highNibble_joinNibbles, toFin_ofFin4, and_self]

theorem fields_encodeRs (op : Byte) (rx : Reg) (sh : ShiftCount) :
    (encodeRs op rx sh).rx = rx ∧ (encodeRs op rx sh).sh = sh := by
  simp only [InstrBytes.rx, InstrBytes.sh, encodeRs, lowNibble_joinNibbles, toFin_ofFin4, and_self]

theorem fields_encodeBg (op : Byte) (n : Colour) : (encodeBg op n).nib = n := by
  simp only [InstrBytes.nib, encodeBg, lowNibble_joinNibbles]

theorem fields_encodeFl (op : Byte) (h v : Bool) :
    (encodeFl op h v).hflip = h ∧ (encodeFl op h v).vflip = v := ⟨flipBits_h h v, flipBits_v h v⟩

/-! ## An encoding uses no ignored bit -/

/-- The bits of a byte string its opcode's format ignores, by the format. -/
theorem InstrBytes.clearIgnored_of {b : InstrBytes} {f : Format} (h : formatOf b.b0 = some f) :
    b.clearIgnored = f.clearIgnored b := by simp only [InstrBytes.clearIgnored, h]

theorem clearIgnored_encodeN0 {op : Byte} (h : formatOf op = some .n0) :
    (encodeN0 op).clearIgnored = encodeN0 op := by
  rw [InstrBytes.clearIgnored_of h]; rfl

theorem clearIgnored_encodeI {op : Byte} (imm : Word) (h : formatOf op = some .i) :
    (encodeI op imm).clearIgnored = encodeI op imm := by
  rw [InstrBytes.clearIgnored_of h]; rfl

theorem clearIgnored_encodeCi {op : Byte} (c : CondIndex) (imm : Word) (h : formatOf op = some .ci) :
    (encodeCi op c imm).clearIgnored = encodeCi op c imm := by
  rw [InstrBytes.clearIgnored_of h]
  simp only [Format.clearIgnored, encodeCi, joinNibbles_and_low]

theorem clearIgnored_encodeRi {op : Byte} (rx : Reg) (imm : Word) (h : formatOf op = some .ri) :
    (encodeRi op rx imm).clearIgnored = encodeRi op rx imm := by
  rw [InstrBytes.clearIgnored_of h]
  simp only [Format.clearIgnored, encodeRi, joinNibbles_and_low]

theorem clearIgnored_encodeR {op : Byte} (rx : Reg) (h : formatOf op = some .r) :
    (encodeR op rx).clearIgnored = encodeR op rx := by
  rw [InstrBytes.clearIgnored_of h]
  simp only [Format.clearIgnored, encodeR, joinNibbles_and_low]

theorem clearIgnored_encodeRr {op : Byte} (rx ry : Reg) (h : formatOf op = some .rr) :
    (encodeRr op rx ry).clearIgnored = encodeRr op rx ry := by
  rw [InstrBytes.clearIgnored_of h]; rfl

theorem clearIgnored_encodeRri {op : Byte} (rx ry : Reg) (imm : Word) (h : formatOf op = some .rri) :
    (encodeRri op rx ry imm).clearIgnored = encodeRri op rx ry imm := by
  rw [InstrBytes.clearIgnored_of h]; rfl

theorem clearIgnored_encodeRrr {op : Byte} (rx ry rz : Reg) (h : formatOf op = some .rrr) :
    (encodeRrr op rx ry rz).clearIgnored = encodeRrr op rx ry rz := by
  rw [InstrBytes.clearIgnored_of h]
  simp only [Format.clearIgnored, encodeRrr, joinNibbles_and_low]

theorem clearIgnored_encodeRs {op : Byte} (rx : Reg) (sh : ShiftCount) (h : formatOf op = some .rs) :
    (encodeRs op rx sh).clearIgnored = encodeRs op rx sh := by
  rw [InstrBytes.clearIgnored_of h]
  simp only [Format.clearIgnored, encodeRs, joinNibbles_and_low]

theorem clearIgnored_encodeBg {op : Byte} (n : Colour) (h : formatOf op = some .bg) :
    (encodeBg op n).clearIgnored = encodeBg op n := by
  rw [InstrBytes.clearIgnored_of h]
  simp only [Format.clearIgnored, encodeBg, joinNibbles_and_low]

theorem clearIgnored_encodeWh {op : Byte} (w g : Byte) (h : formatOf op = some .wh) :
    (encodeWh op w g).clearIgnored = encodeWh op w g := by
  rw [InstrBytes.clearIgnored_of h]; rfl

theorem clearIgnored_encodeFl {op : Byte} (a b : Bool) (h : formatOf op = some .fl) :
    (encodeFl op a b).clearIgnored = encodeFl op a b := by
  rw [InstrBytes.clearIgnored_of h]
  simp only [Format.clearIgnored, encodeFl, flipBits_and]

theorem clearIgnored_encodeSg {op : Byte} (a b c : Byte) (h : formatOf op = some .sg) :
    (encodeSg op a b c).clearIgnored = encodeSg op a b c := by
  rw [InstrBytes.clearIgnored_of h]; rfl

end Sys2Proof
end

