-- ==== Sys2Proof/Laws/Flags.lean ====
section
/-! SUPPORT. The flags each ALU function writes, and those it keeps. -/

namespace Sys2Proof.Machine

theorem getLsbD_putC (f : Byte) (b : Bool) (j : Nat) :
    (putC f b).getLsbD j = if j = 1 then b else f.getLsbD j := getLsbD_putBit f 1 j (by decide) b

theorem getLsbD_putZ (f : Byte) (b : Bool) (j : Nat) :
    (putZ f b).getLsbD j = if j = 2 then b else f.getLsbD j := getLsbD_putBit f 2 j (by decide) b

theorem getLsbD_putO (f : Byte) (b : Bool) (j : Nat) :
    (putO f b).getLsbD j = if j = 6 then b else f.getLsbD j := getLsbD_putBit f 6 j (by decide) b

theorem getLsbD_putN (f : Byte) (b : Bool) (j : Nat) :
    (putN f b).getLsbD j = if j = 7 then b else f.getLsbD j := getLsbD_putBit f 7 j (by decide) b

/-- `setZN` writes bits 2 and 7 and keeps the rest (00_scope.md R11). -/
theorem getLsbD_setZN (f : Byte) (r : Word) (j : Nat) :
    (setZN f r).getLsbD j =
      if j = 7 then r.msb else if j = 2 then r.toNat == 0 else f.getLsbD j := by
  simp [setZN, getLsbD_putN, getLsbD_putZ]

@[simp] theorem flagZ_setZN (f : Byte) (r : Word) : flagZ (setZN f r) = (r.toNat == 0) := by
  rw [flagZ, getLsbD_setZN]; rfl

@[simp] theorem flagN_setZN (f : Byte) (r : Word) : flagN (setZN f r) = r.msb := by
  rw [flagN, getLsbD_setZN]; rfl

@[simp] theorem flagC_setZN (f : Byte) (r : Word) : flagC (setZN f r) = flagC f := by
  rw [flagC, getLsbD_setZN]; rfl

@[simp] theorem flagO_setZN (f : Byte) (r : Word) : flagO (setZN f r) = flagO f := by
  rw [flagO, getLsbD_setZN]; rfl

@[simp] theorem flagC_putC (f : Byte) (b : Bool) : flagC (putC f b) = b := by
  rw [flagC, getLsbD_putC]; rfl

/-- The flags of an addition or subtraction: bits 1, 2, 6, 7 written, the rest kept. -/
theorem getLsbD_putCZON (f : Byte) (c z o n : Bool) (j : Nat) :
    (putN (putO (putZ (putC f c) z) o) n).getLsbD j =
      if j = 7 then n else if j = 6 then o else if j = 2 then z else if j = 1 then c
      else f.getLsbD j := by
  simp [getLsbD_putN, getLsbD_putO, getLsbD_putZ, getLsbD_putC]

/-! ## What each ALU function answers (42_arithmetic.md R130, R131, 44_muldiv.md R170) -/

theorem addF_spec (a b : Word) (f : Byte) :
    (addF a b f).1 = BitVec.ofNat 16 (a.toNat + b.toNat) ∧
    flagC (addF a b f).2 = decide (a.toNat + b.toNat > 0xFFFF) ∧
    flagZ (addF a b f).2 = ((addF a b f).1.toNat == 0) ∧
    flagO (addF a b f).2 = (a.msb == b.msb && (addF a b f).1.msb != a.msb) ∧
    flagN (addF a b f).2 = (addF a b f).1.msb := by
  refine ⟨rfl, ?_, ?_, ?_, ?_⟩ <;>
    simp only [addF, flagC, flagZ, flagO, flagN, getLsbD_putCZON] <;> rfl

theorem subF_spec (a b : Word) (f : Byte) :
    (subF a b f).1 = BitVec.ofInt 16 ((a.toNat : Int) - b.toNat) ∧
    flagC (subF a b f).2 = decide (a.toNat < b.toNat) ∧
    flagZ (subF a b f).2 = ((subF a b f).1.toNat == 0) ∧
    flagO (subF a b f).2 = (a.msb != b.msb && (subF a b f).1.msb != a.msb) ∧
    flagN (subF a b f).2 = (subF a b f).1.msb := by
  refine ⟨rfl, ?_, ?_, ?_, ?_⟩ <;>
    simp only [subF, flagC, flagZ, flagO, flagN, getLsbD_putCZON] <;> try rfl
  change decide ((a.toNat : Int) - b.toNat < 0) = decide (a.toNat < b.toNat)
  exact decide_eq_decide.mpr (by omega)

theorem mulF_spec (a b : Word) (f : Byte) :
    (mulF a b f).1 = BitVec.ofNat 16 (a.toNat * b.toNat) ∧
    flagC (mulF a b f).2 = decide (a.toNat * b.toNat > 0xFFFF) ∧
    flagZ (mulF a b f).2 = ((mulF a b f).1.toNat == 0) ∧
    flagO (mulF a b f).2 = flagO f ∧
    flagN (mulF a b f).2 = (mulF a b f).1.msb := by
  refine ⟨rfl, ?_, ?_, ?_, ?_⟩ <;>
    simp only [mulF, flagC, flagZ, flagO, flagN, getLsbD_setZN, getLsbD_putC] <;> rfl

/-- Putting a flag keeps the bits that carry none at 0 (10_state.md R27). -/
theorem putBit_reserved {f : Byte} (i : Nat) (v : Bool) (hi : i = 1 ∨ i = 2 ∨ i = 6 ∨ i = 7)
    (h : f &&& ~~~flagMask = 0) : putBit f i v &&& ~~~flagMask = 0 := by
  revert f
  rcases hi with rfl | rfl | rfl | rfl <;> revert v <;> decide

theorem setZN_reserved {f : Byte} (r : Word) (h : f &&& ~~~flagMask = 0) :
    setZN f r &&& ~~~flagMask = 0 :=
  putBit_reserved 7 _ (by decide) (putBit_reserved 2 _ (by decide) h)

theorem putCZON_reserved {f : Byte} (c z o n : Bool) (h : f &&& ~~~flagMask = 0) :
    putN (putO (putZ (putC f c) z) o) n &&& ~~~flagMask = 0 :=
  putBit_reserved 7 _ (by decide) (putBit_reserved 6 _ (by decide)
    (putBit_reserved 2 _ (by decide) (putBit_reserved 1 _ (by decide) h)))

/-- The check every division makes: exactly when each fault is raised. -/
theorem divCheck_eq_none {a b : Word} :
    divCheck a b = none ↔ b.toInt ≠ 0 ∧ ¬ (a.toInt = -32768 ∧ b.toInt = -1) := by
  unfold divCheck; split <;> [simp_all; (split <;> simp_all)]

theorem divF_eq_ok {a b : Word} (f : Byte) (h : divCheck a b = none) :
    divF a b f = .ok (BitVec.ofInt 16 (Int.tdiv a.toInt b.toInt),
      setZN (putC f (decide (Int.tdiv a.toInt b.toInt * b.toInt ≠ a.toInt)))
        (BitVec.ofInt 16 (Int.tdiv a.toInt b.toInt))) := by simp [divF, h]

theorem modF_eq_ok {a b : Word} (f : Byte) (h : divCheck a b = none) :
    modF a b f = .ok (withZN
      (BitVec.ofInt 16 (Int.tmod (Int.tmod a.toInt b.toInt + b.toInt) b.toInt)) f) := by simp [modF, h]

theorem remF_eq_ok {a b : Word} (f : Byte) (h : divCheck a b = none) :
    remF a b f = .ok (withZN (BitVec.ofInt 16 (Int.tmod a.toInt b.toInt)) f) := by simp [remF, h]

theorem divF_eq_error {a b : Word} (f : Byte) {e : Fault} (h : divCheck a b = some e) :
    divF a b f = .error e ∧ modF a b f = .error e ∧ remF a b f = .error e := by
  simp [divF, modF, remF, h]

end Sys2Proof.Machine
end

