-- ==== Sys2Proof/Laws/State.lean ====
section
/-! SUPPORT. One lemma per field per state update, so that no proof unfolds a record update. -/

namespace Sys2Proof.Machine

/-! ## setReg -/

@[simp] theorem State.setReg_regs (s : State) (r : Reg) (v : Word) :
    (s.setReg r v).regs = s.regs.set r v := rfl
@[simp] theorem State.setReg_pc (s : State) (r : Reg) (v : Word) : (s.setReg r v).pc = s.pc := rfl
@[simp] theorem State.setReg_sp (s : State) (r : Reg) (v : Word) : (s.setReg r v).sp = s.sp := rfl
@[simp] theorem State.setReg_flags (s : State) (r : Reg) (v : Word) :
    (s.setReg r v).flags = s.flags := rfl
@[simp] theorem State.setReg_mem (s : State) (r : Reg) (v : Word) :
    (s.setReg r v).mem = s.mem := rfl
@[simp] theorem State.setReg_bg (s : State) (r : Reg) (v : Word) : (s.setReg r v).bg = s.bg := rfl
@[simp] theorem State.setReg_spritew (s : State) (r : Reg) (v : Word) :
    (s.setReg r v).spritew = s.spritew := rfl
@[simp] theorem State.setReg_spriteh (s : State) (r : Reg) (v : Word) :
    (s.setReg r v).spriteh = s.spriteh := rfl
@[simp] theorem State.setReg_hflip (s : State) (r : Reg) (v : Word) :
    (s.setReg r v).hflip = s.hflip := rfl
@[simp] theorem State.setReg_vflip (s : State) (r : Reg) (v : Word) :
    (s.setReg r v).vflip = s.vflip := rfl
@[simp] theorem State.setReg_pal (s : State) (r : Reg) (v : Word) :
    (s.setReg r v).pal = s.pal := rfl
@[simp] theorem State.setReg_fb (s : State) (r : Reg) (v : Word) : (s.setReg r v).fb = s.fb := rfl
@[simp] theorem State.setReg_vblank (s : State) (r : Reg) (v : Word) :
    (s.setReg r v).vblank = s.vblank := rfl
@[simp] theorem State.setReg_status (s : State) (r : Reg) (v : Word) :
    (s.setReg r v).status = s.status := rfl
@[simp] theorem State.setReg_framePos (s : State) (r : Reg) (v : Word) :
    (s.setReg r v).framePos = s.framePos := rfl
@[simp] theorem State.setReg_hostClosed (s : State) (r : Reg) (v : Word) :
    (s.setReg r v).hostClosed = s.hostClosed := rfl
@[simp] theorem State.setReg_schedule (s : State) (r : Reg) (v : Word) :
    (s.setReg r v).schedule = s.schedule := rfl
@[simp] theorem State.setReg_renders (s : State) (r : Reg) (v : Word) :
    (s.setReg r v).renders = s.renders := rfl
@[simp] theorem State.setReg_frameNo (s : State) (r : Reg) (v : Word) :
    (s.setReg r v).frameNo = s.frameNo := rfl
@[simp] theorem State.setReg_draws (s : State) (r : Reg) (v : Word) :
    (s.setReg r v).draws = s.draws := rfl

/-! ## setPc -/

@[simp] theorem State.setPc_regs (s : State) (v : Word) : (s.setPc v).regs = s.regs := rfl
@[simp] theorem State.setPc_pc (s : State) (v : Word) : (s.setPc v).pc = v := rfl
@[simp] theorem State.setPc_sp (s : State) (v : Word) : (s.setPc v).sp = s.sp := rfl
@[simp] theorem State.setPc_flags (s : State) (v : Word) : (s.setPc v).flags = s.flags := rfl
@[simp] theorem State.setPc_mem (s : State) (v : Word) : (s.setPc v).mem = s.mem := rfl
@[simp] theorem State.setPc_bg (s : State) (v : Word) : (s.setPc v).bg = s.bg := rfl
@[simp] theorem State.setPc_spritew (s : State) (v : Word) : (s.setPc v).spritew = s.spritew := rfl
@[simp] theorem State.setPc_spriteh (s : State) (v : Word) : (s.setPc v).spriteh = s.spriteh := rfl
@[simp] theorem State.setPc_hflip (s : State) (v : Word) : (s.setPc v).hflip = s.hflip := rfl
@[simp] theorem State.setPc_vflip (s : State) (v : Word) : (s.setPc v).vflip = s.vflip := rfl
@[simp] theorem State.setPc_pal (s : State) (v : Word) : (s.setPc v).pal = s.pal := rfl
@[simp] theorem State.setPc_fb (s : State) (v : Word) : (s.setPc v).fb = s.fb := rfl
@[simp] theorem State.setPc_vblank (s : State) (v : Word) : (s.setPc v).vblank = s.vblank := rfl
@[simp] theorem State.setPc_status (s : State) (v : Word) : (s.setPc v).status = s.status := rfl
@[simp] theorem State.setPc_framePos (s : State) (v : Word) :
    (s.setPc v).framePos = s.framePos := rfl
@[simp] theorem State.setPc_hostClosed (s : State) (v : Word) :
    (s.setPc v).hostClosed = s.hostClosed := rfl
@[simp] theorem State.setPc_schedule (s : State) (v : Word) : (s.setPc v).schedule = s.schedule := rfl
@[simp] theorem State.setPc_renders (s : State) (v : Word) : (s.setPc v).renders = s.renders := rfl
@[simp] theorem State.setPc_frameNo (s : State) (v : Word) : (s.setPc v).frameNo = s.frameNo := rfl
@[simp] theorem State.setPc_draws (s : State) (v : Word) : (s.setPc v).draws = s.draws := rfl

/-! ## advancePc -/

@[simp] theorem State.advancePc_regs (s : State) : (s.advancePc).regs = s.regs := rfl
@[simp] theorem State.advancePc_pc (s : State) : (s.advancePc).pc = s.pc + 4 := rfl
@[simp] theorem State.advancePc_sp (s : State) : (s.advancePc).sp = s.sp := rfl
@[simp] theorem State.advancePc_flags (s : State) : (s.advancePc).flags = s.flags := rfl
@[simp] theorem State.advancePc_mem (s : State) : (s.advancePc).mem = s.mem := rfl
@[simp] theorem State.advancePc_bg (s : State) : (s.advancePc).bg = s.bg := rfl
@[simp] theorem State.advancePc_spritew (s : State) : (s.advancePc).spritew = s.spritew := rfl
@[simp] theorem State.advancePc_spriteh (s : State) : (s.advancePc).spriteh = s.spriteh := rfl
@[simp] theorem State.advancePc_hflip (s : State) : (s.advancePc).hflip = s.hflip := rfl
@[simp] theorem State.advancePc_vflip (s : State) : (s.advancePc).vflip = s.vflip := rfl
@[simp] theorem State.advancePc_pal (s : State) : (s.advancePc).pal = s.pal := rfl
@[simp] theorem State.advancePc_fb (s : State) : (s.advancePc).fb = s.fb := rfl
@[simp] theorem State.advancePc_vblank (s : State) : (s.advancePc).vblank = s.vblank := rfl
@[simp] theorem State.advancePc_status (s : State) : (s.advancePc).status = s.status := rfl
@[simp] theorem State.advancePc_framePos (s : State) : (s.advancePc).framePos = s.framePos := rfl
@[simp] theorem State.advancePc_hostClosed (s : State) :
    (s.advancePc).hostClosed = s.hostClosed := rfl
@[simp] theorem State.advancePc_schedule (s : State) : (s.advancePc).schedule = s.schedule := rfl
@[simp] theorem State.advancePc_renders (s : State) : (s.advancePc).renders = s.renders := rfl
@[simp] theorem State.advancePc_frameNo (s : State) : (s.advancePc).frameNo = s.frameNo := rfl
@[simp] theorem State.advancePc_draws (s : State) : (s.advancePc).draws = s.draws := rfl

/-! ## writeAlu -/

@[simp] theorem State.writeAlu_regs (s : State) (r : Reg) (x : Word × Byte) :
    (s.writeAlu r x).regs = s.regs.set r x.1 := rfl
@[simp] theorem State.writeAlu_pc (s : State) (r : Reg) (x : Word × Byte) :
    (s.writeAlu r x).pc = s.pc := rfl
@[simp] theorem State.writeAlu_sp (s : State) (r : Reg) (x : Word × Byte) :
    (s.writeAlu r x).sp = s.sp := rfl
@[simp] theorem State.writeAlu_flags (s : State) (r : Reg) (x : Word × Byte) :
    (s.writeAlu r x).flags = x.2 := rfl
@[simp] theorem State.writeAlu_mem (s : State) (r : Reg) (x : Word × Byte) :
    (s.writeAlu r x).mem = s.mem := rfl
@[simp] theorem State.writeAlu_bg (s : State) (r : Reg) (x : Word × Byte) :
    (s.writeAlu r x).bg = s.bg := rfl
@[simp] theorem State.writeAlu_spritew (s : State) (r : Reg) (x : Word × Byte) :
    (s.writeAlu r x).spritew = s.spritew := rfl
@[simp] theorem State.writeAlu_spriteh (s : State) (r : Reg) (x : Word × Byte) :
    (s.writeAlu r x).spriteh = s.spriteh := rfl
@[simp] theorem State.writeAlu_hflip (s : State) (r : Reg) (x : Word × Byte) :
    (s.writeAlu r x).hflip = s.hflip := rfl
@[simp] theorem State.writeAlu_vflip (s : State) (r : Reg) (x : Word × Byte) :
    (s.writeAlu r x).vflip = s.vflip := rfl
@[simp] theorem State.writeAlu_pal (s : State) (r : Reg) (x : Word × Byte) :
    (s.writeAlu r x).pal = s.pal := rfl
@[simp] theorem State.writeAlu_fb (s : State) (r : Reg) (x : Word × Byte) :
    (s.writeAlu r x).fb = s.fb := rfl
@[simp] theorem State.writeAlu_vblank (s : State) (r : Reg) (x : Word × Byte) :
    (s.writeAlu r x).vblank = s.vblank := rfl
@[simp] theorem State.writeAlu_status (s : State) (r : Reg) (x : Word × Byte) :
    (s.writeAlu r x).status = s.status := rfl
@[simp] theorem State.writeAlu_framePos (s : State) (r : Reg) (x : Word × Byte) :
    (s.writeAlu r x).framePos = s.framePos := rfl
@[simp] theorem State.writeAlu_hostClosed (s : State) (r : Reg) (x : Word × Byte) :
    (s.writeAlu r x).hostClosed = s.hostClosed := rfl
@[simp] theorem State.writeAlu_schedule (s : State) (r : Reg) (x : Word × Byte) :
    (s.writeAlu r x).schedule = s.schedule := rfl
@[simp] theorem State.writeAlu_renders (s : State) (r : Reg) (x : Word × Byte) :
    (s.writeAlu r x).renders = s.renders := rfl
@[simp] theorem State.writeAlu_frameNo (s : State) (r : Reg) (x : Word × Byte) :
    (s.writeAlu r x).frameNo = s.frameNo := rfl
@[simp] theorem State.writeAlu_draws (s : State) (r : Reg) (x : Word × Byte) :
    (s.writeAlu r x).draws = s.draws := rfl

/-! ## writeFlags -/

@[simp] theorem State.writeFlags_regs (s : State) (x : Word × Byte) :
    (s.writeFlags x).regs = s.regs := rfl
@[simp] theorem State.writeFlags_pc (s : State) (x : Word × Byte) :
    (s.writeFlags x).pc = s.pc := rfl
@[simp] theorem State.writeFlags_sp (s : State) (x : Word × Byte) :
    (s.writeFlags x).sp = s.sp := rfl
@[simp] theorem State.writeFlags_flags (s : State) (x : Word × Byte) :
    (s.writeFlags x).flags = x.2 := rfl
@[simp] theorem State.writeFlags_mem (s : State) (x : Word × Byte) :
    (s.writeFlags x).mem = s.mem := rfl
@[simp] theorem State.writeFlags_bg (s : State) (x : Word × Byte) :
    (s.writeFlags x).bg = s.bg := rfl
@[simp] theorem State.writeFlags_spritew (s : State) (x : Word × Byte) :
    (s.writeFlags x).spritew = s.spritew := rfl
@[simp] theorem State.writeFlags_spriteh (s : State) (x : Word × Byte) :
    (s.writeFlags x).spriteh = s.spriteh := rfl
@[simp] theorem State.writeFlags_hflip (s : State) (x : Word × Byte) :
    (s.writeFlags x).hflip = s.hflip := rfl
@[simp] theorem State.writeFlags_vflip (s : State) (x : Word × Byte) :
    (s.writeFlags x).vflip = s.vflip := rfl
@[simp] theorem State.writeFlags_pal (s : State) (x : Word × Byte) :
    (s.writeFlags x).pal = s.pal := rfl
@[simp] theorem State.writeFlags_fb (s : State) (x : Word × Byte) :
    (s.writeFlags x).fb = s.fb := rfl
@[simp] theorem State.writeFlags_vblank (s : State) (x : Word × Byte) :
    (s.writeFlags x).vblank = s.vblank := rfl
@[simp] theorem State.writeFlags_status (s : State) (x : Word × Byte) :
    (s.writeFlags x).status = s.status := rfl
@[simp] theorem State.writeFlags_framePos (s : State) (x : Word × Byte) :
    (s.writeFlags x).framePos = s.framePos := rfl
@[simp] theorem State.writeFlags_hostClosed (s : State) (x : Word × Byte) :
    (s.writeFlags x).hostClosed = s.hostClosed := rfl
@[simp] theorem State.writeFlags_schedule (s : State) (x : Word × Byte) :
    (s.writeFlags x).schedule = s.schedule := rfl
@[simp] theorem State.writeFlags_renders (s : State) (x : Word × Byte) :
    (s.writeFlags x).renders = s.renders := rfl
@[simp] theorem State.writeFlags_frameNo (s : State) (x : Word × Byte) :
    (s.writeFlags x).frameNo = s.frameNo := rfl
@[simp] theorem State.writeFlags_draws (s : State) (x : Word × Byte) :
    (s.writeFlags x).draws = s.draws := rfl

/-! ## placeAtPc -/

@[simp] theorem State.placeAtPc_regs (s : State) (b : InstrBytes) :
    (s.placeAtPc b).regs = s.regs := rfl
@[simp] theorem State.placeAtPc_pc (s : State) (b : InstrBytes) : (s.placeAtPc b).pc = s.pc := rfl
@[simp] theorem State.placeAtPc_sp (s : State) (b : InstrBytes) : (s.placeAtPc b).sp = s.sp := rfl
@[simp] theorem State.placeAtPc_flags (s : State) (b : InstrBytes) :
    (s.placeAtPc b).flags = s.flags := rfl
@[simp] theorem State.placeAtPc_bg (s : State) (b : InstrBytes) : (s.placeAtPc b).bg = s.bg := rfl
@[simp] theorem State.placeAtPc_spritew (s : State) (b : InstrBytes) :
    (s.placeAtPc b).spritew = s.spritew := rfl
@[simp] theorem State.placeAtPc_spriteh (s : State) (b : InstrBytes) :
    (s.placeAtPc b).spriteh = s.spriteh := rfl
@[simp] theorem State.placeAtPc_hflip (s : State) (b : InstrBytes) :
    (s.placeAtPc b).hflip = s.hflip := rfl
@[simp] theorem State.placeAtPc_vflip (s : State) (b : InstrBytes) :
    (s.placeAtPc b).vflip = s.vflip := rfl
@[simp] theorem State.placeAtPc_pal (s : State) (b : InstrBytes) :
    (s.placeAtPc b).pal = s.pal := rfl
@[simp] theorem State.placeAtPc_fb (s : State) (b : InstrBytes) : (s.placeAtPc b).fb = s.fb := rfl
@[simp] theorem State.placeAtPc_vblank (s : State) (b : InstrBytes) :
    (s.placeAtPc b).vblank = s.vblank := rfl
@[simp] theorem State.placeAtPc_status (s : State) (b : InstrBytes) :
    (s.placeAtPc b).status = s.status := rfl
@[simp] theorem State.placeAtPc_framePos (s : State) (b : InstrBytes) :
    (s.placeAtPc b).framePos = s.framePos := rfl
@[simp] theorem State.placeAtPc_hostClosed (s : State) (b : InstrBytes) :
    (s.placeAtPc b).hostClosed = s.hostClosed := rfl
@[simp] theorem State.placeAtPc_schedule (s : State) (b : InstrBytes) :
    (s.placeAtPc b).schedule = s.schedule := rfl
@[simp] theorem State.placeAtPc_renders (s : State) (b : InstrBytes) :
    (s.placeAtPc b).renders = s.renders := rfl
@[simp] theorem State.placeAtPc_frameNo (s : State) (b : InstrBytes) :
    (s.placeAtPc b).frameNo = s.frameNo := rfl
@[simp] theorem State.placeAtPc_draws (s : State) (b : InstrBytes) :
    (s.placeAtPc b).draws = s.draws := rfl

/-! ## hostClose -/

@[simp] theorem State.hostClose_regs (s : State) : (s.hostClose).regs = s.regs := rfl
@[simp] theorem State.hostClose_pc (s : State) : (s.hostClose).pc = s.pc := rfl
@[simp] theorem State.hostClose_sp (s : State) : (s.hostClose).sp = s.sp := rfl
@[simp] theorem State.hostClose_flags (s : State) : (s.hostClose).flags = s.flags := rfl
@[simp] theorem State.hostClose_mem (s : State) : (s.hostClose).mem = s.mem := rfl
@[simp] theorem State.hostClose_bg (s : State) : (s.hostClose).bg = s.bg := rfl
@[simp] theorem State.hostClose_spritew (s : State) : (s.hostClose).spritew = s.spritew := rfl
@[simp] theorem State.hostClose_spriteh (s : State) : (s.hostClose).spriteh = s.spriteh := rfl
@[simp] theorem State.hostClose_hflip (s : State) : (s.hostClose).hflip = s.hflip := rfl
@[simp] theorem State.hostClose_vflip (s : State) : (s.hostClose).vflip = s.vflip := rfl
@[simp] theorem State.hostClose_pal (s : State) : (s.hostClose).pal = s.pal := rfl
@[simp] theorem State.hostClose_fb (s : State) : (s.hostClose).fb = s.fb := rfl
@[simp] theorem State.hostClose_vblank (s : State) : (s.hostClose).vblank = s.vblank := rfl
@[simp] theorem State.hostClose_status (s : State) : (s.hostClose).status = s.status := rfl
@[simp] theorem State.hostClose_framePos (s : State) : (s.hostClose).framePos = s.framePos := rfl
@[simp] theorem State.hostClose_hostClosed (s : State) : (s.hostClose).hostClosed = true := rfl
@[simp] theorem State.hostClose_schedule (s : State) : (s.hostClose).schedule = s.schedule := rfl
@[simp] theorem State.hostClose_renders (s : State) : (s.hostClose).renders = s.renders := rfl
@[simp] theorem State.hostClose_frameNo (s : State) : (s.hostClose).frameNo = s.frameNo := rfl
@[simp] theorem State.hostClose_draws (s : State) : (s.hostClose).draws = s.draws := rfl

/-! ## hostSchedule -/

@[simp] theorem State.hostSchedule_regs (s : State) (c : Schedule) :
    (s.hostSchedule c).regs = s.regs := rfl
@[simp] theorem State.hostSchedule_pc (s : State) (c : Schedule) :
    (s.hostSchedule c).pc = s.pc := rfl
@[simp] theorem State.hostSchedule_sp (s : State) (c : Schedule) :
    (s.hostSchedule c).sp = s.sp := rfl
@[simp] theorem State.hostSchedule_flags (s : State) (c : Schedule) :
    (s.hostSchedule c).flags = s.flags := rfl
@[simp] theorem State.hostSchedule_mem (s : State) (c : Schedule) :
    (s.hostSchedule c).mem = s.mem := rfl
@[simp] theorem State.hostSchedule_bg (s : State) (c : Schedule) :
    (s.hostSchedule c).bg = s.bg := rfl
@[simp] theorem State.hostSchedule_spritew (s : State) (c : Schedule) :
    (s.hostSchedule c).spritew = s.spritew := rfl
@[simp] theorem State.hostSchedule_spriteh (s : State) (c : Schedule) :
    (s.hostSchedule c).spriteh = s.spriteh := rfl
@[simp] theorem State.hostSchedule_hflip (s : State) (c : Schedule) :
    (s.hostSchedule c).hflip = s.hflip := rfl
@[simp] theorem State.hostSchedule_vflip (s : State) (c : Schedule) :
    (s.hostSchedule c).vflip = s.vflip := rfl
@[simp] theorem State.hostSchedule_pal (s : State) (c : Schedule) :
    (s.hostSchedule c).pal = s.pal := rfl
@[simp] theorem State.hostSchedule_fb (s : State) (c : Schedule) :
    (s.hostSchedule c).fb = s.fb := rfl
@[simp] theorem State.hostSchedule_vblank (s : State) (c : Schedule) :
    (s.hostSchedule c).vblank = s.vblank := rfl
@[simp] theorem State.hostSchedule_status (s : State) (c : Schedule) :
    (s.hostSchedule c).status = s.status := rfl
@[simp] theorem State.hostSchedule_framePos (s : State) (c : Schedule) :
    (s.hostSchedule c).framePos = s.framePos := rfl
@[simp] theorem State.hostSchedule_hostClosed (s : State) (c : Schedule) :
    (s.hostSchedule c).hostClosed = s.hostClosed := rfl
@[simp] theorem State.hostSchedule_schedule (s : State) (c : Schedule) :
    (s.hostSchedule c).schedule = c := rfl
@[simp] theorem State.hostSchedule_renders (s : State) (c : Schedule) :
    (s.hostSchedule c).renders = s.renders := rfl
@[simp] theorem State.hostSchedule_frameNo (s : State) (c : Schedule) :
    (s.hostSchedule c).frameNo = s.frameNo := rfl
@[simp] theorem State.hostSchedule_draws (s : State) (c : Schedule) :
    (s.hostSchedule c).draws = s.draws := rfl

/-! ## passBoundary -/

@[simp] theorem State.passBoundary_regs (s : State) : (s.passBoundary).regs = s.regs := rfl
@[simp] theorem State.passBoundary_pc (s : State) : (s.passBoundary).pc = s.pc := rfl
@[simp] theorem State.passBoundary_sp (s : State) : (s.passBoundary).sp = s.sp := rfl
@[simp] theorem State.passBoundary_flags (s : State) : (s.passBoundary).flags = s.flags := rfl
@[simp] theorem State.passBoundary_bg (s : State) : (s.passBoundary).bg = s.bg := rfl
@[simp] theorem State.passBoundary_spritew (s : State) : (s.passBoundary).spritew = s.spritew := rfl
@[simp] theorem State.passBoundary_spriteh (s : State) : (s.passBoundary).spriteh = s.spriteh := rfl
@[simp] theorem State.passBoundary_hflip (s : State) : (s.passBoundary).hflip = s.hflip := rfl
@[simp] theorem State.passBoundary_vflip (s : State) : (s.passBoundary).vflip = s.vflip := rfl
@[simp] theorem State.passBoundary_pal (s : State) : (s.passBoundary).pal = s.pal := rfl
@[simp] theorem State.passBoundary_fb (s : State) : (s.passBoundary).fb = s.fb := rfl
@[simp] theorem State.passBoundary_vblank (s : State) : (s.passBoundary).vblank = s.vblank := rfl
@[simp] theorem State.passBoundary_status (s : State) : (s.passBoundary).status = s.status := rfl
@[simp] theorem State.passBoundary_framePos (s : State) :
    (s.passBoundary).framePos = if s.boundaryDue then 0 else s.framePos := rfl
@[simp] theorem State.passBoundary_hostClosed (s : State) :
    (s.passBoundary).hostClosed = s.hostClosed := rfl
@[simp] theorem State.passBoundary_schedule (s : State) :
    (s.passBoundary).schedule = s.schedule := rfl
@[simp] theorem State.passBoundary_renders (s : State) :
    s.passBoundary.renders =
      if s.boundaryDue && Config.freeRender s.frameNo then s.renderCall :: s.renders else s.renders := rfl
@[simp] theorem State.passBoundary_frameNo (s : State) :
    (s.passBoundary).frameNo = if s.boundaryDue then s.frameNo + 1 else s.frameNo := rfl
@[simp] theorem State.passBoundary_draws (s : State) : (s.passBoundary).draws = s.draws := rfl

/-! ## beginStep -/

@[simp] theorem State.beginStep_regs (s : State) : (s.beginStep).regs = s.regs := rfl
@[simp] theorem State.beginStep_pc (s : State) : (s.beginStep).pc = s.pc := rfl
@[simp] theorem State.beginStep_sp (s : State) : (s.beginStep).sp = s.sp := rfl
@[simp] theorem State.beginStep_flags (s : State) : (s.beginStep).flags = s.flags := rfl
@[simp] theorem State.beginStep_mem (s : State) : (s.beginStep).mem = s.mem := rfl
@[simp] theorem State.beginStep_bg (s : State) : (s.beginStep).bg = s.bg := rfl
@[simp] theorem State.beginStep_spritew (s : State) : (s.beginStep).spritew = s.spritew := rfl
@[simp] theorem State.beginStep_spriteh (s : State) : (s.beginStep).spriteh = s.spriteh := rfl
@[simp] theorem State.beginStep_hflip (s : State) : (s.beginStep).hflip = s.hflip := rfl
@[simp] theorem State.beginStep_vflip (s : State) : (s.beginStep).vflip = s.vflip := rfl
@[simp] theorem State.beginStep_pal (s : State) : (s.beginStep).pal = s.pal := rfl
@[simp] theorem State.beginStep_fb (s : State) : (s.beginStep).fb = s.fb := rfl
@[simp] theorem State.beginStep_vblank (s : State) : (s.beginStep).vblank = s.vblankNow := rfl
@[simp] theorem State.beginStep_status (s : State) : (s.beginStep).status = s.status := rfl
@[simp] theorem State.beginStep_framePos (s : State) : (s.beginStep).framePos = s.framePos := rfl
@[simp] theorem State.beginStep_hostClosed (s : State) :
    (s.beginStep).hostClosed = s.hostClosed := rfl
@[simp] theorem State.beginStep_schedule (s : State) : (s.beginStep).schedule = s.schedule := rfl
@[simp] theorem State.beginStep_renders (s : State) : (s.beginStep).renders = s.renders := rfl
@[simp] theorem State.beginStep_frameNo (s : State) : (s.beginStep).frameNo = s.frameNo := rfl
@[simp] theorem State.beginStep_draws (s : State) : (s.beginStep).draws = s.draws := rfl

/-! ## endStep -/

@[simp] theorem State.endStep_regs (s : State) : (s.endStep).regs = s.regs := rfl
@[simp] theorem State.endStep_pc (s : State) : (s.endStep).pc = s.pc := rfl
@[simp] theorem State.endStep_sp (s : State) : (s.endStep).sp = s.sp := rfl
@[simp] theorem State.endStep_flags (s : State) : (s.endStep).flags = s.flags := rfl
@[simp] theorem State.endStep_mem (s : State) : (s.endStep).mem = s.mem := rfl
@[simp] theorem State.endStep_bg (s : State) : (s.endStep).bg = s.bg := rfl
@[simp] theorem State.endStep_spritew (s : State) : (s.endStep).spritew = s.spritew := rfl
@[simp] theorem State.endStep_spriteh (s : State) : (s.endStep).spriteh = s.spriteh := rfl
@[simp] theorem State.endStep_hflip (s : State) : (s.endStep).hflip = s.hflip := rfl
@[simp] theorem State.endStep_vflip (s : State) : (s.endStep).vflip = s.vflip := rfl
@[simp] theorem State.endStep_pal (s : State) : (s.endStep).pal = s.pal := rfl
@[simp] theorem State.endStep_fb (s : State) : (s.endStep).fb = s.fb := rfl
@[simp] theorem State.endStep_vblank (s : State) : (s.endStep).vblank = s.vblank := rfl
@[simp] theorem State.endStep_status (s : State) : (s.endStep).status = s.status := rfl
@[simp] theorem State.endStep_framePos (s : State) : (s.endStep).framePos = s.framePos + 1 := rfl
@[simp] theorem State.endStep_hostClosed (s : State) : (s.endStep).hostClosed = s.hostClosed := rfl
@[simp] theorem State.endStep_schedule (s : State) : (s.endStep).schedule = s.schedule := rfl
@[simp] theorem State.endStep_renders (s : State) : (s.endStep).renders = s.renders := rfl
@[simp] theorem State.endStep_frameNo (s : State) : (s.endStep).frameNo = s.frameNo := rfl
@[simp] theorem State.endStep_draws (s : State) : (s.endStep).draws = s.draws := rfl

/-! ## Registers through the updates -/

theorem State.reg_setReg (s : State) (r q : Reg) (v : Word) :
    (s.setReg r v).reg q = if q = r then v else s.reg q := by
  simp only [State.reg, State.setReg, Fin.getElem_fin, Vector.getElem_set]
  by_cases h : q = r
  · simp [h]
  · have : ¬ (r : Nat) = q := fun e => h (Fin.ext e.symm)
    simp [h, this]

@[simp] theorem State.reg_setReg_self (s : State) (r : Reg) (v : Word) : (s.setReg r v).reg r = v := by
  simp [State.reg_setReg]

theorem State.reg_setReg_ne (s : State) (r q : Reg) (v : Word) (h : q ≠ r) :
    (s.setReg r v).reg q = s.reg q := by simp [State.reg_setReg, h]

@[simp] theorem State.reg_writeAlu_self (s : State) (r : Reg) (x : Word × Byte) :
    (s.writeAlu r x).reg r = x.1 := State.reg_setReg_self s r x.1

theorem State.reg_writeAlu_ne (s : State) (r q : Reg) (x : Word × Byte) (h : q ≠ r) :
    (s.writeAlu r x).reg q = s.reg q := State.reg_setReg_ne s r q x.1 h

@[simp] theorem State.reg_writeFlags (s : State) (x : Word × Byte) (q : Reg) :
    (s.writeFlags x).reg q = s.reg q := rfl

@[simp] theorem State.reg_setPc (s : State) (v : Word) (q : Reg) : (s.setPc v).reg q = s.reg q := rfl

@[simp] theorem State.reg_advancePc (s : State) (q : Reg) : s.advancePc.reg q = s.reg q := rfl

@[simp] theorem State.reg_beginStep (s : State) (q : Reg) : s.beginStep.reg q = s.reg q := rfl

@[simp] theorem State.reg_endStep (s : State) (q : Reg) : s.endStep.reg q = s.reg q := rfl

@[simp] theorem State.fetch_beginStep (s : State) : s.beginStep.fetch = s.fetch := rfl

@[simp] theorem State.reg_passBoundary (s : State) (q : Reg) : s.passBoundary.reg q = s.reg q := rfl

@[simp] theorem State.passBoundary_cells (s : State) : s.passBoundary.mem.cells = s.mem.cells := rfl

end Sys2Proof.Machine
end

