-- ==== Sys2Proof/Laws/Ops.lean ====
section
/-! SUPPORT. One lemma per shared operation: what it answers, and when. -/

namespace Sys2Proof.Machine

/-- A push answers the word at the old `sp` and `sp + 2`, or `STACK_RANGE` (46_stack.md R200). -/
theorem State.push16_eq_ok {s t : State} {v : Word} :
    s.push16 v = .ok t ↔
      s.sp.toNat ≤ 0xFFFD ∧ t = { s with mem := s.mem.writeWord s.sp.toNat v, sp := s.sp + 2 } := by
  unfold State.push16
  split
  · simp only [reduceCtorEq, false_iff, not_and]; omega
  · simp only [Except.ok.injEq, eq_comm (a := t)]
    exact ⟨fun h => ⟨by omega, h⟩, fun h => h.2⟩

theorem State.push16_of_le {s : State} (v : Word) (h : s.sp.toNat ≤ 0xFFFD) :
    s.push16 v = .ok { s with mem := s.mem.writeWord s.sp.toNat v, sp := s.sp + 2 } :=
  State.push16_eq_ok.mpr ⟨h, rfl⟩

theorem State.push16_of_gt {s : State} (v : Word) (h : 0xFFFD < s.sp.toNat) :
    s.push16 v = .error (.stackRange s.sp) := by unfold State.push16; rw [if_pos h]

/-- A pop answers the word below `sp` and `sp - 2`, or `STACK_RANGE` (46_stack.md R201). -/
theorem State.pop16_of_ge {s : State} (h : 2 ≤ s.sp.toNat) :
    s.pop16 = .ok (s.mem.readWord (s.sp - 2).toNat, { s with sp := s.sp - 2 }) := by
  unfold State.pop16; rw [if_neg (by omega)]

theorem State.pop16_of_lt {s : State} (h : s.sp.toNat < 2) :
    s.pop16 = .error (.stackRange s.sp) := by unfold State.pop16; rw [if_pos h]

theorem State.memReadWord_of_lt {s : State} {a : Nat} (h : a < 0xFFFF) :
    s.memReadWord a = .ok (s.mem.readWord a) := by
  unfold State.memReadWord; rw [if_neg (by simp only [Config.maxAddr]; omega)]

theorem State.memReadWord_of_ge {s : State} {a : Nat} (h : 0xFFFF ≤ a) :
    s.memReadWord a = .error (.memRange a) := by
  unfold State.memReadWord; rw [if_pos (by simp only [Config.maxAddr]; omega)]

theorem State.memWriteWord_of_lt {s : State} {a : Nat} (v : Word) (h : a < 0xFFFF) :
    s.memWriteWord a v = .ok { s with mem := s.mem.writeWord a v } := by
  unfold State.memWriteWord; rw [if_neg (by simp only [Config.maxAddr]; omega)]

theorem State.memWriteWord_of_ge {s : State} {a : Nat} (v : Word) (h : 0xFFFF ≤ a) :
    s.memWriteWord a v = .error (.memRange a) := by
  unfold State.memWriteWord; rw [if_pos (by simp only [Config.maxAddr]; omega)]

/-- The stack pointer after a push that is answered does not wrap. -/
theorem sp_add_two_toNat {p : Word} (h : p.toNat ≤ 0xFFFD) : (p + 2).toNat = p.toNat + 2 := by
  rw [BitVec.toNat_add]; have : (2 : Word).toNat = 2 := rfl
  omega

theorem sp_sub_two_toNat {p : Word} (h : 2 ≤ p.toNat) : (p - 2).toNat = p.toNat - 2 := by
  rw [BitVec.toNat_sub]; have : (2 : Word).toNat = 2 := rfl
  have := p.isLt
  omega

/-- The words a run of pushes stores, from address `a` (46_stack.md R204). -/
def wordsAt (m : Memory) (a : Nat) (vs : List Word) : Memory :=
  match vs with
  | [] => m
  | v :: rest => wordsAt (m.writeWord a v) (a + 2) rest

/-- Pushing registers one after another, all of them fitting: only memory and `sp` change. -/
theorem State.pushRegs_of_le {rs : List Reg} {s : State} (h : s.sp.toNat + 2 * rs.length ≤ 0xFFFF) :
    s.pushRegs rs = .ok { s with
      mem := wordsAt s.mem s.sp.toNat (rs.map s.reg)
      sp := s.sp + BitVec.ofNat 16 (2 * rs.length) } := by
  induction rs generalizing s with
  | nil => simp [State.pushRegs, wordsAt]
  | cons r rest ih =>
    simp only [List.length_cons] at h
    have h1 : s.sp.toNat ≤ 0xFFFD := by omega
    have h2 := sp_add_two_toNat h1
    simp only [State.pushRegs, State.push16_of_le _ h1]
    rw [ih (by simp only [h2]; omega)]
    have hsp : s.sp + 2 + BitVec.ofNat 16 (2 * rest.length)
        = s.sp + BitVec.ofNat 16 (2 * (rest.length + 1)) := by
      apply BitVec.eq_of_toNat_eq
      simp only [BitVec.toNat_add, BitVec.toNat_ofNat]
      have : (2 : Word).toNat = 2 := rfl
      omega
    simp only [List.length_cons, hsp, h2, List.map_cons, wordsAt]
    rfl

theorem readByte_wordsAt_outside {vs : List Word} {m : Memory} {a b : Nat}
    (h : b < a ∨ a + 2 * vs.length ≤ b) : (wordsAt m a vs).readByte b = m.readByte b := by
  induction vs generalizing m a with
  | nil => rfl
  | cons v rest ih =>
    simp only [List.length_cons] at h
    rw [wordsAt, ih (by omega), Memory.readByte_writeWord_outside _ _ _ _ (by omega)]

theorem readWord_wordsAt {vs : List Word} {m : Memory} {a i : Nat} (h : i < vs.length) :
    (wordsAt m a vs).readWord (a + 2 * i) = vs[i] := by
  induction vs generalizing m a i with
  | nil => simp at h
  | cons v rest ih =>
    rw [wordsAt]
    cases i with
    | zero =>
      simp only [Nat.mul_zero, Nat.add_zero, List.getElem_cons_zero]
      rw [Memory.readWord, readByte_wordsAt_outside (by omega), readByte_wordsAt_outside (by omega)]
      exact Memory.readWord_writeWord_self m a v
    | succ k =>
      simp only [List.length_cons] at h
      have := ih (m := m.writeWord a v) (a := a + 2) (i := k) (by omega)
      rw [show a + 2 * (k + 1) = a + 2 + 2 * k by omega]
      simpa using this

theorem wordsAt_wf {vs : List Word} {m : Memory} {a : Nat} (h : a + 2 * vs.length ≤ Config.maxAddr + 1)
    (hm : m.wf) : (wordsAt m a vs).wf := by
  induction vs generalizing m a with
  | nil => exact hm
  | cons v rest ih =>
    simp only [List.length_cons] at h
    exact ih (by omega) (Memory.writeWord_wf (by omega) hm)

/-- Popping registers one after another, all of them lying above 0: the first takes the word below `sp`,
each next one the word below that; memory is unchanged. -/
theorem State.popRegs_of_ge {rs : List Reg} {s : State} (h : 2 * rs.length ≤ s.sp.toNat)
    (hn : rs.Nodup) :
    ∃ t, s.popRegs rs = .ok t ∧ t = { s with regs := t.regs, sp := t.sp } ∧
      t.sp.toNat = s.sp.toNat - 2 * rs.length ∧ (∀ r, r ∉ rs → t.reg r = s.reg r) ∧
      ∀ i (hi : i < rs.length), t.reg rs[i] = s.mem.readWord (s.sp.toNat - 2 * (i + 1)) := by
  induction rs generalizing s with
  | nil => exact ⟨s, rfl, rfl, by simp, fun _ _ => rfl, fun i hi => absurd hi (by simp)⟩
  | cons r rest ih =>
    simp only [List.length_cons] at h
    have h1 : 2 ≤ s.sp.toNat := by omega
    have h2 := sp_sub_two_toNat h1
    rw [List.nodup_cons] at hn
    obtain ⟨t, ht, heq, hsp, hkeep, hval⟩ :=
      ih (s := State.setReg { s with sp := s.sp - 2 } r (s.mem.readWord (s.sp - 2).toNat))
        (by simp only [State.setReg_sp, h2]; omega) hn.2
    refine ⟨t, ?_, ?_, ?_, ?_, ?_⟩
    · simp only [State.popRegs, State.pop16_of_ge h1]; exact ht
    · rw [heq]; rfl
    · rw [hsp]; simp only [State.setReg_sp, h2, List.length_cons]; omega
    · intro q hq
      simp only [List.mem_cons, not_or] at hq
      rw [hkeep q hq.2, State.reg_setReg_ne _ _ _ _ hq.1]; rfl
    · intro i hi
      cases i with
      | zero =>
        rw [List.getElem_cons_zero, hkeep r hn.1, State.reg_setReg_self, h2]
      | succ k =>
        simp only [List.length_cons] at hi
        rw [List.getElem_cons_succ, hval k (by omega)]
        simp only [State.setReg_mem, State.setReg_sp, h2]
        congr 1; omega

/-- `PUSHALL` answers all sixteen words from the old `sp` up, `R0` lowest (46_stack.md R204). -/
theorem State.pushAll_of_le {s : State} (h : s.sp.toNat ≤ 0xFFDF) :
    ∃ m : Memory, s.pushAll = .ok { s with mem := m, sp := s.sp + 32 } ∧
      (∀ i : Reg, m.readWord (s.sp.toNat + 2 * i.val) = s.reg i) ∧
      ∀ a, (a < s.sp.toNat ∨ s.sp.toNat + 32 ≤ a) → m.readByte a = s.mem.readByte a := by
  refine ⟨wordsAt s.mem s.sp.toNat ((List.finRange 16).map s.reg), ?_, fun i => ?_, fun a ha => ?_⟩
  · unfold State.pushAll
    rw [if_neg (by omega), State.pushRegs_of_le (by simp only [List.length_finRange]; omega)]
    rfl
  · rw [readWord_wordsAt (by simp)]
    simp
  · exact readByte_wordsAt_outside (by simpa using ha)

/-- `POPALL` answers the sixteen words below the old `sp`, `R0` from the lowest (46_stack.md R205). -/
theorem State.popAll_of_ge {s : State} (h : 32 ≤ s.sp.toNat) :
    ∃ rs : Vector Word 16, s.popAll = .ok { s with regs := rs, sp := s.sp - 32 } ∧
      ∀ i : Reg, rs[i] = s.mem.readWord (s.sp.toNat - 32 + 2 * i.val) := by
  obtain ⟨t, ht, heq, hsp, -, hval⟩ := State.popRegs_of_ge (rs := (List.finRange 16).reverse) (s := s)
    (by simp only [List.length_reverse, List.length_finRange]; omega)
    (List.nodup_reverse.mpr (List.nodup_finRange 16))
  have hsp' : t.sp = s.sp - 32 := by
    apply BitVec.eq_of_toNat_eq
    rw [hsp, BitVec.toNat_sub]
    have : (32 : Word).toNat = 32 := rfl
    have := s.sp.isLt
    simp only [List.length_reverse, List.length_finRange]
    omega
  refine ⟨t.regs, ?_, fun i => ?_⟩
  · unfold State.popAll; rw [if_neg (by omega), ht, ← hsp', ← heq]
  · have hi := hval (15 - i.val) (by simp only [List.length_reverse, List.length_finRange]; omega)
    have e : (List.finRange 16).reverse[15 - i.val]'(by
        simp only [List.length_reverse, List.length_finRange]; omega) = i := by
      simp only [List.getElem_reverse, List.getElem_finRange, List.length_finRange]
      ext; simp only [Fin.val_cast]; omega
    rw [e] at hi
    rw [show s.sp.toNat - 32 + 2 * i.val = s.sp.toNat - 2 * (15 - i.val + 1) by omega, ← hi]
    rfl

/-- A condition index other than 0xF names a condition (10_state.md R30). -/
theorem condition_isSome (i : CondIndex) (f : Byte) : (condition i f).isSome = decide (i.val < 15) := by
  revert i; decide +revert

end Sys2Proof.Machine
end

