-- ==== Sys2Proof/Laws/Exec.lean ====
section
/-! SUPPORT. What a meaning that answers a next state can have done, said once: every instruction's effect is
one of a few shapes of update, so a claim about every instruction is a case analysis over the shapes. -/

namespace Sys2Proof.Machine

theorem outcomeOf_eq_next {r : Except Fault State} {t : State} : outcomeOf r = .next t ↔ r = .ok t := by
  cases r <;> simp [outcomeOf]

/-! ## Inversion of the shared operations -/

theorem State.pop16_eq_ok {s t : State} {v : Word} (h : s.pop16 = .ok (v, t)) :
    2 ≤ s.sp.toNat ∧ v = s.mem.readWord (s.sp - 2).toNat ∧ t = { s with sp := s.sp - 2 } := by
  by_cases h2 : 2 ≤ s.sp.toNat
  · rw [State.pop16_of_ge h2, Except.ok.injEq, Prod.mk.injEq] at h
    exact ⟨h2, h.1.symm, h.2.symm⟩
  · rw [State.pop16_of_lt (by omega)] at h; cases h

theorem State.loadWord_eq_ok {s t : State} {r : Reg} {a : Nat} (h : s.loadWord r a = .ok t) :
    a < 0xFFFF ∧ t = s.setReg r (s.mem.readWord a) := by
  unfold State.loadWord at h
  by_cases ha : a < 0xFFFF
  · rw [State.memReadWord_of_lt ha] at h; exact ⟨ha, (Except.ok.inj h).symm⟩
  · rw [State.memReadWord_of_ge (by omega)] at h; cases h

theorem State.memWriteWord_eq_ok {s t : State} {a : Nat} {v : Word} (h : s.memWriteWord a v = .ok t) :
    a < 0xFFFF ∧ t = { s with mem := s.mem.writeWord a v } := by
  by_cases ha : a < 0xFFFF
  · rw [State.memWriteWord_of_lt v ha] at h; exact ⟨ha, (Except.ok.inj h).symm⟩
  · rw [State.memWriteWord_of_ge v (by omega)] at h; cases h

theorem State.call_eq_ok {s t : State} {v : Word} (h : s.call v = .ok t) :
    s.sp.toNat ≤ 0xFFFD ∧
      t = State.setPc { s with mem := s.mem.writeWord s.sp.toNat s.pc, sp := s.sp + 2 } v := by
  unfold State.call at h
  by_cases hs : s.sp.toNat ≤ 0xFFFD
  · rw [State.push16_of_le _ hs] at h; exact ⟨hs, (Except.ok.inj h).symm⟩
  · rw [State.push16_of_gt _ (by omega)] at h; cases h

theorem State.whenCond_eq_ok {s t : State} {c : CondIndex} {r : Except Fault State}
    (h : s.whenCond c r = .ok t) : t = s ∨ (condition c s.flags = some true ∧ r = .ok t) := by
  unfold State.whenCond at h
  cases e : condition c s.flags with
  | none => simp [e] at h
  | some b =>
    cases b
    · simp only [e, Except.ok.injEq] at h; exact .inl h.symm
    · simp only [e] at h; exact .inr ⟨rfl, h⟩

theorem State.writeChecked_eq_ok {s t : State} {r : Reg} {x : Except Fault (Word × Byte)}
    (h : s.writeChecked r x = .ok t) : ∃ v, x = .ok v ∧ t = s.writeAlu r v := by
  cases x with
  | error f => simp [State.writeChecked] at h
  | ok v => exact ⟨v, rfl, (Except.ok.inj h).symm⟩

theorem State.shiftBy_eq_ok {s t : State} {rx ry : Reg} {F : Word → Nat → Byte → Word × Byte}
    (h : s.shiftBy rx ry F = .ok t) :
    (s.reg ry).toNat < 16 ∧ t = s.writeAlu rx (F (s.reg rx) (s.reg ry).toNat s.flags) := by
  unfold State.shiftBy State.shiftCount at h
  by_cases hc : 16 ≤ (s.reg ry).toNat
  · rw [if_pos hc] at h; cases h
  · rw [if_neg hc] at h; exact ⟨by omega, (Except.ok.inj h).symm⟩

theorem State.loadPalette_eq_ok {s t : State} {a : Nat} (h : s.loadPalette a = .ok t) :
    a ≤ 0xFFD0 ∧ t = { s with pal := Vector.ofFn fun i => s.mem.readRgb (a + 3 * i.val) } := by
  unfold State.loadPalette at h
  split at h
  · cases h
  · rename_i ha; simp only [Config.maxAddr] at ha; exact ⟨by omega, (Except.ok.inj h).symm⟩

theorem State.drawSprite_eq_ok {s t : State} {x y : Int} {a : Nat} (h : s.drawSprite x y a = .ok t) :
    ((s.blitArgs x y a).noOp = true ∧ t = { s with flags := putC s.flags false }) ∨
      (a + s.spritew.toNat * s.spriteh.toNat ≤ 0x10000 ∧
        ∃ b, b = Blit.plotAll { hit := 0, fb := s.fb } s.mem (s.blitArgs x y a) ∧
          t = { s with fb := b.fb, flags := putC s.flags (b.hit != 0) }) := by
  by_cases hn : (s.blitArgs x y a).noOp = true
  · rw [State.drawSprite_of_noOp hn] at h; exact .inl ⟨hn, (Except.ok.inj h).symm⟩
  · by_cases hr : a + s.spritew.toNat * s.spriteh.toNat ≤ 0x10000
    · obtain ⟨b, -, hb, e⟩ := State.drawSprite_of_le hn hr
      rw [e] at h; exact .inr ⟨hr, b, hb, (Except.ok.inj h).symm⟩
    · rw [State.drawSprite_of_gt hn (by omega)] at h; cases h

/-! ## The shapes -/

/-- `FLAGS` after an ALU function: some of C, Z, O, N put, every other bit kept. -/
inductive FlagsPut (f : Byte) : List Nat → Byte → Prop
  | czon (c z o n : Bool) : FlagsPut f [1, 2, 6, 7] (putN (putO (putZ (putC f c) z) o) n)
  | czn (c : Bool) (r : Word) : FlagsPut f [1, 2, 7] (setZN (putC f c) r)
  | zn (r : Word) : FlagsPut f [2, 7] (setZN f r)

theorem FlagsPut.kept {f g : Byte} {bits : List Nat} (h : FlagsPut f bits g) {k : Nat} (hk : k ∉ bits) :
    g.getLsbD k = f.getLsbD k := by
  cases h <;> simp_all [getLsbD_putCZON, getLsbD_setZN, getLsbD_putC]

theorem FlagsPut.reserved {f g : Byte} {bits : List Nat} (h : FlagsPut f bits g)
    (hf : f &&& ~~~flagMask = 0) : g &&& ~~~flagMask = 0 := by
  cases h with
  | czon c z o n => exact putCZON_reserved c z o n hf
  | czn c r => exact setZN_reserved r (putBit_reserved 1 _ (by decide) hf)
  | zn r => exact setZN_reserved r hf

theorem addF_put (a b : Word) (f : Byte) : FlagsPut f [1, 2, 6, 7] (addF a b f).2 := .czon _ _ _ _
theorem subF_put (a b : Word) (f : Byte) : FlagsPut f [1, 2, 6, 7] (subF a b f).2 := .czon _ _ _ _
theorem mulF_put (a b : Word) (f : Byte) : FlagsPut f [1, 2, 7] (mulF a b f).2 := .czn _ _
theorem withZN_put (r : Word) (f : Byte) : FlagsPut f [2, 7] (withZN r f).2 := .zn _

theorem divF_put {a b : Word} {f : Byte} {v : Word × Byte} (h : divF a b f = .ok v) :
    FlagsPut f [1, 2, 7] v.2 := by
  unfold divF at h; split at h
  · cases h
  · rw [← Except.ok.inj h]; exact .czn _ _

theorem modF_put {a b : Word} {f : Byte} {v : Word × Byte} (h : modF a b f = .ok v) :
    FlagsPut f [2, 7] v.2 := by
  unfold modF at h; split at h
  · cases h
  · rw [← Except.ok.inj h]; exact .zn _

theorem remF_put {a b : Word} {f : Byte} {v : Word × Byte} (h : remF a b f = .ok v) :
    FlagsPut f [2, 7] v.2 := by
  unfold remF at h; split at h
  · cases h
  · rw [← Except.ok.inj h]; exact .zn _

/-- What an instruction that answers `t` from `s` has done. -/
inductive Effect (i : Instr) (s : State) : State → Prop
  | nothing : Effect i s s
  | pc (v : Word) : Effect i s (s.setPc v)
  | reg (r : Reg) (v : Word) : Effect i s (s.setReg r v)
  | alu (r : Reg) (v : Word × Byte) (h : FlagsPut s.flags (flagBits i) v.2) : Effect i s (s.writeAlu r v)
  | test (v : Word × Byte) (h : FlagsPut s.flags (flagBits i) v.2) : Effect i s (s.writeFlags v)
  | sp (v : Word) (h : i = .ldi2 v) : Effect i s { s with sp := v }
  | store (a : Nat) (v : Word) (h : a < 0xFFFF)
      (hi : (∃ rx imm, i = .stm rx imm) ∨ ∃ rx ry, i = .stm2 rx ry) :
      Effect i s { s with mem := s.mem.writeWord a v }
  | push (v : Word) (h : s.sp.toNat ≤ 0xFFFD) (hi : (∃ rx, i = .push rx) ∨ i = .pushf) :
      Effect i s { s with mem := s.mem.writeWord s.sp.toNat v, sp := s.sp + 2 }
  | call (v : Word) (h : s.sp.toNat ≤ 0xFFFD)
      (hi : (∃ imm, i = .call imm) ∨ (∃ rx, i = .call2 rx) ∨ ∃ c imm, i = .cx c imm) :
      Effect i s (State.setPc { s with mem := s.mem.writeWord s.sp.toNat s.pc, sp := s.sp + 2 } v)
  | ret (v : Word) (h : i = .ret) : Effect i s (State.setPc { s with sp := s.sp - 2 } v)
  | pop (r : Reg) (v : Word) (h : i = .pop r) : Effect i s (State.setReg { s with sp := s.sp - 2 } r v)
  | popf (f : Byte) (h : i = .popf) : Effect i s { s with sp := s.sp - 2, flags := f &&& flagMask }
  | pushall (hs : s.sp.toNat ≤ 0xFFDF) (h : i = .pushall) :
      Effect i s { s with
        mem := wordsAt s.mem s.sp.toNat ((List.finRange 16).map s.reg), sp := s.sp + 32 }
  | popall (rs : Vector Word 16) (h : i = .popall) : Effect i s { s with regs := rs, sp := s.sp - 32 }
  | pal (a : Nat) (hi : (∃ imm, i = .pal imm) ∨ ∃ rx, i = .pal2 rx) :
      Effect i s { s with pal := Vector.ofFn fun k => s.mem.readRgb (a + 3 * k.val) }
  | cls (h : i = .cls) : Effect i s { s with bg := 0, fb := [] }
  | bgc (n : Colour) (h : i = .bgc n) : Effect i s { s with bg := n }
  | spr (w g : Byte) (h : i = .spr w g) : Effect i s { s with spritew := w, spriteh := g }
  | flip (a b : Bool) (h : i = .flip a b) : Effect i s { s with hflip := a, vflip := b }
  | rnd (r : Reg) (m : Word) (h : i = .rnd r m) :
      Effect i s { s.setReg r (s.drawRnd m) with draws := s.draws + 1 }
  | draw (g : BlitArgs) (c : Bool) (fb : List Host.Cell)
      (h : fb = s.fb ∨ fb = (Blit.plotAll { hit := 0, fb := s.fb } s.mem g).fb)
      (hi : (∃ rx ry imm, i = .drw rx ry imm) ∨ ∃ rx ry rz, i = .drw2 rx ry rz) :
      Effect i s { s with fb := fb, flags := putC s.flags c }

theorem State.drawSprite_effect {i : Instr} {s t : State} {x y : Int} {a : Nat}
    (hi : (∃ rx ry imm, i = .drw rx ry imm) ∨ ∃ rx ry rz, i = .drw2 rx ry rz)
    (h : s.drawSprite x y a = .ok t) : Effect i s t := by
  obtain ⟨-, rfl⟩ | ⟨-, b, rfl, rfl⟩ := State.drawSprite_eq_ok h
  · exact .draw (s.blitArgs x y a) _ _ (.inl rfl) hi
  · exact .draw _ _ _ (.inr rfl) hi

/-- Every instruction that answers a next state has one of the effects. -/
theorem exec_effect {i : Instr} {s t : State} (h : exec i s = .next t) : Effect i s t := by
  cases i with
  | nop | snd0 | snd1 _ | snd2 _ | snd3 _ | snp _ _ | sng _ _ _ => cases h; exact .nothing
  | cls => cases h; exact .cls rfl
  | vblnk =>
    cases h; split
    · exact .nothing
    · exact .pc _
  | bgc _ => cases h; exact .bgc _ rfl
  | spr _ _ => cases h; exact .spr _ _ rfl
  | flip _ _ => cases h; exact .flip _ _ rfl
  | drw _ _ _ => exact State.drawSprite_effect (.inl ⟨_, _, _, rfl⟩) (outcomeOf_eq_next.mp h)
  | drw2 _ _ _ => exact State.drawSprite_effect (.inr ⟨_, _, _, rfl⟩) (outcomeOf_eq_next.mp h)
  | rnd _ _ =>
    simp only [exec, execRnd] at h
    split at h
    · cases h
    · cases h; exact .rnd _ _ rfl
  | jmp _ | jmp2 _ => cases h; exact .pc _
  | jmc _ | jme _ _ _ =>
    cases h; split
    · exact .pc _
    · exact .nothing
  | jx _ _ =>
    obtain rfl | ⟨-, e⟩ := State.whenCond_eq_ok (outcomeOf_eq_next.mp h)
    · exact .nothing
    · cases e; exact .pc _
  | call _ =>
    obtain ⟨hs, rfl⟩ := State.call_eq_ok (outcomeOf_eq_next.mp h)
    exact .call _ hs (.inl ⟨_, rfl⟩)
  | call2 _ =>
    obtain ⟨hs, rfl⟩ := State.call_eq_ok (outcomeOf_eq_next.mp h)
    exact .call _ hs (.inr (.inl ⟨_, rfl⟩))
  | cx _ _ =>
    obtain rfl | ⟨-, e⟩ := State.whenCond_eq_ok (outcomeOf_eq_next.mp h)
    · exact .nothing
    · obtain ⟨hs, rfl⟩ := State.call_eq_ok e
      exact .call _ hs (.inr (.inr ⟨_, _, rfl⟩))
  | ret =>
    simp only [exec, execRet] at h
    split at h
    · cases h
    · rename_i e
      obtain ⟨-, -, rfl⟩ := State.pop16_eq_ok e
      cases h; exact .ret _ rfl
  | ldi _ _ | mov _ _ => cases h; exact .reg _ _
  | ldi2 _ => cases h; exact .sp _ rfl
  | ldm _ _ | ldm2 _ _ =>
    obtain ⟨-, rfl⟩ := State.loadWord_eq_ok (outcomeOf_eq_next.mp h)
    exact .reg _ _
  | stm _ _ =>
    obtain ⟨ha, rfl⟩ := State.memWriteWord_eq_ok (outcomeOf_eq_next.mp h)
    exact .store _ _ ha (.inl ⟨_, _, rfl⟩)
  | stm2 _ _ =>
    obtain ⟨ha, rfl⟩ := State.memWriteWord_eq_ok (outcomeOf_eq_next.mp h)
    exact .store _ _ ha (.inr ⟨_, _, rfl⟩)
  | addi _ _ | add _ _ | add2 _ _ _ => cases h; exact .alu _ _ (addF_put _ _ _)
  | subi _ _ | sub _ _ | sub2 _ _ _ => cases h; exact .alu _ _ (subF_put _ _ _)
  | cmpi _ _ | cmp _ _ => cases h; exact .test _ (subF_put _ _ _)
  | andi _ _ | and _ _ | and2 _ _ _ | ori _ _ | or _ _ | or2 _ _ _ | xori _ _ | xor _ _ | xor2 _ _ _ =>
    cases h; exact .alu _ _ (withZN_put _ _)
  | noti _ _ | not _ | not2 _ _ | negi _ _ | neg _ | neg2 _ _ | shl _ _ | shr _ _ | sar _ _ =>
    cases h; exact .alu _ _ (withZN_put _ _)
  | tsti _ _ | tst _ _ => cases h; exact .test _ (withZN_put _ _)
  | muli _ _ | mul _ _ | mul2 _ _ _ => cases h; exact .alu _ _ (mulF_put _ _ _)
  | divi _ _ | div _ _ | div2 _ _ _ =>
    obtain ⟨v, e, rfl⟩ := State.writeChecked_eq_ok (outcomeOf_eq_next.mp h)
    exact .alu _ _ (divF_put e)
  | modi _ _ | mod _ _ | mod2 _ _ _ =>
    obtain ⟨v, e, rfl⟩ := State.writeChecked_eq_ok (outcomeOf_eq_next.mp h)
    exact .alu _ _ (modF_put e)
  | remi _ _ | rem _ _ | rem2 _ _ _ =>
    obtain ⟨v, e, rfl⟩ := State.writeChecked_eq_ok (outcomeOf_eq_next.mp h)
    exact .alu _ _ (remF_put e)
  | shl2 _ _ | shr2 _ _ | sar2 _ _ =>
    obtain ⟨-, rfl⟩ := State.shiftBy_eq_ok (outcomeOf_eq_next.mp h)
    exact .alu _ _ (withZN_put _ _)
  | push _ =>
    obtain ⟨hs, rfl⟩ := State.push16_eq_ok.mp (outcomeOf_eq_next.mp h)
    exact .push _ hs (.inl ⟨_, rfl⟩)
  | pushf =>
    obtain ⟨hs, rfl⟩ := State.push16_eq_ok.mp (outcomeOf_eq_next.mp h)
    exact .push _ hs (.inr rfl)
  | pop _ =>
    have h := outcomeOf_eq_next.mp h
    simp only [State.popInto] at h
    split at h
    · cases h
    · rename_i e
      obtain ⟨-, -, rfl⟩ := State.pop16_eq_ok e
      cases h; exact .pop _ _ rfl
  | popf =>
    have h := outcomeOf_eq_next.mp h
    simp only [State.popFlags] at h
    split at h
    · cases h
    · rename_i e
      obtain ⟨-, -, rfl⟩ := State.pop16_eq_ok e
      cases h; exact .popf _ rfl
  | pushall =>
    have h := outcomeOf_eq_next.mp h
    simp only [State.pushAll] at h
    split at h
    · cases h
    · rw [State.pushRegs_of_le (by simp only [List.length_finRange]; omega)] at h
      cases h; exact .pushall (by omega) rfl
  | popall =>
    have h := outcomeOf_eq_next.mp h
    by_cases hs : 32 ≤ s.sp.toNat
    · obtain ⟨rs, e, -⟩ := State.popAll_of_ge hs
      rw [e] at h; cases h; exact .popall _ rfl
    · rw [State.popAll, if_pos (by omega)] at h; cases h
  | pal _ =>
    obtain ⟨-, rfl⟩ := State.loadPalette_eq_ok (outcomeOf_eq_next.mp h)
    exact .pal _ (.inl ⟨_, rfl⟩)
  | pal2 _ =>
    obtain ⟨-, rfl⟩ := State.loadPalette_eq_ok (outcomeOf_eq_next.mp h)
    exact .pal _ (.inr ⟨_, rfl⟩)

/-! ## The faults a meaning raises

Each shared operation raises the fault its rule names, and no meaning raises `PC_RANGE`, which only the
step does (60_exceptions.md R262). -/

theorem outcomeOf_eq_fault {r : Except Fault State} {f : Fault} :
    outcomeOf r = .fault f ↔ r = .error f := by cases r <;> simp [outcomeOf]

theorem State.push16_eq_error {s : State} {v : Word} {f : Fault} (h : s.push16 v = .error f) :
    f = .stackRange s.sp := by
  unfold State.push16 at h; split at h
  · exact (Except.error.inj h).symm
  · cases h

theorem State.pop16_eq_error {s : State} {f : Fault} (h : s.pop16 = .error f) :
    f = .stackRange s.sp := by
  unfold State.pop16 at h; split at h
  · exact (Except.error.inj h).symm
  · cases h

theorem State.popInto_eq_error {s : State} {r : Reg} {f : Fault} (h : s.popInto r = .error f) :
    f = .stackRange s.sp := by
  unfold State.popInto at h; split at h
  · rename_i e; cases h; exact State.pop16_eq_error e
  · cases h

theorem State.popFlags_eq_error {s : State} {f : Fault} (h : s.popFlags = .error f) :
    f = .stackRange s.sp := by
  unfold State.popFlags at h; split at h
  · rename_i e; cases h; exact State.pop16_eq_error e
  · cases h

theorem State.call_eq_error {s : State} {v : Word} {f : Fault} (h : s.call v = .error f) :
    f = .stackRange s.sp := by
  unfold State.call at h; split at h
  · rename_i e; cases h; exact State.push16_eq_error e
  · cases h

theorem State.pushAll_eq_error {s : State} {f : Fault} (h : s.pushAll = .error f) :
    f = .stackRange s.sp := by
  by_cases hs : s.sp.toNat ≤ 0xFFDF
  · obtain ⟨m, e, -⟩ := State.pushAll_of_le hs; rw [e] at h; cases h
  · rw [State.pushAll, if_pos (by omega)] at h; exact (Except.error.inj h).symm

theorem State.popAll_eq_error {s : State} {f : Fault} (h : s.popAll = .error f) :
    f = .stackRange s.sp := by
  by_cases hs : 32 ≤ s.sp.toNat
  · obtain ⟨m, e, -⟩ := State.popAll_of_ge hs; rw [e] at h; cases h
  · rw [State.popAll, if_pos (by omega)] at h; exact (Except.error.inj h).symm

theorem State.loadWord_eq_error {s : State} {r : Reg} {a : Nat} {f : Fault}
    (h : s.loadWord r a = .error f) : f = .memRange a := by
  unfold State.loadWord State.memReadWord at h
  by_cases ha : a + 1 > Config.maxAddr
  · rw [if_pos ha] at h; exact (Except.error.inj h).symm
  · rw [if_neg ha] at h; cases h

theorem State.memWriteWord_eq_error {s : State} {a : Nat} {v : Word} {f : Fault}
    (h : s.memWriteWord a v = .error f) : f = .memRange a := by
  unfold State.memWriteWord at h; split at h
  · exact (Except.error.inj h).symm
  · cases h

theorem State.loadPalette_eq_error {s : State} {a : Nat} {f : Fault} (h : s.loadPalette a = .error f) :
    f = .memRange a := by
  unfold State.loadPalette at h; split at h
  · exact (Except.error.inj h).symm
  · cases h

theorem State.drawSprite_eq_error {s : State} {x y : Int} {a : Nat} {f : Fault}
    (h : s.drawSprite x y a = .error f) : f = .memRange a := by
  by_cases hn : (s.blitArgs x y a).noOp = true
  · rw [State.drawSprite_of_noOp hn] at h; cases h
  · by_cases hr : a + s.spritew.toNat * s.spriteh.toNat ≤ 0x10000
    · obtain ⟨b, -, -, e⟩ := State.drawSprite_of_le hn hr; rw [e] at h; cases h
    · rw [State.drawSprite_of_gt hn (by omega)] at h; exact (Except.error.inj h).symm

theorem State.writeChecked_eq_error {s : State} {r : Reg} {x : Except Fault (Word × Byte)} {f : Fault}
    (h : s.writeChecked r x = .error f) : x = .error f := by
  cases x with
  | error g => simpa [State.writeChecked] using h
  | ok v => simp [State.writeChecked] at h

theorem divCheck_eq_some {a b : Word} {f : Fault} (h : divCheck a b = some f) :
    f = .divZero a ∨ f = .divOverflow a b := by
  unfold divCheck at h; split at h
  · exact .inl (Option.some.inj h).symm
  · split at h
    · exact .inr (Option.some.inj h).symm
    · cases h

theorem division_eq_error {a b : Word} {g : Byte} {f : Fault}
    (h : divF a b g = .error f ∨ modF a b g = .error f ∨ remF a b g = .error f) :
    f = .divZero a ∨ f = .divOverflow a b := by
  cases e : divCheck a b with
  | none => simp [divF_eq_ok g e, modF_eq_ok g e, remF_eq_ok g e] at h
  | some x =>
    obtain ⟨h1, h2, h3⟩ := divF_eq_error g e
    rw [h1, h2, h3] at h
    simp only [Except.error.injEq, or_self] at h
    exact h ▸ divCheck_eq_some e

theorem State.shiftBy_eq_error {s : State} {rx ry : Reg} {F : Word → Nat → Byte → Word × Byte}
    {f : Fault} (h : s.shiftBy rx ry F = .error f) : f = .shiftRange (s.reg ry) := by
  unfold State.shiftBy State.shiftCount at h
  by_cases hc : (s.reg ry).toNat ≥ 16
  · rw [if_pos hc] at h; exact (Except.error.inj h).symm
  · rw [if_neg hc] at h; cases h

theorem State.whenCond_eq_error {s : State} {c : CondIndex} {r : Except Fault State} {f : Fault}
    (h : s.whenCond c r = .error f) : f = .badCond c ∨ r = .error f := by
  unfold State.whenCond at h
  cases e : condition c s.flags with
  | none => simp only [e, Except.error.injEq] at h; exact .inl h.symm
  | some b =>
    cases b
    · simp [e] at h
    · simp only [e] at h; exact .inr h

/-- A fault of an instruction, none of them `PC_RANGE` or `BAD_OPCODE`. -/
theorem exec_eq_fault {i : Instr} {s : State} {f : Fault} (h : exec i s = .fault f) :
    (∃ c, f = .badCond c) ∨ (∃ a, f = .memRange a) ∨ (∃ a, f = .divZero a) ∨
      (∃ a b, f = .divOverflow a b) ∨ f = .stackRange s.sp ∨ (∃ m, f = .rndRange m) ∨
      ∃ n, f = .shiftRange n := by
  have stack : ∀ {r}, (∀ {g}, r = .error g → g = .stackRange s.sp) → outcomeOf r = .fault f →
      f = .stackRange s.sp := fun hr h => hr (outcomeOf_eq_fault.mp h)
  have memory : ∀ {r : Except Fault State} {a}, (∀ {g}, r = .error g → g = .memRange a) →
      outcomeOf r = .fault f → ∃ a, f = .memRange a := fun hr h => ⟨_, hr (outcomeOf_eq_fault.mp h)⟩
  have division : ∀ {a b : Word}, f = .divZero a ∨ f = .divOverflow a b →
      (∃ a, f = .divZero a) ∨ ∃ a b, f = .divOverflow a b :=
    fun h => h.imp (fun h => ⟨_, h⟩) fun h => ⟨_, _, h⟩
  cases i with
  | nop | cls | vblnk | bgc _ | spr _ _ | flip _ _ | snd0 | snd1 _ | snd2 _ | snd3 _ | snp _ _ => cases h
  | sng _ _ _ | jmp _ | jmc _ | jme _ _ _ | jmp2 _ | ldi _ _ | ldi2 _ | mov _ _ => cases h
  | addi _ _ | add _ _ | add2 _ _ _ | subi _ _ | sub _ _ | sub2 _ _ _ | cmpi _ _ | cmp _ _ => cases h
  | andi _ _ | and _ _ | and2 _ _ _ | tsti _ _ | tst _ _ | ori _ _ | or _ _ | or2 _ _ _ => cases h
  | xori _ _ | xor _ _ | xor2 _ _ _ | muli _ _ | mul _ _ | mul2 _ _ _ | shl _ _ | shr _ _ => cases h
  | sar _ _ | noti _ _ | not _ | not2 _ _ | negi _ _ | neg _ | neg2 _ _ => cases h
  | jx _ _ =>
    obtain h | h := State.whenCond_eq_error (outcomeOf_eq_fault.mp h)
    · exact .inl ⟨_, h⟩
    · cases h
  | cx _ _ =>
    obtain h | h := State.whenCond_eq_error (outcomeOf_eq_fault.mp h)
    · exact .inl ⟨_, h⟩
    · exact .inr (.inr (.inr (.inr (.inl (State.call_eq_error h)))))
  | call _ | call2 _ => exact .inr (.inr (.inr (.inr (.inl (stack State.call_eq_error h)))))
  | ret =>
    simp only [exec, execRet] at h
    split at h
    · rename_i e; cases h; exact .inr (.inr (.inr (.inr (.inl (State.pop16_eq_error e)))))
    · cases h
  | push _ | pushf => exact .inr (.inr (.inr (.inr (.inl (stack State.push16_eq_error h)))))
  | pop _ => exact .inr (.inr (.inr (.inr (.inl (stack State.popInto_eq_error h)))))
  | popf => exact .inr (.inr (.inr (.inr (.inl (stack State.popFlags_eq_error h)))))
  | pushall => exact .inr (.inr (.inr (.inr (.inl (stack State.pushAll_eq_error h)))))
  | popall => exact .inr (.inr (.inr (.inr (.inl (stack State.popAll_eq_error h)))))
  | ldm _ _ | ldm2 _ _ => exact .inr (.inl (memory State.loadWord_eq_error h))
  | stm _ _ | stm2 _ _ => exact .inr (.inl (memory State.memWriteWord_eq_error h))
  | pal _ | pal2 _ => exact .inr (.inl (memory State.loadPalette_eq_error h))
  | drw _ _ _ | drw2 _ _ _ => exact .inr (.inl (memory State.drawSprite_eq_error h))
  | divi _ _ | div _ _ | div2 _ _ _ =>
    have e := State.writeChecked_eq_error (outcomeOf_eq_fault.mp h)
    exact .inr (.inr (or_assoc.mp (.inl (division (division_eq_error (.inl e))))))
  | modi _ _ | mod _ _ | mod2 _ _ _ =>
    have e := State.writeChecked_eq_error (outcomeOf_eq_fault.mp h)
    exact .inr (.inr (or_assoc.mp (.inl (division (division_eq_error (.inr (.inl e)))))))
  | remi _ _ | rem _ _ | rem2 _ _ _ =>
    have e := State.writeChecked_eq_error (outcomeOf_eq_fault.mp h)
    exact .inr (.inr (or_assoc.mp (.inl (division (division_eq_error (.inr (.inr e)))))))
  | shl2 _ _ | shr2 _ _ | sar2 _ _ =>
    exact .inr (.inr (.inr (.inr (.inr (.inr
      ⟨_, State.shiftBy_eq_error (outcomeOf_eq_fault.mp h)⟩)))))
  | rnd _ _ =>
    simp only [exec, execRnd] at h
    split at h
    · cases h; exact .inr (.inr (.inr (.inr (.inr (.inl ⟨_, rfl⟩)))))
    · cases h

end Sys2Proof.Machine
end

