-- ==== Sys2Proof/Laws/Frames.lean ====
section
/-! SUPPORT. The frames of the shared operations, and the arithmetic between a word's readings. -/

namespace Sys2Proof.Machine

/-! ## Frames -/

theorem OnlyWrites.refl (w : Writes) (s : State) : OnlyWrites w s s where
  regs _ _ := rfl
  flags _ _ := rfl
  pc _ := rfl
  sp _ := rfl
  mem _ _ := rfl
  bg _ := rfl
  size _ := ⟨rfl, rfl⟩
  flips _ := ⟨rfl, rfl⟩
  pal _ := rfl
  fb _ _ := rfl
  draws _ := rfl
  vblank := rfl
  status := rfl
  framePos := rfl
  frameNo := rfl
  schedule := rfl
  renders := rfl
  hostClosed := rfl

/-- An ALU result written back touches the register and the flags it names. -/
theorem State.writeAlu_frame {s : State} {r : Reg} {res : Word × Byte} {bits : List Nat}
    (h : ∀ k, k ∉ bits → res.2.getLsbD k = s.flags.getLsbD k) :
    OnlyWrites { regs := [r], flags := bits } s (s.writeAlu r res) :=
  { OnlyWrites.refl { regs := [r], flags := bits } s with
    regs := fun q hq => by
      rw [State.reg_writeAlu_ne]; simpa using hq
    flags := fun k hk => by simpa using h k hk }

/-- Flags written alone. -/
theorem State.writeFlags_frame {s : State} {res : Word × Byte} {bits : List Nat}
    (h : ∀ k, k ∉ bits → res.2.getLsbD k = s.flags.getLsbD k) :
    OnlyWrites { flags := bits } s (s.writeFlags res) :=
  { OnlyWrites.refl { flags := bits } s with
    flags := fun k hk => by simpa using h k hk }

/-- A register written alone. -/
theorem State.setReg_frame (s : State) (r : Reg) (v : Word) :
    OnlyWrites { regs := [r] } s (s.setReg r v) :=
  { OnlyWrites.refl { regs := [r] } s with
    regs := fun q hq => by rw [State.reg_setReg_ne]; simpa using hq }

/-- `pc` written alone. -/
theorem State.setPc_frame (s : State) (v : Word) : OnlyWrites { pc := true } s (s.setPc v) :=
  { OnlyWrites.refl { pc := true } s with pc := fun h => by cases h }

/-- A word stored: only its two bytes change. -/
theorem State.writeWord_frame (s : State) (a : Nat) (v : Word) :
    OnlyWrites { memAt := a, memLen := 2 } s { s with mem := s.mem.writeWord a v } :=
  { OnlyWrites.refl { memAt := a, memLen := 2 } s with
    mem := fun _ hb => Memory.readByte_writeWord_outside _ _ _ _ hb }

/-- A push: its two bytes and `sp`. -/
theorem State.push_frame (s : State) (v : Word) :
    OnlyWrites { sp := true, memAt := s.sp.toNat, memLen := 2 } s
      { s with mem := s.mem.writeWord s.sp.toNat v, sp := s.sp + 2 } :=
  { OnlyWrites.refl { sp := true, memAt := s.sp.toNat, memLen := 2 } s with
    sp := fun h => by cases h
    mem := fun _ hb => Memory.readByte_writeWord_outside _ _ _ _ hb }

/-- A frame may name more. -/
theorem OnlyWrites.pcToo {w : Writes} {s t : State} (h : OnlyWrites w s t) (v : Word) :
    OnlyWrites { w with pc := true } s (t.setPc v) :=
  { regs := h.regs, flags := h.flags, pc := (fun h => by cases h), sp := h.sp, mem := h.mem, bg := h.bg
    size := h.size, flips := h.flips, pal := h.pal, fb := h.fb, draws := h.draws, vblank := h.vblank
    status := h.status, framePos := h.framePos, frameNo := h.frameNo, schedule := h.schedule
    renders := h.renders, hostClosed := h.hostClosed }

/-! ## The bits an ALU function keeps -/

theorem getLsbD_addF (a b : Word) (f : Byte) (k : Nat) (h : k ∉ [1, 2, 6, 7]) :
    (addF a b f).2.getLsbD k = f.getLsbD k := by
  simp only [List.mem_cons, List.not_mem_nil, not_or, or_false] at h
  simp [addF, getLsbD_putCZON, h]

theorem getLsbD_subF (a b : Word) (f : Byte) (k : Nat) (h : k ∉ [1, 2, 6, 7]) :
    (subF a b f).2.getLsbD k = f.getLsbD k := by
  simp only [List.mem_cons, List.not_mem_nil, not_or, or_false] at h
  simp [subF, getLsbD_putCZON, h]

theorem getLsbD_withZN (r : Word) (f : Byte) (k : Nat) (h : k ∉ [2, 7]) :
    (withZN r f).2.getLsbD k = f.getLsbD k := by
  simp only [List.mem_cons, List.not_mem_nil, not_or, or_false] at h
  simp [withZN, getLsbD_setZN, h]

theorem getLsbD_setZN_putC (r : Word) (f : Byte) (c : Bool) (k : Nat) (h : k ∉ [1, 2, 7]) :
    (setZN (putC f c) r).getLsbD k = f.getLsbD k := by
  simp only [List.mem_cons, List.not_mem_nil, not_or, or_false] at h
  simp [getLsbD_setZN, getLsbD_putC, h]

/-! ## Readings of a word (00_scope.md R10) -/

/-- The signed reading of `trunc16` is the number itself inside the signed range. -/
theorem toInt_ofInt16 {n : Int} (h1 : -32768 ≤ n) (h2 : n ≤ 32767) : (BitVec.ofInt 16 n).toInt = n := by
  rw [BitVec.toInt_ofInt, Int.bmod_def]; omega

/-- A word's signed reading lies in the signed range. -/
theorem toInt_range (w : Word) : -32768 ≤ w.toInt ∧ w.toInt ≤ 32767 := by
  have := w.isLt; rw [BitVec.toInt_eq_toNat_cond]; split <;> omega

/-- A word is put together from its bytes, low byte first (20_memory.md R51). -/
theorem toNat_joinBytes (lo hi : Byte) : (joinBytes lo hi).toNat = 256 * hi.toNat + lo.toNat := by
  have := lo.isLt
  rw [joinBytes, BitVec.toNat_append, ← Nat.shiftLeft_add_eq_or_of_lt this, Nat.shiftLeft_eq]; omega

end Sys2Proof.Machine
end

