-- ==== Sys2Proof/Laws/PerInstr.lean ====
section
/-! SUPPORT. Per-instruction laws. `CanonicalEncoding`: the encoding of an instruction is the one byte string
among its spellings with every ignored bit 0 (30_encoding.md R76). -/

namespace Sys2Proof.Laws.CanonicalEncoding

/-- Clearing the ignored bits of an instruction's encoding changes nothing. -/
def Statement (i : Instr) : Prop := (encode i).clearIgnored = encode i

theorem nop : Statement .nop :=
  clearIgnored_encodeN0 rfl

theorem cls : Statement .cls :=
  clearIgnored_encodeN0 rfl

theorem vblnk : Statement .vblnk :=
  clearIgnored_encodeN0 rfl

theorem bgc (nib : Colour) : Statement (.bgc nib) :=
  clearIgnored_encodeBg nib rfl

theorem spr (w h : Byte) : Statement (.spr w h) :=
  clearIgnored_encodeWh w h rfl

theorem drw (rx ry : Reg) (imm : Word) : Statement (.drw rx ry imm) :=
  clearIgnored_encodeRri rx ry imm rfl

theorem drw2 (rx ry rz : Reg) : Statement (.drw2 rx ry rz) :=
  clearIgnored_encodeRrr rx ry rz rfl

theorem rnd (rx : Reg) (imm : Word) : Statement (.rnd rx imm) :=
  clearIgnored_encodeRi rx imm rfl

theorem flip (h v : Bool) : Statement (.flip h v) :=
  clearIgnored_encodeFl h v rfl

theorem snd0 : Statement .snd0 :=
  clearIgnored_encodeN0 rfl

theorem snd1 (imm : Word) : Statement (.snd1 imm) :=
  clearIgnored_encodeI imm rfl

theorem snd2 (imm : Word) : Statement (.snd2 imm) :=
  clearIgnored_encodeI imm rfl

theorem snd3 (imm : Word) : Statement (.snd3 imm) :=
  clearIgnored_encodeI imm rfl

theorem snp (rx : Reg) (imm : Word) : Statement (.snp rx imm) :=
  clearIgnored_encodeRi rx imm rfl

theorem sng (ad vt sr : Byte) : Statement (.sng ad vt sr) :=
  clearIgnored_encodeSg ad vt sr rfl

theorem jmp (imm : Word) : Statement (.jmp imm) :=
  clearIgnored_encodeI imm rfl

theorem jmc (imm : Word) : Statement (.jmc imm) :=
  clearIgnored_encodeI imm rfl

theorem jx (cnd : CondIndex) (imm : Word) : Statement (.jx cnd imm) :=
  clearIgnored_encodeCi cnd imm rfl

theorem jme (rx ry : Reg) (imm : Word) : Statement (.jme rx ry imm) :=
  clearIgnored_encodeRri rx ry imm rfl

theorem call (imm : Word) : Statement (.call imm) :=
  clearIgnored_encodeI imm rfl

theorem ret : Statement .ret :=
  clearIgnored_encodeN0 rfl

theorem jmp2 (rx : Reg) : Statement (.jmp2 rx) :=
  clearIgnored_encodeR rx rfl

theorem cx (cnd : CondIndex) (imm : Word) : Statement (.cx cnd imm) :=
  clearIgnored_encodeCi cnd imm rfl

theorem call2 (rx : Reg) : Statement (.call2 rx) :=
  clearIgnored_encodeR rx rfl

theorem ldi (rx : Reg) (imm : Word) : Statement (.ldi rx imm) :=
  clearIgnored_encodeRi rx imm rfl

theorem ldi2 (imm : Word) : Statement (.ldi2 imm) :=
  clearIgnored_encodeI imm rfl

theorem ldm (rx : Reg) (imm : Word) : Statement (.ldm rx imm) :=
  clearIgnored_encodeRi rx imm rfl

theorem ldm2 (rx ry : Reg) : Statement (.ldm2 rx ry) :=
  clearIgnored_encodeRr rx ry rfl

theorem mov (rx ry : Reg) : Statement (.mov rx ry) :=
  clearIgnored_encodeRr rx ry rfl

theorem stm (rx : Reg) (imm : Word) : Statement (.stm rx imm) :=
  clearIgnored_encodeRi rx imm rfl

theorem stm2 (rx ry : Reg) : Statement (.stm2 rx ry) :=
  clearIgnored_encodeRr rx ry rfl

theorem addi (rx : Reg) (imm : Word) : Statement (.addi rx imm) :=
  clearIgnored_encodeRi rx imm rfl

theorem add (rx ry : Reg) : Statement (.add rx ry) :=
  clearIgnored_encodeRr rx ry rfl

theorem add2 (rx ry rz : Reg) : Statement (.add2 rx ry rz) :=
  clearIgnored_encodeRrr rx ry rz rfl

theorem subi (rx : Reg) (imm : Word) : Statement (.subi rx imm) :=
  clearIgnored_encodeRi rx imm rfl

theorem sub (rx ry : Reg) : Statement (.sub rx ry) :=
  clearIgnored_encodeRr rx ry rfl

theorem sub2 (rx ry rz : Reg) : Statement (.sub2 rx ry rz) :=
  clearIgnored_encodeRrr rx ry rz rfl

theorem cmpi (rx : Reg) (imm : Word) : Statement (.cmpi rx imm) :=
  clearIgnored_encodeRi rx imm rfl

theorem cmp (rx ry : Reg) : Statement (.cmp rx ry) :=
  clearIgnored_encodeRr rx ry rfl

theorem andi (rx : Reg) (imm : Word) : Statement (.andi rx imm) :=
  clearIgnored_encodeRi rx imm rfl

theorem and (rx ry : Reg) : Statement (.and rx ry) :=
  clearIgnored_encodeRr rx ry rfl

theorem and2 (rx ry rz : Reg) : Statement (.and2 rx ry rz) :=
  clearIgnored_encodeRrr rx ry rz rfl

theorem tsti (rx : Reg) (imm : Word) : Statement (.tsti rx imm) :=
  clearIgnored_encodeRi rx imm rfl

theorem tst (rx ry : Reg) : Statement (.tst rx ry) :=
  clearIgnored_encodeRr rx ry rfl

theorem ori (rx : Reg) (imm : Word) : Statement (.ori rx imm) :=
  clearIgnored_encodeRi rx imm rfl

theorem or (rx ry : Reg) : Statement (.or rx ry) :=
  clearIgnored_encodeRr rx ry rfl

theorem or2 (rx ry rz : Reg) : Statement (.or2 rx ry rz) :=
  clearIgnored_encodeRrr rx ry rz rfl

theorem xori (rx : Reg) (imm : Word) : Statement (.xori rx imm) :=
  clearIgnored_encodeRi rx imm rfl

theorem xor (rx ry : Reg) : Statement (.xor rx ry) :=
  clearIgnored_encodeRr rx ry rfl

theorem xor2 (rx ry rz : Reg) : Statement (.xor2 rx ry rz) :=
  clearIgnored_encodeRrr rx ry rz rfl

theorem muli (rx : Reg) (imm : Word) : Statement (.muli rx imm) :=
  clearIgnored_encodeRi rx imm rfl

theorem mul (rx ry : Reg) : Statement (.mul rx ry) :=
  clearIgnored_encodeRr rx ry rfl

theorem mul2 (rx ry rz : Reg) : Statement (.mul2 rx ry rz) :=
  clearIgnored_encodeRrr rx ry rz rfl

theorem divi (rx : Reg) (imm : Word) : Statement (.divi rx imm) :=
  clearIgnored_encodeRi rx imm rfl

theorem div (rx ry : Reg) : Statement (.div rx ry) :=
  clearIgnored_encodeRr rx ry rfl

theorem div2 (rx ry rz : Reg) : Statement (.div2 rx ry rz) :=
  clearIgnored_encodeRrr rx ry rz rfl

theorem modi (rx : Reg) (imm : Word) : Statement (.modi rx imm) :=
  clearIgnored_encodeRi rx imm rfl

theorem mod (rx ry : Reg) : Statement (.mod rx ry) :=
  clearIgnored_encodeRr rx ry rfl

theorem mod2 (rx ry rz : Reg) : Statement (.mod2 rx ry rz) :=
  clearIgnored_encodeRrr rx ry rz rfl

theorem remi (rx : Reg) (imm : Word) : Statement (.remi rx imm) :=
  clearIgnored_encodeRi rx imm rfl

theorem rem (rx ry : Reg) : Statement (.rem rx ry) :=
  clearIgnored_encodeRr rx ry rfl

theorem rem2 (rx ry rz : Reg) : Statement (.rem2 rx ry rz) :=
  clearIgnored_encodeRrr rx ry rz rfl

theorem shl (rx : Reg) (sh : ShiftCount) : Statement (.shl rx sh) :=
  clearIgnored_encodeRs rx sh rfl

theorem shr (rx : Reg) (sh : ShiftCount) : Statement (.shr rx sh) :=
  clearIgnored_encodeRs rx sh rfl

theorem sar (rx : Reg) (sh : ShiftCount) : Statement (.sar rx sh) :=
  clearIgnored_encodeRs rx sh rfl

theorem shl2 (rx ry : Reg) : Statement (.shl2 rx ry) :=
  clearIgnored_encodeRr rx ry rfl

theorem shr2 (rx ry : Reg) : Statement (.shr2 rx ry) :=
  clearIgnored_encodeRr rx ry rfl

theorem sar2 (rx ry : Reg) : Statement (.sar2 rx ry) :=
  clearIgnored_encodeRr rx ry rfl

theorem push (rx : Reg) : Statement (.push rx) :=
  clearIgnored_encodeR rx rfl

theorem pop (rx : Reg) : Statement (.pop rx) :=
  clearIgnored_encodeR rx rfl

theorem pushall : Statement .pushall :=
  clearIgnored_encodeN0 rfl

theorem popall : Statement .popall :=
  clearIgnored_encodeN0 rfl

theorem pushf : Statement .pushf :=
  clearIgnored_encodeN0 rfl

theorem popf : Statement .popf :=
  clearIgnored_encodeN0 rfl

theorem pal (imm : Word) : Statement (.pal imm) :=
  clearIgnored_encodeI imm rfl

theorem pal2 (rx : Reg) : Statement (.pal2 rx) :=
  clearIgnored_encodeR rx rfl

theorem noti (rx : Reg) (imm : Word) : Statement (.noti rx imm) :=
  clearIgnored_encodeRi rx imm rfl

theorem not (rx : Reg) : Statement (.not rx) :=
  clearIgnored_encodeR rx rfl

theorem not2 (rx ry : Reg) : Statement (.not2 rx ry) :=
  clearIgnored_encodeRr rx ry rfl

theorem negi (rx : Reg) (imm : Word) : Statement (.negi rx imm) :=
  clearIgnored_encodeRi rx imm rfl

theorem neg (rx : Reg) : Statement (.neg rx) :=
  clearIgnored_encodeR rx rfl

theorem neg2 (rx ry : Reg) : Statement (.neg2 rx ry) :=
  clearIgnored_encodeRr rx ry rfl

end Sys2Proof.Laws.CanonicalEncoding
end

