-- ==== Sys2Proof/Laws/Step.lean ====
section
/-! SUPPORT. The step, taken apart once: when it stops, and what a next state is. -/

namespace Sys2Proof.Machine

/-! ## The frame boundary (60_exceptions.md R272) -/

theorem State.live_iff {s : State} : s.live = true ↔ s.status = .running ∧ s.hostClosed = false := by
  unfold State.live; cases s.status <;> simp

theorem State.frameLength_pos (s : State) : 0 < s.frameLength := by
  unfold State.frameLength; split <;> exact Nat.succ_pos _

theorem State.boundaryDue_iff {s : State} :
    s.boundaryDue = true ↔ s.live = true ∧ s.frameLength ≤ s.framePos := by
  simp [State.boundaryDue]

@[simp] theorem State.live_passBoundary (s : State) : s.passBoundary.live = s.live := rfl

/-- Where no boundary is due nothing happens. -/
theorem State.passBoundary_of_not_due {s : State} (h : s.boundaryDue = false) : s.passBoundary = s := by
  simp only [State.passBoundary, State.render, State.pollInput, State.nextFrame, h, Bool.false_and,
    Bool.false_eq_true, if_false]

/-- The boundary leaves none due. -/
@[simp] theorem State.boundaryDue_passBoundary (s : State) : s.passBoundary.boundaryDue = false := by
  by_cases h : s.boundaryDue = true
  · have := s.passBoundary.frameLength_pos
    rw [State.boundaryDue, State.passBoundary_framePos, if_pos h, Bool.and_eq_false_iff]
    exact .inr (decide_eq_false (by omega))
  · rw [Bool.not_eq_true] at h; rwa [State.passBoundary_of_not_due h]

@[simp] theorem State.passBoundary_passBoundary (s : State) : s.passBoundary.passBoundary = s.passBoundary :=
  State.passBoundary_of_not_due s.boundaryDue_passBoundary

/-- A live core starts its step inside a frame. -/
theorem State.passBoundary_framePos_lt {s : State} (h : s.live = true) :
    s.passBoundary.framePos < s.passBoundary.frameLength := by
  have := s.boundaryDue_passBoundary
  simpa [State.boundaryDue, h] using this

/-- A closed or stopped run passes no boundary (R283). -/
theorem State.passBoundary_of_not_live {s : State} (h : s.live = false) : s.passBoundary = s :=
  State.passBoundary_of_not_due (by simp [State.boundaryDue, h])

/-- Outside the four controller bytes a boundary leaves memory alone (R275). -/
theorem State.readByte_passBoundary (s : State) {a : Nat} (h : a < 0xFFF0 ∨ 0xFFF3 < a) :
    s.passBoundary.mem.readByte a = s.mem.readByte a := by
  have h1 : ¬ a = Config.ctrl1Addr := by simp only [Config.ctrl1Addr]; omega
  have h2 : ¬ a = Config.ctrl1Addr + 1 := by simp only [Config.ctrl1Addr]; omega
  have h3 : ¬ a = Config.ctrl2Addr := by simp only [Config.ctrl2Addr]; omega
  have h4 : ¬ a = Config.ctrl2Addr + 1 := by simp only [Config.ctrl2Addr]; omega
  simp only [Memory.readByte, h1, h2, h3, h4, if_false, State.passBoundary_cells]

/-- The controller bytes after a boundary: the masks, their high bytes 0 (R275). -/
theorem State.readByte_passBoundary_controller {s : State} (h : s.boundaryDue = true) :
    s.passBoundary.mem.readByte 0xFFF0 = Config.freeMask1 s.frameNo ∧
    s.passBoundary.mem.readByte 0xFFF1 = 0 ∧
    s.passBoundary.mem.readByte 0xFFF2 = Config.freeMask2 s.frameNo ∧
    s.passBoundary.mem.readByte 0xFFF3 = 0 := by
  have h1 : s.passBoundary.mem.ctrl1 = s.inputMask1 := if_pos h
  have h2 : s.passBoundary.mem.ctrl2 = s.inputMask2 := if_pos h
  have lo : ∀ b : Byte, lowByte (b.setWidth 16) = b ∧ highByte (b.setWidth 16) = 0 := by decide
  simp [Memory.readByte, Config.ctrl1Addr, Config.ctrl2Addr, h1, h2, State.inputMask1, State.inputMask2,
    lo]

/-- The boundary keeps the invariant; its render is the one of its number (R271 (b)). -/
theorem State.Inv.passBoundary {s : State} (h : s.Inv) : s.passBoundary.Inv := by
  by_cases hd : s.boundaryDue = true
  · refine ⟨h.mem_wf, h.fb_wf, h.flags_reserved, h.pal_24bit, ?_, ?_, ?_⟩
    · rw [State.passBoundary_framePos, if_pos hd]; exact Nat.zero_le _
    · intro r hr
      have hlt : r.frame ≤ s.frameNo := by
        rw [State.passBoundary_renders] at hr
        split at hr
        · rcases List.mem_cons.mp hr with rfl | hr
          · exact Nat.le_refl _
          · exact Nat.le_of_lt (h.renders_past r hr)
        · exact Nat.le_of_lt (h.renders_past r hr)
      rw [State.passBoundary_frameNo, if_pos hd]; exact Nat.lt_succ_of_le hlt
    · rw [State.passBoundary_renders]
      split
      · exact List.pairwise_cons.mpr ⟨h.renders_past, h.renders_once⟩
      · exact h.renders_once
  · rw [Bool.not_eq_true] at hd; rwa [State.passBoundary_of_not_due hd]

/-- The bytes an instruction is fetched from are no controller bytes. -/
theorem State.fetch_passBoundary {s : State} (h : s.pc.toNat < 0xFDF0) : s.passBoundary.fetch = s.fetch := by
  have hr : ∀ k, k ≤ 3 →
      s.passBoundary.mem.readByte (s.pc.toNat + k) = s.mem.readByte (s.pc.toNat + k) :=
    fun k hk => s.readByte_passBoundary (.inl (by omega))
  have h0 := hr 0 (by omega)
  rw [Nat.add_zero] at h0
  simp only [State.fetch, State.passBoundary_pc, h0, hr 1 (by omega), hr 2 (by omega), hr 3 (by omega)]

/-- By the reference scheduler exactly the last step of a frame sees `vblank` (R272). -/
theorem State.vblankNow_reference {s : State} (h : s.schedule = .reference) :
    s.vblankNow = decide (s.frameLength ≤ s.framePos + 1) := by
  simp only [State.vblankNow, State.frameLength, h, Config.vblankSteps]
  exact decide_eq_decide.mpr (by omega)

/-- Every frame has a step that sees `vblank`, whatever the subdivision (R271 (a)). -/
theorem State.exists_vblank (s : State) :
    ∃ k, k < s.frameLength ∧ { s with framePos := k }.vblankNow = true := by
  have hp := s.frameLength_pos
  by_cases h : s.schedule = .reference
  · refine ⟨s.frameLength - 1, by omega, ?_⟩
    rw [State.vblankNow_reference (s := { s with framePos := s.frameLength - 1 }) h]
    exact decide_eq_true (show s.frameLength ≤ s.frameLength - 1 + 1 by omega)
  · have h : s.schedule = .hostChosen := by cases e : s.schedule <;> simp_all
    refine ⟨Config.freeVblankStep s.frameNo % s.frameLength, Nat.mod_lt _ hp, ?_⟩
    simp [State.vblankNow, State.frameLength, h]

/-! ## The step -/

/-- A core that is not running, or that the host has closed, takes no step (60_exceptions.md R260, R283). -/
theorem step_of_closed {s : State} (h : s.hostClosed = true) : step s = .refused .hostClosed := by
  simp only [step, schedulerStep, h, if_true]

theorem step_of_faulted {s : State} {r : FaultRecord} (hc : s.hostClosed = false)
    (h : s.status = .faulted r) : step s = .fault r.fault := by
  have hb : s.passBoundary.beginStep.status = .faulted r := h
  simp only [step, schedulerStep, hc, engineStep, hb, Bool.false_eq_true, if_false]

/-- The bound on `pc` comes before the fetch (30_encoding.md R70). -/
theorem step_of_pcRange {s : State} (hc : s.hostClosed = false) (h : s.status = .running)
    (hp : 0xFDF0 ≤ s.pc.toNat) : step s = .fault (.pcRange s.pc) := by
  have hb : s.passBoundary.beginStep.status = .running := h
  have hq : s.passBoundary.beginStep.pc.toNat ≥ Config.stackBase := hp
  simp only [step, schedulerStep, hc, engineStep, hb, Bool.false_eq_true, if_false, hq, if_true]
  rfl

theorem step_of_badOpcode {s : State} {b0 : Byte} (hc : s.hostClosed = false) (h : s.status = .running)
    (hp : s.pc.toNat < 0xFDF0) (hd : decode s.fetch = .error (.badOpcode b0)) :
    step s = .fault (.badOpcode b0) := by
  have hb : s.passBoundary.beginStep.status = .running := h
  have hq : ¬ s.passBoundary.beginStep.pc.toNat ≥ Config.stackBase := Nat.not_le.mpr hp
  have hf : decode s.passBoundary.beginStep.fetch = .error (.badOpcode b0) := by
    rw [State.fetch_beginStep, State.fetch_passBoundary hp, hd]
  simp only [step, schedulerStep, hc, engineStep, hb, Bool.false_eq_true, if_false, hq, hf]

/-- A live core whose bytes decode passes a boundary that is due, runs the instruction and advances its
position in the frame. -/
theorem step_of_decode {s : State} {i : Instr} (hc : s.hostClosed = false) (h : s.status = .running)
    (hp : s.pc.toNat < 0xFDF0) (hd : decode s.fetch = .ok i) :
    step s = match exec i s.passBoundary.beginStep.advancePc with
      | .next t => .next t.endStep
      | .fault f => .fault f
      | .refused r => .refused r := by
  have hb : s.passBoundary.beginStep.status = .running := h
  have hq : ¬ s.passBoundary.beginStep.pc.toNat ≥ Config.stackBase := Nat.not_le.mpr hp
  have hf : decode s.passBoundary.beginStep.fetch = .ok i := by
    rw [State.fetch_beginStep, State.fetch_passBoundary hp, hd]
  have he : engineStep s.passBoundary.beginStep = exec i s.passBoundary.beginStep.advancePc := by
    simp only [engineStep, hb, if_false, hq, hf]
  cases hx : exec i s.passBoundary.beginStep.advancePc <;> simp [step, schedulerStep, hc, he, hx]

/-- The boundary may be passed on its own, before the step that would pass it. -/
theorem step_passBoundary (s : State) : step s.passBoundary = step s := by
  simp only [step, schedulerStep, State.passBoundary_hostClosed, State.passBoundary_passBoundary]

/-- A step that answers a next state ran one decoded instruction of a live core. -/
theorem step_cases {s t : State} (h : step s = .next t) :
    s.hostClosed = false ∧ s.status = .running ∧ s.pc.toNat < 0xFDF0 ∧
      ∃ i u, decode s.fetch = .ok i ∧ exec i s.passBoundary.beginStep.advancePc = .next u ∧
        t = u.endStep := by
  cases hc : s.hostClosed with
  | true => rw [step_of_closed hc] at h; cases h
  | false =>
    cases hr : s.status with
    | faulted r => rw [step_of_faulted hc hr] at h; cases h
    | running =>
      by_cases hp : 0xFDF0 ≤ s.pc.toNat
      · rw [step_of_pcRange hc hr hp] at h; cases h
      · cases hd : decode s.fetch with
        | error e => cases e; rw [step_of_badOpcode hc hr (by omega) hd] at h; cases h
        | ok i =>
          rw [step_of_decode hc hr (by omega) hd] at h
          refine ⟨rfl, rfl, by omega, i, ?_⟩
          cases he : exec i s.passBoundary.beginStep.advancePc with
          | next u => rw [he] at h; exact ⟨u, rfl, rfl, by cases h; rfl⟩
          | fault f => rw [he] at h; cases h
          | refused r => rw [he] at h; cases h

/-! ## Runs -/

/-- A run of one step more takes the step first. -/
theorem run_succ_of_next {M : Host.Core} {n : Nat} {s t : M.State} (h : M.step s = .next t) :
    M.run (n + 1) s = M.run n t := by simp only [Host.Core.run, h]

theorem run_add {M : Host.Core} {m n : Nat} {s t : M.State} (h : M.run m s = .next t) :
    M.run (m + n) s = M.run n t := by
  induction m generalizing s with
  | zero => cases h; rw [Nat.zero_add]
  | succ m ih =>
    rw [show m + 1 + n = (m + n) + 1 by omega]
    cases e : M.step s with
    | next u => rw [run_succ_of_next e] at h ⊢; exact ih h
    | fault f => simp [Host.Core.run, e] at h
    | refused r => simp [Host.Core.run, e] at h

end Sys2Proof.Machine
end

