-- ==== Sys2Proof/Tests/Slice0.lean ====
section
/-! SUPPORT. The model's own tests. Every expected value is one of spec/95_test_vectors.md or is worked by hand
from the rule the test names; no value is the model's own answer. -/

namespace Sys2Proof.Tests

open Sys2Proof.Machine Sys2Proof.Claims

/-! ## Helpers -/

/-- The state after reset with registers set. -/
def withRegs (rs : List (Reg × Word)) : State :=
  rs.foldl (fun s p => s.setReg p.1 p.2) State.reset

/-- The state with bytes of memory set. -/
def putBytes (s : State) (a : Nat) (bs : List Byte) : State := { s with mem := s.mem.writeBytes a bs }

/-- The state after one step that runs the word, none where the step stops. -/
def ran (s : State) (w : Nat) : Option State :=
  match step (s.withFetchWord 32 w) with
  | .next t => some t
  | _ => none

/-- The fault of one step that runs the word, none where it does not fault. -/
def stopped (s : State) (w : Nat) : Option Fault :=
  match step (s.withFetchWord 32 w) with
  | .fault f => some f
  | _ => none

/-! ## Well-formedness -/

/-- Condition index 0xF is ill formed in `Jx` (30_encoding.md R80). -/
theorem test_wellFormed_refuses_jx_15 : (Instr.jx 15 0x0100).wellFormed = false := by decide

/-- Condition index 0xF is ill formed in `Cx` (30_encoding.md R80). -/
theorem test_wellFormed_refuses_cx_15 : (Instr.cx 15 0x0100).wellFormed = false := by decide

theorem test_wellFormed_accepts_jx_14 : (Instr.jx 14 0x0100).wellFormed = true := by decide

/-! ## Decoding: every constructor by a word written out from 30_encoding.md R73 to R78

The opcode byte is the row's; `b1` is `ry:rx`; an immediate is `b2` low, `b3` high. -/

theorem test_decode_core :
    decodeTableWord 32 0x00000000 = some .nop ∧ decodeTableWord 32 0x01000000 = some .cls ∧
    decodeTableWord 32 0x02000000 = some .vblnk ∧ decodeTableWord 32 0x03000700 = some (.bgc 7) ∧
    decodeTableWord 32 0x04000408 = some (.spr 4 8) ∧
    decodeTableWord 32 0x05100001 = some (.drw 0 1 0x0100) ∧
    decodeTableWord 32 0x06210300 = some (.drw2 1 2 3) ∧
    decodeTableWord 32 0x07030A00 = some (.rnd 3 10) ∧
    decodeTableWord 32 0x08000002 = some (.flip true false) := by decide

theorem test_decode_sound :
    decodeTableWord 32 0x09000000 = some .snd0 ∧ decodeTableWord 32 0x0A003412 = some (.snd1 0x1234) ∧
    decodeTableWord 32 0x0B003412 = some (.snd2 0x1234) ∧
    decodeTableWord 32 0x0C003412 = some (.snd3 0x1234) ∧
    decodeTableWord 32 0x0D053412 = some (.snp 5 0x1234) ∧
    decodeTableWord 32 0x0E123456 = some (.sng 0x12 0x34 0x56) := by decide

theorem test_decode_control :
    decodeTableWord 32 0x10001020 = some (.jmp 0x2010) ∧
    decodeTableWord 32 0x11000003 = some (.jmc 0x0300) ∧
    decodeTableWord 32 0x12010800 = some (.jx 1 0x0008) ∧
    decodeTableWord 32 0x13210020 = some (.jme 1 2 0x2000) ∧
    decodeTableWord 32 0x14000003 = some (.call 0x0300) ∧ decodeTableWord 32 0x15000000 = some .ret ∧
    decodeTableWord 32 0x16030000 = some (.jmp2 3) ∧
    decodeTableWord 32 0x17090004 = some (.cx 9 0x0400) ∧
    decodeTableWord 32 0x18050000 = some (.call2 5) := by decide

theorem test_decode_loadStore :
    decodeTableWord 32 0x20053412 = some (.ldi 5 0x1234) ∧
    decodeTableWord 32 0x2100F0FD = some (.ldi2 0xFDF0) ∧
    decodeTableWord 32 0x22030030 = some (.ldm 3 0x3000) ∧
    decodeTableWord 32 0x23210000 = some (.ldm2 1 2) ∧ decodeTableWord 32 0x24700000 = some (.mov 0 7) ∧
    decodeTableWord 32 0x30020030 = some (.stm 2 0x3000) ∧
    decodeTableWord 32 0x31100000 = some (.stm2 0 1) := by decide

theorem test_decode_arithmetic :
    decodeTableWord 32 0x4005FFFF = some (.addi 5 0xFFFF) ∧
    decodeTableWord 32 0x41100000 = some (.add 0 1) ∧ decodeTableWord 32 0x42210300 = some (.add2 1 2 3) ∧
    decodeTableWord 32 0x50010100 = some (.subi 1 1) ∧ decodeTableWord 32 0x51100000 = some (.sub 0 1) ∧
    decodeTableWord 32 0x52210300 = some (.sub2 1 2 3) ∧
    decodeTableWord 32 0x53040500 = some (.cmpi 4 5) ∧ decodeTableWord 32 0x54100000 = some (.cmp 0 1) := by
  decide

theorem test_decode_bitwise :
    decodeTableWord 32 0x6000F00F = some (.andi 0 0x0FF0) ∧
    decodeTableWord 32 0x61100000 = some (.and 0 1) ∧ decodeTableWord 32 0x62100200 = some (.and2 0 1 2) ∧
    decodeTableWord 32 0x63020400 = some (.tsti 2 4) ∧ decodeTableWord 32 0x64100000 = some (.tst 0 1) ∧
    decodeTableWord 32 0x70000100 = some (.ori 0 1) ∧ decodeTableWord 32 0x71100000 = some (.or 0 1) ∧
    decodeTableWord 32 0x72100500 = some (.or2 0 1 5) ∧
    decodeTableWord 32 0x8000FFFF = some (.xori 0 0xFFFF) ∧
    decodeTableWord 32 0x81100000 = some (.xor 0 1) ∧ decodeTableWord 32 0x82100200 = some (.xor2 0 1 2) := by
  decide

theorem test_decode_mulDiv :
    decodeTableWord 32 0x90015655 = some (.muli 1 0x5556) ∧
    decodeTableWord 32 0x91100000 = some (.mul 0 1) ∧ decodeTableWord 32 0x92100200 = some (.mul2 0 1 2) ∧
    decodeTableWord 32 0xA0010200 = some (.divi 1 2) ∧ decodeTableWord 32 0xA1100000 = some (.div 0 1) ∧
    decodeTableWord 32 0xA2100200 = some (.div2 0 1 2) ∧ decodeTableWord 32 0xA3010200 = some (.modi 1 2) ∧
    decodeTableWord 32 0xA4100000 = some (.mod 0 1) ∧ decodeTableWord 32 0xA5100200 = some (.mod2 0 1 2) ∧
    decodeTableWord 32 0xA6010200 = some (.remi 1 2) ∧ decodeTableWord 32 0xA7100000 = some (.rem 0 1) ∧
    decodeTableWord 32 0xA8100200 = some (.rem2 0 1 2) := by decide

theorem test_decode_shift :
    decodeTableWord 32 0xB0030400 = some (.shl 3 4) ∧ decodeTableWord 32 0xB1030400 = some (.shr 3 4) ∧
    decodeTableWord 32 0xB2030F00 = some (.sar 3 15) ∧ decodeTableWord 32 0xB3100000 = some (.shl2 0 1) ∧
    decodeTableWord 32 0xB4100000 = some (.shr2 0 1) ∧ decodeTableWord 32 0xB5100000 = some (.sar2 0 1) := by
  decide

theorem test_decode_stack :
    decodeTableWord 32 0xC0020000 = some (.push 2) ∧ decodeTableWord 32 0xC1040000 = some (.pop 4) ∧
    decodeTableWord 32 0xC2000000 = some .pushall ∧ decodeTableWord 32 0xC3000000 = some .popall ∧
    decodeTableWord 32 0xC4000000 = some .pushf ∧ decodeTableWord 32 0xC5000000 = some .popf := by decide

theorem test_decode_paletteUnary :
    decodeTableWord 32 0xD0000020 = some (.pal 0x2000) ∧ decodeTableWord 32 0xD1010000 = some (.pal2 1) ∧
    decodeTableWord 32 0xE000FFFF = some (.noti 0 0xFFFF) ∧ decodeTableWord 32 0xE1030000 = some (.not 3) ∧
    decodeTableWord 32 0xE2100000 = some (.not2 0 1) ∧ decodeTableWord 32 0xE3000080 = some (.negi 0 0x8000) ∧
    decodeTableWord 32 0xE4030000 = some (.neg 3) ∧ decodeTableWord 32 0xE5100000 = some (.neg2 0 1) := by
  decide

/-- Ignored bits are ignored (R76): `b1[7:4]` of `Jx`, the high nibble of a shift count, bits 7..2 of `FLIP`. -/
theorem test_decode_ignored_bits :
    decodeTableWord 32 0x12F10800 = some (.jx 1 0x0008) ∧
    decodeTableWord 32 0xB000F100 = some (.shl 0 1) ∧ decodeTableWord 32 0x03001F00 = some (.bgc 15) ∧
    decodeTableWord 32 0x080000FF = some (.flip true true) := by decide

/-- The first byte above each family of 30_encoding.md R79, and 0xFF, is no opcode. -/
theorem test_decode_invalid :
    [0x0F, 0x19, 0x25, 0x32, 0x43, 0x55, 0x65, 0x73, 0x83, 0x93, 0xA9, 0xB6, 0xC6, 0xD2, 0xE6, 0xF0,
      0xFF].map (fun b => decodeTableWord 32 (b * 2 ^ 24)) = List.replicate 17 none := by decide

/-! ## The step and the scheduler -/

/-- Example E1: `JMP 0x2010` at 0 sets `pc` to 0x2010 exactly. -/
theorem test_jmp : (ran State.reset 0x10001020).map (·.pc) = some 0x2010 := by decide

/-- 10_state.md R23: `pc` advances by 4. -/
theorem test_nop_advances : (ran State.reset 0x00000000).map (·.pc) = some 4 := by decide

/-- 30_encoding.md R70: at the stack base the step faults before the fetch. -/
theorem test_pcRange :
    stopped (State.reset.setPc 0xFDF0) 0x00000000 = some (.pcRange 0xFDF0) := by decide

/-- The last address an instruction can be fetched from, at an odd address (60_exceptions.md R263). -/
theorem test_fetch_at_bound : (ran (State.reset.setPc 0xFDEF) 0x00000000).map (·.pc) = some 0xFDF3 := by
  decide

theorem test_badOpcode : stopped State.reset 0x0F000000 = some (.badOpcode 0x0F) := by decide

/-- The fault record of 60_exceptions.md R261. -/
theorem test_fault_record :
    ((State.reset.setPc 0x0100).withFetchWord 32 0x120F0800).settle.status =
      .faulted { fault := .badCond 15, pc0 := 0x0100, bytes := some ⟨0x12, 0x0F, 0x08, 0x00⟩ } := by decide

theorem test_hostClose : step State.reset.hostClose = .refused .hostClosed := rfl

/-- 60_exceptions.md R272, R283: a close between a frame's last step and its boundary; the input is not written. -/
theorem test_closeBeforeBoundary :
    ({ State.reset with framePos := Config.stepsPerFrame, mem := { cells := [], ctrl1 := 5, ctrl2 := 6 } } :
      State).hostClose.passBoundary.mem.ctrl1 = 5 := rfl

/-- 60_exceptions.md R274, R276: at a frame's boundary, if the host renders, the sink is told the frame, once. -/
theorem test_renderAtBoundary (h : Config.freeRender 0 = true) :
    ({ State.reset with framePos := Config.stepsPerFrame, bg := 2, fb := [(325, 3)] } :
      State).passBoundary.renders =
      [{ frame := 0, fb := [(325, 3)], pal := Config.defaultPalette, bg := 2 }] := by
  have hd : ({ State.reset with framePos := Config.stepsPerFrame, bg := 2, fb := [(325, 3)] } :
      State).boundaryDue = true := State.boundaryDue_iff.mpr ⟨rfl, Nat.le_refl _⟩
  rw [State.passBoundary_renders, hd, Bool.true_and]
  exact if_pos h

/-- In a frame's last step `VBLNK` falls through, whatever the frame's length (48_graphics.md R224). -/
theorem test_vblnk_falls_through :
    (State.reset.setPc 0x0100).vblank = false ∧
    execVblnk { State.reset with pc := 0x0104, vblank := true } =
      .next { State.reset with pc := 0x0104, vblank := true } ∧
    execVblnk { State.reset with pc := 0x0104 } = .next { State.reset with pc := 0x0100 } :=
  ⟨rfl, rfl, rfl⟩

/-! ## Control flow (95_test_vectors.md section 2.6) -/

theorem test_jmc :
    (ran { State.reset with pc := 0x0100, flags := 0x02 } 0x11000003).map (·.pc) = some 0x0300 ∧
    (ran { State.reset with pc := 0x0100 } 0x11000003).map (·.pc) = some 0x0104 := by decide

theorem test_jx :
    (ran { State.reset with pc := 0x0010 } 0x12010800).map (·.pc) = some 0x0008 ∧
    (ran { State.reset with pc := 0x0010, flags := 0x04 } 0x12010800).map (·.pc) = some 0x0014 ∧
    stopped State.reset 0x120F0800 = some (.badCond 15) := by decide

theorem test_jme :
    (ran (withRegs [(1, 0x8000), (2, 0x8000)]) 0x13210020).map (·.pc) = some 0x2000 ∧
    (ran (withRegs [(1, 1), (2, 2)]) 0x13210020).map (·.pc) = some 0x0004 := by decide

theorem test_call :
    (ran { State.reset with pc := 0x0100 } 0x14000003).map
      (fun t => (t.pc, t.sp, t.mem.readByte 0xFDF0, t.mem.readByte 0xFDF1)) =
      some (0x0300, 0xFDF2, 0x04, 0x01) ∧
    stopped { State.reset with sp := 0xFFFE } 0x14000003 = some (.stackRange 0xFFFE) := by decide

theorem test_ret :
    (ran (putBytes { State.reset with sp := 0xFDF2 } 0xFDF0 [0x04, 0x01]) 0x15000000).map
      (fun t => (t.pc, t.sp)) = some (0x0104, 0xFDF0) ∧
    stopped { State.reset with sp := 1 } 0x15000000 = some (.stackRange 1) := by decide

theorem test_jmp2 : (ran (withRegs [(3, 0x1234)]) 0x16030000).map (·.pc) = some 0x1234 := by decide

theorem test_cx :
    (ran { State.reset with pc := 0x0200, flags := 0x02 } 0x17090004).map
      (fun t => (t.pc, t.sp, t.mem.readWord 0xFDF0)) = some (0x0400, 0xFDF2, 0x0204) ∧
    (ran { State.reset with pc := 0x0200 } 0x17090004).map
      (fun t => (t.pc, t.sp, t.mem.readWord 0xFDF0)) = some (0x0204, 0xFDF0, 0) := by decide

theorem test_call2 :
    (ran { withRegs [(0, 0x0500)] with pc := 0x0010 } 0x18000000).map
      (fun t => (t.pc, t.sp, t.mem.readWord 0xFDF0)) = some (0x0500, 0xFDF2, 0x0014) := by decide

/-- The truth table of 10_state.md R30 for three `FLAGS` values (95_test_vectors.md section 2.6). -/
theorem test_conditions :
    ((List.finRange 15).map fun i => (condition (i.castLE (by decide)) 0x40).getD false) =
      [false, true, false, true, true, true, false, true, true, false, false, false, false, true, true] ∧
    ((List.finRange 15).map fun i => (condition (i.castLE (by decide)) 0x82).getD false) =
      [false, true, true, false, false, false, true, false, false, true, true, false, false, true, true] ∧
    ((List.finRange 15).map fun i => (condition (i.castLE (by decide)) 0x06).getD false) =
      [true, false, false, true, false, false, true, false, false, true, true, false, true, false, true] := by
  decide

/-! ## Loads and stores (section 2.5) -/

theorem test_ldi : (ran State.reset 0x20053412).map (fun t => (t.reg 5, t.flags)) = some (0x1234, 0) := by
  decide

theorem test_ldi2 : (ran { State.reset with sp := 0 } 0x2100F0FD).map (·.sp) = some 0xFDF0 := by decide

theorem test_ldm :
    (ran (putBytes State.reset 0x3001 [0xAA, 0xBB]) 0x22030130).map (·.reg 3) = some 0xBBAA ∧
    stopped State.reset 0x2203FFFF = some (.memRange 0xFFFF) := by decide

theorem test_ldm2 :
    (ran (putBytes (withRegs [(2, 0x3000)]) 0x3000 [0xCD, 0xAB]) 0x23210000).map (·.reg 1) =
      some 0xABCD := by decide

theorem test_mov : (ran (withRegs [(7, 0x8001)]) 0x24700000).map (·.reg 0) = some 0x8001 := by decide

theorem test_stm :
    (ran (withRegs [(2, 0x1234)]) 0x30020030).map
      (fun t => (t.mem.readByte 0x3000, t.mem.readByte 0x3001)) = some (0x34, 0x12) ∧
    stopped (withRegs [(2, 0x1234)]) 0x3002FFFF = some (.memRange 0xFFFF) := by decide

theorem test_stm2 :
    (ran (withRegs [(0, 0xBEEF), (1, 0x4000)]) 0x31100000).map
      (fun t => (t.mem.readByte 0x4000, t.mem.readByte 0x4001)) = some (0xEF, 0xBE) ∧
    (ran (withRegs [(1, 0x4000)]) 0x31110000).map
      (fun t => (t.mem.readByte 0x4000, t.mem.readByte 0x4001)) = some (0x00, 0x40) := by decide

/-! ## Addition, subtraction, compare (section 2.1) -/

theorem test_addi : (ran State.reset 0x4005FFFF).map (fun t => (t.reg 5, t.flags)) = some (0xFFFF, 0x80) := by
  decide

theorem test_add :
    (ran (withRegs [(0, 0x7FFF), (1, 1)]) 0x41100000).map (fun t => (t.reg 0, t.flags)) =
      some (0x8000, 0xC0) ∧
    (ran (withRegs [(0, 0x8000), (1, 0x8000)]) 0x41100000).map (fun t => (t.reg 0, t.flags)) =
      some (0x0000, 0x46) := by decide

theorem test_add2 :
    (ran (withRegs [(0, 0x8000), (1, 0xFFFF)]) 0x42100200).map (fun t => (t.reg 0, t.reg 2, t.flags)) =
      some (0x8000, 0x7FFF, 0x42) := by decide

theorem test_subi :
    (ran State.reset 0x50010080).map (fun t => (t.reg 1, t.flags)) = some (0x8000, 0xC2) := by decide

theorem test_sub :
    (ran (withRegs [(0, 0x8000), (1, 1)]) 0x51100000).map (fun t => (t.reg 0, t.flags)) =
      some (0x7FFF, 0x40) ∧
    (ran (withRegs [(0, 3), (1, 5)]) 0x51100000).map (fun t => (t.reg 0, t.flags)) =
      some (0xFFFE, 0x82) := by decide

theorem test_sub2 :
    (ran (withRegs [(0, 0x7FFF), (1, 0xFFFF)]) 0x52100200).map (fun t => (t.reg 0, t.reg 2, t.flags)) =
      some (0x7FFF, 0x8000, 0xC2) := by decide

theorem test_cmpi :
    (ran (withRegs [(4, 5)]) 0x53040500).map (fun t => (t.reg 4, t.flags)) = some (5, 0x04) := by decide

theorem test_cmp :
    (ran (withRegs [(0, 0x8000), (1, 1)]) 0x54100000).map (fun t => (t.reg 0, t.flags)) =
      some (0x8000, 0x40) := by decide

/-! ## Bitwise, complement, negation (section 2.2): `FLAGS` starts at 0x42 -/

/-- Registers set and `FLAGS` 0x42, to show that `C` and `O` are kept. -/
def keeping (rs : List (Reg × Word)) : State := { withRegs rs with flags := 0x42 }

theorem test_and :
    (ran (keeping [(0, 0xF0F0)]) 0x6000F00F).map (fun t => (t.reg 0, t.flags)) = some (0x00F0, 0x42) ∧
    (ran (keeping [(0, 0xF000), (1, 0x0FFF)]) 0x61100000).map (fun t => (t.reg 0, t.flags)) =
      some (0, 0x46) ∧
    (ran (keeping [(0, 0x8001), (1, 0x8000)]) 0x62100200).map (fun t => (t.reg 2, t.flags)) =
      some (0x8000, 0xC2) := by decide

theorem test_tst :
    (ran (keeping [(2, 4)]) 0x63020400).map (fun t => (t.reg 2, t.flags)) = some (4, 0x42) ∧
    (ran (keeping [(0, 0x00FF), (1, 0xFF00)]) 0x64100000).map (fun t => (t.reg 0, t.flags)) =
      some (0x00FF, 0x46) := by decide

theorem test_or :
    (ran (keeping [(0, 0x8000)]) 0x70000100).map (fun t => (t.reg 0, t.flags)) = some (0x8001, 0xC2) ∧
    (ran (keeping [(0, 0x0F00), (1, 0x00F0)]) 0x71100000).map (fun t => (t.reg 0, t.flags)) =
      some (0x0FF0, 0x42) ∧
    (ran (keeping []) 0x72100500).map (fun t => (t.reg 5, t.flags)) = some (0, 0x46) := by decide

theorem test_xor :
    (ran (keeping [(0, 0x00FF)]) 0x8000FFFF).map (fun t => (t.reg 0, t.flags)) = some (0xFF00, 0xC2) ∧
    (ran (keeping [(0, 0x1234)]) 0x81000000).map (fun t => (t.reg 0, t.flags)) = some (0, 0x46) ∧
    (ran (keeping [(0, 0x1234), (1, 0x1230)]) 0x82100200).map (fun t => (t.reg 2, t.flags)) =
      some (0x0004, 0x42) := by decide

theorem test_not :
    (ran State.reset 0xE0000000).map (fun t => (t.reg 0, t.flags)) = some (0xFFFF, 0x80) ∧
    (ran (withRegs [(0, 0xFFFF)]) 0xE1000000).map (fun t => (t.reg 0, t.flags)) = some (0, 0x04) ∧
    (ran (withRegs [(1, 0x00FF)]) 0xE2100000).map (fun t => (t.reg 0, t.reg 1, t.flags)) =
      some (0xFF00, 0x00FF, 0x80) := by decide

theorem test_neg :
    (ran State.reset 0xE3000100).map (fun t => (t.reg 0, t.flags)) = some (0xFFFF, 0x80) ∧
    (ran (withRegs [(0, 0x8000)]) 0xE4000000).map (fun t => (t.reg 0, t.flags)) = some (0x8000, 0x80) ∧
    (ran (withRegs [(1, 0xFFFF)]) 0xE5100000).map (fun t => (t.reg 0, t.flags)) = some (1, 0) := by decide

/-! ## Multiply and divide (section 2.3) -/

theorem test_mul :
    (ran { withRegs [(0, 0xFFFF), (1, 2)] with flags := 0x40 } 0x91100000).map
      (fun t => (t.reg 0, t.flags)) = some (0xFFFE, 0xC2) ∧
    (ran { withRegs [(0, 0x0100), (1, 0x0100)] with flags := 0x40 } 0x92100200).map
      (fun t => (t.reg 2, t.flags)) = some (0, 0x46) := by decide

theorem test_muli :
    (ran (withRegs [(1, 3)]) 0x90015655).map (fun t => (t.reg 1, t.flags)) = some (2, 0x02) := by decide

/-- -7 and 3: quotient -2 inexact, MOD 2, REM -1. -/
theorem test_div_mod_rem :
    (ran (withRegs [(0, 0xFFF9), (1, 3)]) 0xA1100000).map (fun t => (t.reg 0, t.flags)) =
      some (0xFFFE, 0x82) ∧
    (ran (withRegs [(0, 0xFFF9), (1, 3)]) 0xA4100000).map (fun t => (t.reg 0, t.flags)) = some (2, 0) ∧
    (ran (withRegs [(0, 0xFFF9), (1, 3)]) 0xA7100000).map (fun t => (t.reg 0, t.flags)) =
      some (0xFFFF, 0x80) := by decide

/-- 7 and -3 in the three-register forms: -2, -2, 1. -/
theorem test_div2_mod2_rem2 :
    (ran (withRegs [(0, 7), (1, 0xFFFD)]) 0xA2100200).map (fun t => (t.reg 2, t.flags)) =
      some (0xFFFE, 0x82) ∧
    (ran (withRegs [(0, 7), (1, 0xFFFD)]) 0xA5100200).map (fun t => (t.reg 2, t.flags)) =
      some (0xFFFE, 0x80) ∧
    (ran (withRegs [(0, 7), (1, 0xFFFD)]) 0xA8100200).map (fun t => (t.reg 2, t.flags)) = some (1, 0) := by
  decide

/-- -32768 and 3, and the row whose MOD sum 65533 must not wrap (D14), in the immediate forms. -/
theorem test_divi_modi_remi :
    (ran (withRegs [(1, 0x8000)]) 0xA0010300).map (fun t => (t.reg 1, t.flags)) = some (0xD556, 0x82) ∧
    (ran (withRegs [(1, 0x7FFE)]) 0xA301FF7F).map (fun t => (t.reg 1, t.flags)) = some (0x7FFE, 0) ∧
    (ran (withRegs [(1, 0x8000)]) 0xA6010300).map (fun t => (t.reg 1, t.flags)) = some (0xFFFE, 0x80) := by
  decide

theorem test_division_faults :
    stopped (withRegs [(0, 5)]) 0xA1100000 = some (.divZero 5) ∧
    stopped (withRegs [(0, 0x8000), (1, 0xFFFF)]) 0xA4100000 = some (.divOverflow 0x8000 0xFFFF) := by decide

/-! ## Shifts (section 2.4) -/

theorem test_shl :
    (ran (withRegs [(0, 0x4001)]) 0xB0000100).map (fun t => (t.reg 0, t.flags)) = some (0x8002, 0x80) ∧
    (ran (withRegs [(0, 0x4000), (1, 14)]) 0xB3100000).map (fun t => (t.reg 0, t.flags)) = some (0, 0x04) := by
  decide

theorem test_shr :
    (ran (withRegs [(0, 0x8001)]) 0xB1000100).map (fun t => (t.reg 0, t.flags)) = some (0x4000, 0) ∧
    (ran (withRegs [(0, 0x8000), (1, 15)]) 0xB4100000).map (fun t => (t.reg 0, t.flags)) = some (1, 0) := by
  decide

theorem test_sar :
    (ran (withRegs [(0, 0x8001)]) 0xB2000100).map (fun t => (t.reg 0, t.flags)) = some (0xC000, 0x80) ∧
    (ran (withRegs [(0, 0xFFFF), (1, 4)]) 0xB5100000).map (fun t => (t.reg 0, t.flags)) =
      some (0xFFFF, 0x80) := by decide

theorem test_shift_range :
    stopped (withRegs [(1, 0x0010)]) 0xB3100000 = some (.shiftRange 0x0010) := by decide

/-! ## The stack (section 2.7) -/

/-- S1 and S4. -/
theorem test_push :
    (ran { withRegs [(2, 0x1234)] with sp := 0xFDF2 } 0xC0020000).map
      (fun t => (t.mem.readByte 0xFDF2, t.mem.readByte 0xFDF3, t.sp)) = some (0x34, 0x12, 0xFDF4) ∧
    (ran { withRegs [(0, 0xABCD)] with sp := 0xFFFD } 0xC0000000).map
      (fun t => (t.mem.readByte 0xFFFD, t.mem.readByte 0xFFFE, t.sp)) = some (0xCD, 0xAB, 0xFFFF) := by
  decide

/-- S2. -/
theorem test_pop :
    (ran (putBytes { State.reset with sp := 0xFDF4 } 0xFDF2 [0x34, 0x12]) 0xC1040000).map
      (fun t => (t.reg 4, t.sp, t.mem.readByte 0xFDF2)) = some (0x1234, 0xFDF2, 0x34) := by decide

/-- S5 and S6. -/
theorem test_pushall :
    (ran (withRegs [(1, 1), (5, 0xBEEF), (15, 15)]) 0xC2000000).map
      (fun t => (t.mem.readWord 0xFDF2, t.mem.readWord 0xFDFA, t.mem.readWord 0xFE0E, t.sp)) =
      some (1, 0xBEEF, 15, 0xFE10) ∧
    stopped { State.reset with sp := 0xFFE0 } 0xC2000000 = some (.stackRange 0xFFE0) := by decide

theorem test_popall :
    (ran (putBytes { State.reset with sp := 0xFE10 } 0xFDF0 [7, 0, 1, 0]) 0xC3000000).map
      (fun t => (t.reg 0, t.reg 1, t.reg 2, t.sp)) = some (7, 1, 0, 0xFDF0) ∧
    stopped { State.reset with sp := 0x001F } 0xC3000000 = some (.stackRange 0x001F) := by decide

/-- S9. -/
theorem test_pushf :
    (ran { State.reset with flags := 0xC6 } 0xC4000000).map (fun t => (t.mem.readWord 0xFDF0, t.sp)) =
      some (0x00C6, 0xFDF2) := by decide

/-- S10 and S12. -/
theorem test_popf :
    (ran (putBytes { State.reset with sp := 0xFDF2 } 0xFDF0 [0xFF, 0xFF]) 0xC5000000).map
      (fun t => (t.flags, t.sp)) = some (0xC6, 0xFDF0) ∧
    (ran (putBytes { State.reset with sp := 0xFDF2, flags := 0xC6 } 0xFDF0 [0x39, 0x12]) 0xC5000000).map
      (·.flags) = some 0x00 := by decide

/-! ## Palette (section 2.8) and graphics (section 2.9) -/

theorem test_pal :
    (ran (putBytes State.reset 0x2000 [0xFF, 0x80, 0x00, 0x00, 0x00, 0x01]) 0xD0000020).map
      (fun t => (t.pal[0], t.pal[1])) = some (0x00FF8000, 0x00000001) ∧
    stopped State.reset 0xD000D1FF = some (.memRange 0xFFD1) := by decide

theorem test_pal2 :
    (ran (putBytes (withRegs [(1, 0x2000)]) 0x202D [1, 2, 3]) 0xD1010000).map (fun t => t.pal[15]) =
      some 0x00010203 := by decide

/-- A sprite of the given size and data at 0x0100, drawn at column `x`, row `y`. -/
def sprite (w h : Byte) (data : List Byte) (x y : Word) : State :=
  putBytes { withRegs [(0, x), (1, y)] with spritew := w, spriteh := h } 0x0100 data

/-- G1 and G2. -/
theorem test_drw :
    (ran (sprite 1 1 [0x12] 10 5) 0x05100001).map
      (fun t => (t.fbCell 5 10, t.fbCell 5 11, t.flags)) = some (1, 2, 0) ∧
    (ran { sprite 1 1 [0x12] 10 5 with fb := [(1610, 1), (1611, 2)] } 0x05100001).map
      (fun t => (t.fbCell 5 10, t.fbCell 5 11, t.flags)) = some (1, 2, 0x02) := by decide

/-- G6, both flips, through `DRW2`; and G11, clipped at the left edge. -/
theorem test_drw2 :
    (ran { (sprite 2 2 [0x12, 0x34, 0x56, 0x78] 0 0).setReg 2 0x0100 with hflip := true, vflip := true }
      0x06100200).map (fun t => (t.fbCell 0 0, t.fbCell 0 3, t.fbCell 1 0, t.fbCell 1 3)) =
      some (8, 5, 4, 1) ∧
    (ran ((sprite 1 1 [0x12] 0xFFFF 0).setReg 2 0x0100) 0x06100200).map
      (fun t => (t.fbCell 0 0, t.fb.length)) = some (2, 1) := by decide

/-- G18 faults, G19 is culled first, G17 clears `C`. -/
theorem test_drw_range :
    stopped (sprite 2 2 [] 0 0) 0x0510FEFF = some (.memRange 0xFFFE) ∧
    (ran { sprite 2 2 [] 400 0 with flags := 0x02 } 0x0510FEFF).map (fun t => (t.fb, t.flags)) =
      some ([], 0) := by decide

theorem test_cls :
    (ran { State.reset with bg := 5, fb := [(0, 3)], spritew := 2, hflip := true } 0x01000000).map
      (fun t => (t.bg, t.fb, t.spritew, t.hflip)) = some (0, [], 2, true) := by decide

theorem test_bgc : (ran State.reset 0x03000700).map (·.bg) = some 7 := by decide

theorem test_spr : (ran State.reset 0x04000408).map (fun t => (t.spritew, t.spriteh)) = some (4, 8) := by
  decide

/-- Example E3 and the row that clears one flip and sets the other. -/
theorem test_flip :
    (ran State.reset 0x08000003).map (fun t => (t.hflip, t.vflip)) = some (true, true) ∧
    (ran { State.reset with hflip := true } 0x08000001).map (fun t => (t.hflip, t.vflip)) =
      some (false, true) := by decide

/-- The interval `[0, 0)` is empty: `RND` with limit 0 faults (48_graphics.md R225). -/
theorem test_rnd_limit_zero : stopped State.reset 0x07030000 = some (.rndRange 0) := by decide

/-- The sound instructions and `NOP` leave the state as it is (49_sound_nop.md R257). -/
theorem test_sound :
    (ran (withRegs [(5, 7)]) 0x0D05FFFF).map (fun t => (t.reg 5, t.pc, t.mem.readByte 0xFFFF)) =
      some (7, 4, 0) ∧
    (ran State.reset 0x0E123456).map (fun t => (t.pc, t.flags)) = some (4, 0) := by decide

/-! ## Loading (70_reset_and_hazards.md R291, R292) -/

/-- A header with size field 4, entry 0x0002 and four bytes of code; and example E8, the size field wrong. -/
theorem test_loadC16 :
    (match State.reset.loadC16 ([0x43, 0x48, 0x31, 0x36, 0, 0x10, 4, 0, 0, 0, 0, 0, 0, 0, 2, 0] ++
        [0x10, 0, 2, 0]) with
      | .ok t => some (t.pc, t.mem.readByte 0, t.mem.readByte 2)
      | .error _ => none) = some (2, 0x10, 2) ∧
    State.reset.loadC16 ([0x43, 0x48, 0x31, 0x36, 0, 0x10, 5, 0, 0, 0, 0, 0, 0, 0, 2, 0] ++
        [0x10, 0, 2, 0]) = .error .sizeMismatch := ⟨by decide, rfl⟩

/-- The default palette shown: index 0 as `PAL[bg]`, index 3 as `PAL[3]` (60_exceptions.md R276). -/
theorem test_colour :
    ({ State.reset with bg := 2, fb := [(325, 3)] }).colour 1 5 = 0x00BF3932 ∧
    ({ State.reset with bg := 2, fb := [(325, 3)] }).colour 1 6 = 0x00888888 := by decide

/-! ## Witnesses

For every statement of Certificates/Slice0/Obligations.lean with hypotheses, a concrete state and operands that
meet them together, one per clause, at the boundary of the clause's range. -/

/-- A state after reset with its `pc` and the first bytes there. -/
def atPc (pc : Word) (bs : List Byte) : State := putBytes { State.reset with pc := pc } pc.toNat bs

/-- A live state that meets the invariant: the four flags set, `VBLNK` at 4. -/
theorem witness_Inv :
    State.Inv { State.reset with pc := 4, flags := 0xC6, mem := { cells := [(4, 2)], ctrl1 := 0, ctrl2 := 0 } } := by
  refine ⟨by decide, by decide, by decide, by decide, Nat.zero_le _, nofun, .nil⟩

theorem witness_StepKeepsInvariant : ∃ s t : State, s.Inv ∧ step s = .next t :=
  ⟨_, _, witness_Inv, rfl⟩

/-- Both clauses of `StepRunsDecodedInstruction`: `NOP` at the last odd address answers, `Jx` 15 faults. -/
theorem witness_StepRunsDecodedInstruction :
    (Live (atPc 0xFDEF []) ∧ (atPc 0xFDEF []).pc.toNat < 0xFDF0 ∧ decode (atPc 0xFDEF []).fetch = .ok .nop ∧
      ∃ t, exec .nop (handlerState (atPc 0xFDEF [])) = .next t) ∧
    (Live (atPc 0 [0x12, 0x0F]) ∧ decode (atPc 0 [0x12, 0x0F]).fetch = .ok (.jx 15 0) ∧
      exec (.jx 15 0) (handlerState (atPc 0 [0x12, 0x0F])) = .fault (.badCond 15)) :=
  ⟨⟨⟨rfl, rfl⟩, by decide, by decide, _, rfl⟩, ⟨rfl, rfl⟩, by decide, rfl⟩

/-- The bound itself, and an opcode byte outside the table one below it. -/
theorem witness_FetchAndDispatchFaults :
    (Live (atPc 0xFDF0 []) ∧ 0xFDF0 ≤ (atPc 0xFDF0 []).pc.toNat) ∧
    (Live (atPc 0xFDEF [0x0F]) ∧ (atPc 0xFDEF [0x0F]).pc.toNat < 0xFDF0 ∧
      ¬ validOpcode ((atPc 0xFDEF [0x0F]).mem.readByte (atPc 0xFDEF [0x0F]).pc.toNat).toNat) :=
  ⟨⟨⟨rfl, rfl⟩, by decide⟩, ⟨rfl, rfl⟩, by decide, by unfold validOpcode; decide⟩

/-- A fault before the fetch, and one after it. -/
theorem witness_FaultIsTerminal :
    (Live (atPc 0xFDF0 []) ∧ step (atPc 0xFDF0 []) = .fault (.pcRange 0xFDF0)) ∧
    (Live (atPc 0xFDEF [0x0F]) ∧ step (atPc 0xFDEF [0x0F]) = .fault (.badOpcode 0x0F)) :=
  ⟨⟨⟨rfl, rfl⟩, rfl⟩, ⟨rfl, rfl⟩, rfl⟩

/-- A frame's end, its boundary still to come, and its start. -/
theorem witness_FrameBoundaryWritesControllerWords :
    (∃ s t : State, s.Inv ∧ step s = .next t ∧ s.framePos = s.frameLength ∧ s.schedule = .reference) ∧
    ∃ s t : State, s.Inv ∧ step s = .next t ∧ s.framePos < s.frameLength ∧ s.schedule = .hostChosen :=
  ⟨⟨{ State.reset with framePos := Config.stepsPerFrame }, _,
      ⟨by decide, by decide, by decide, by decide, Nat.le_refl _, nofun, .nil⟩, rfl, rfl, rfl⟩,
    State.reset.hostSchedule .hostChosen, _,
    ⟨by decide, by decide, by decide, by decide, Nat.zero_le _, nofun, .nil⟩, rfl, Nat.succ_pos _, rfl⟩

/-- `VBLNK` at the last address below the bound; a frame always has steps left, so `m` = 0 is below them. -/
theorem witness_SpinningVblnkFallsThroughWithinFrame :
    ∃ s : State, Live s ∧ s.Inv ∧ s.pc.toNat < 0xFDF0 ∧ s.mem.readByte s.pc.toNat = 0x02 ∧
      s.schedule = .reference ∧ 0 < stepsLeft s :=
  ⟨atPc 0xFDEF [0x02], ⟨rfl, rfl⟩,
    ⟨by decide, by decide, by decide, by decide, Nat.zero_le _, nofun, .nil⟩, by decide, by decide, rfl,
    Nat.sub_pos_of_lt (State.passBoundary_framePos_lt rfl)⟩

/-- A push that just fits, and one that just does not. -/
theorem witness_ExecRunsExactlyInsideDefinedBehaviour :
    instrRuns (.push 0) { State.reset with sp := 0xFFFD } ∧
    ¬ instrRuns (.push 0) { State.reset with sp := 0xFFFE } := by
  simp only [instrRuns]; decide

theorem witness_DivisionFaults :
    divOperands (.remi 1 0) State.reset = some (0, 0) ∧
    divOperands (.div2 1 2 3) (withRegs [(1, 0x8000), (2, 0xFFFF)]) = some (0x8000, 0xFFFF) := by decide

/-- The first address of each range, and a 1 by 1 sprite at the last column whose data passes 0xFFFF. -/
theorem witness_AddressFaults :
    ((withRegs [(2, 0xFFFF)]).reg 2).toNat = 0xFFFF ∧ 0xFFD0 < (0xFFD1 : Word).toNat ∧
    0xFFD0 < ((withRegs [(1, 0xFFD1)]).reg 1).toNat ∧
    (¬ DrawsNothing (sprite 1 2 [] 319 239) ((sprite 1 2 [] 319 239).reg 0).toInt
        ((sprite 1 2 [] 319 239).reg 1).toInt ∧
      0x10000 < (0xFFFF : Word).toNat + (sprite 1 2 [] 319 239).spritew.toNat *
        (sprite 1 2 [] 319 239).spriteh.toNat) ∧
    (¬ DrawsNothing ((sprite 1 2 [] 319 239).setReg 2 0xFFFF)
        (((sprite 1 2 [] 319 239).setReg 2 0xFFFF).reg 0).toInt
        (((sprite 1 2 [] 319 239).setReg 2 0xFFFF).reg 1).toInt ∧
      0x10000 < (((sprite 1 2 [] 319 239).setReg 2 0xFFFF).reg 2).toNat + 1 * 2) := by
  simp only [DrawsNothing]; decide

theorem witness_StackFaults :
    (0xFFFD < ({ State.reset with sp := 0xFFFE } : State).sp.toNat ∧
      condition 3 ({ State.reset with sp := 0xFFFE } : State).flags = some true) ∧
    ({ State.reset with sp := 1 } : State).sp.toNat < 2 ∧
    0xFFDF < ({ State.reset with sp := 0xFFE0 } : State).sp.toNat ∧
    ({ State.reset with sp := 31 } : State).sp.toNat < 32 := by decide

theorem witness_ShiftCountAndRandomLimitFaults : 16 ≤ ((withRegs [(1, 16)]).reg 1).toNat := by decide

theorem witness_DivPutsTruncatedQuotient :
    divisible ((withRegs [(1, 0x8000), (2, 1)]).reg 1) 1 ∧
    divisible ((withRegs [(1, 0x8000), (2, 1)]).reg 1) ((withRegs [(1, 0x8000), (2, 1)]).reg 2) := by
  simp only [divisible]; decide

theorem witness_ModAndRemPutRemainders :
    divisible ((withRegs [(1, 0x7FFE), (2, 0x7FFF)]).reg 1) 0x7FFF ∧
    divisible ((withRegs [(1, 0x7FFE), (2, 0x7FFF)]).reg 1) ((withRegs [(1, 0x7FFE), (2, 0x7FFF)]).reg 2) := by
  simp only [divisible]; decide

/-- A positive divisor and a negative one. -/
theorem witness_DivisionLaws :
    (divisible ((withRegs [(1, 0xFFF9), (2, 1)]).reg 1) ((withRegs [(1, 0xFFF9), (2, 1)]).reg 2) ∧
      0 < ((withRegs [(1, 0xFFF9), (2, 1)]).reg 2).toInt) ∧
    (divisible ((withRegs [(1, 7), (2, 0xFFFF)]).reg 1) ((withRegs [(1, 7), (2, 0xFFFF)]).reg 2) ∧
      ((withRegs [(1, 7), (2, 0xFFFF)]).reg 2).toInt < 0) := by
  simp only [divisible]; decide

theorem witness_ShiftsPutShiftedValue : ((withRegs [(1, 15)]).reg 1).toNat < 16 := by decide

theorem witness_LoadsAndStores :
    (0xFFFE : Word).toNat < 0xFFFF ∧ ((withRegs [(2, 0xFFFE)]).reg 2).toNat < 0xFFFF := by decide

/-- For `StoreIsSeenByLoadAndFetch`: the last word of memory. -/
theorem witness_StoreIsSeenByLoadAndFetch : (0xFFFE : Word).toNat < 0xFFFF := by decide

theorem witness_ConditionalJumpFollowsCondition :
    (14 : CondIndex).val < 15 ∧ (15 : CondIndex).val = 15 := by decide

theorem witness_CallPushesReturnAddress :
    ({ State.reset with sp := 0xFFFD } : State).sp.toNat ≤ 0xFFFD ∧
    0xFFFD < ({ State.reset with sp := 0xFFFE } : State).sp.toNat := by decide

/-- A taken and a not taken condition in one state whose stack has room for one word. -/
theorem witness_IndirectJumpsAndConditionalCalls :
    ({ State.reset with sp := 0xFFFD } : State).sp.toNat ≤ 0xFFFD ∧
    condition 1 ({ State.reset with sp := 0xFFFD } : State).flags = some true ∧
    condition 0 ({ State.reset with sp := 0xFFFD } : State).flags = some false := by decide

theorem witness_RetPopsPc :
    2 ≤ ({ State.reset with sp := 2 } : State).sp.toNat ∧
    ({ State.reset with sp := 1 } : State).sp.toNat < 2 := by decide

theorem witness_PushAndPopMoveOneWord :
    ({ State.reset with sp := 0xFFFD } : State).sp.toNat ≤ 0xFFFD ∧
    2 ≤ ({ State.reset with sp := 2 } : State).sp.toNat := by decide

theorem witness_PopfKeepsFlagBits : 2 ≤ ({ State.reset with sp := 2 } : State).sp.toNat := by decide

theorem witness_PushallAndPopallMoveSixteenWords :
    ({ State.reset with sp := 0xFFDF } : State).sp.toNat ≤ 0xFFDF ∧
    32 ≤ ({ State.reset with sp := 32 } : State).sp.toNat := by decide

theorem witness_PopallUndoesPushall : ({ State.reset with sp := 0xFFDF } : State).sp.toNat ≤ 0xFFDF := by
  decide

theorem witness_PushPopRoundTrips :
    ({ State.reset with sp := 0xFFFD, flags := 0xC6 } : State).sp.toNat ≤ 0xFFFD ∧
    ({ State.reset with sp := 0xFFFD, flags := 0xC6 } : State).flags &&& ~~~flagMask = 0 := by decide

theorem witness_PaletteLoadsBigEndianTriples :
    (0xFFD0 : Word).toNat ≤ 0xFFD0 ∧ ((withRegs [(1, 0xFFD0)]).reg 1).toNat ≤ 0xFFD0 := by decide

theorem witness_RndDrawsBelowLimit : (1 : Word).toNat ≠ 0 := by decide

/-- G13: one column past the left edge. -/
theorem witness_CulledSpriteOnlyClearsCarry :
    DrawsNothing (sprite 1 1 [0x12] 0xFFFD 0) ((sprite 1 1 [0x12] 0xFFFD 0).reg 0).toInt
      ((sprite 1 1 [0x12] 0xFFFD 0).reg 1).toInt := by
  simp only [DrawsNothing]; decide

/-- G12, not culled, and G20, the data that ends at 0xFFFF. -/
theorem witness_DrawPaintsSpritePicture :
    (¬ DrawsNothing (sprite 2 2 [] 0xFFFC 239) ((sprite 2 2 [] 0xFFFC 239).reg 0).toInt
        ((sprite 2 2 [] 0xFFFC 239).reg 1).toInt ∧
      (0xFFFC : Word).toNat + (sprite 2 2 [] 0xFFFC 239).spritew.toNat *
        (sprite 2 2 [] 0xFFFC 239).spriteh.toNat ≤ 0x10000) ∧
    (¬ DrawsNothing ((sprite 2 2 [] 319 0).setReg 2 0xFFFC)
        (((sprite 2 2 [] 319 0).setReg 2 0xFFFC).reg 0).toInt
        (((sprite 2 2 [] 319 0).setReg 2 0xFFFC).reg 1).toInt ∧
      (((sprite 2 2 [] 319 0).setReg 2 0xFFFC).reg 2).toNat + 2 * 2 ≤ 0x10000) := by
  simp only [DrawsNothing]; decide

/-- G1: the pixel at column 10, row 5 is drawn. -/
theorem witness_SecondDrawCollidesWithFirst :
    ¬ DrawsNothing (sprite 1 1 [0x12] 10 5) ((sprite 1 1 [0x12] 10 5).reg 0).toInt
        ((sprite 1 1 [0x12] 10 5).reg 1).toInt ∧
    (∀ k, cellGet (sprite 1 1 [0x12] 10 5).fb k = 0) ∧ (0x0100 : Word).toNat + 1 * 1 ≤ 0x10000 ∧
    ((sprite 1 1 [0x12] 10 5).blitArgs ((sprite 1 1 [0x12] 10 5).reg 0).toInt
      ((sprite 1 1 [0x12] 10 5).reg 1).toInt 0x0100).draws (sprite 1 1 [0x12] 10 5).mem 10 5 := by
  refine ⟨by simp only [DrawsNothing]; decide, fun _ => rfl, by decide, by decide, ?_, by decide⟩
  simp only [BlitArgs.covers]; decide

/-- For the two statements of what instructions write: `DRW` runs and changes the framebuffer and no flag but C. -/
theorem witness_OnlyNamedInstructionsWrite :
    ∃ t, exec (.drw 0 1 0x0100) (sprite 1 1 [0x12] 10 5) = .next t ∧ t.fb ≠ [] ∧
      (2 = 1 ∨ 2 = 2 ∨ 2 = 6 ∨ 2 = 7) ∧ 2 ∉ flagBits (.drw 0 1 0x0100) := by
  exact ⟨_, rfl, by decide, by decide, by decide⟩

/-- An image that just fits, one that does not, a size field that is right and one that is wrong, a file that
differs from the magic in its last letter only, a file shorter than the magic, and a header one byte short. -/
theorem witness_Loads :
    (List.replicate 65536 (0x00 : Byte)).length ≤ 65536 ∧
    65536 < (List.replicate 65537 (0x00 : Byte)).length ∧
    (65537 : BitVec 32).toNat = (List.replicate 65537 (0x00 : Byte)).length ∧
    (1 : BitVec 32).toNat = [(0x00 : Byte)].length ∧ (2 : BitVec 32).toNat ≠ [(0x00 : Byte)].length ∧
    ([0x43, 0x48, 0x31, 0x37] : List Byte).take 4 ≠ [0x43, 0x48, 0x31, 0x36] ∧
    ([0x43, 0x48, 0x31] : List Byte).take 4 ≠ [0x43, 0x48, 0x31, 0x36] ∧
    (List.replicate 11 (0x00 : Byte)).length < 12 := by
  simp only [List.length_replicate]; decide

/-- The last cell, shown with the index 15 it holds over background 2. -/
theorem witness_RenderShowsPaletteColours :
    (({ State.reset with bg := 2, fb := [(76799, 15)] } : State).fbCell 239 319).toNat = (15 : Fin 16).val ∧
    ({ State.reset with bg := 2, fb := [(76799, 15)] } : State).bg.toNat = (2 : Fin 16).val := by decide

end Sys2Proof.Tests
end

section
/-! The condition predicate of 10_state.md R30, by which flags a condition reads: one flag, Z beside N or
C, O against N, or none at all. -/
namespace Sys2Proof.Machine

/-- The conditions that test one flag (Z, NZ, N, NN, O, NO, AE, B). -/
theorem condition_one_flag (f : Byte) :
    condition 0x0 f = some (flagZ f) ∧ condition 0x1 f = some (!flagZ f) ∧
    condition 0x2 f = some (flagN f) ∧ condition 0x3 f = some (!flagN f) ∧
    condition 0x5 f = some (flagO f) ∧ condition 0x6 f = some (!flagO f) ∧
    condition 0x8 f = some (!flagC f) ∧ condition 0x9 f = some (flagC f) :=
  ⟨rfl, rfl, rfl, rfl, rfl, rfl, rfl, rfl⟩

/-- The conditions that test Z beside N or C (P, A, BE). -/
theorem condition_with_zero (f : Byte) :
    condition 0x4 f = some (!flagN f && !flagZ f) ∧ condition 0x7 f = some (!flagC f && !flagZ f) ∧
    condition 0xA f = some (flagC f || flagZ f) :=
  ⟨rfl, rfl, rfl⟩

/-- The conditions after a signed comparison (G, GE, L, LE): the model compares O and N with `==` and `!=`, the table
says them as propositions. -/
theorem condition_signed_order (f : Byte) :
    condition 0xB f = some (decide (flagO f = flagN f) && !flagZ f) ∧
    condition 0xC f = some (decide (flagO f = flagN f)) ∧
    condition 0xD f = some (decide (flagO f ≠ flagN f)) ∧
    condition 0xE f = some (decide (flagO f ≠ flagN f) || flagZ f) := by
  have hne : (flagO f != flagN f) = decide (flagO f ≠ flagN f) := decide_not.symm
  refine ⟨rfl, rfl, ?_, ?_⟩
  · rw [← hne]; rfl
  · rw [← hne]; rfl

/-- Index 0xF names no condition, whatever the flags. -/
theorem condition_unnamed (f : Byte) : condition 0xF f = none := rfl

/-- Settles O38, assembled from the groups of conditions; the bit positions are those of 10_state.md R27. -/
theorem conditionTable : Obligations.ConditionTable := by
  intro f
  obtain ⟨hZ, hNZ, hN, hNN, hO, hNO, hAE, hB⟩ := condition_one_flag f
  obtain ⟨hP, hA, hBE⟩ := condition_with_zero f
  obtain ⟨hG, hGE, hL, hLE⟩ := condition_signed_order f
  exact ⟨hZ, hNZ, hN, hNN, hP, hO, hNO, hA, hAE, hB, hBE, hG, hGE, hL, hLE, condition_unnamed f,
    rfl, rfl, rfl, rfl⟩

end Sys2Proof.Machine
end

section
/-! A condition index that names no condition (30_encoding.md R80). -/
namespace Sys2Proof.Machine

/-- The test comes before the branch, so the fault does not depend on what taking it would do. -/
theorem State.whenCond_of_condition_none {s : State} {cnd : CondIndex}
    (h : condition cnd s.flags = none) (taken : Except Fault State) :
    s.whenCond cnd taken = .error (.badCond cnd) := by
  simp only [State.whenCond, h]

/-- Settles O15: 0xF names no condition, and `Jx` and `Cx` test theirs before they use the stack. -/
theorem conditionFifteenFaults : Obligations.ConditionFifteenFaults := by
  intro s imm
  have hfault := State.whenCond_of_condition_none (s := s) (condition_unnamed s.flags)
  exact ⟨outcomeOf_eq_fault.mpr (hfault (.ok (s.setPc imm))), outcomeOf_eq_fault.mpr (hfault (s.call imm))⟩

end Sys2Proof.Machine
end

section
/-! Jumps that write `pc` and nothing else: a jump not taken leaves `pc` at the instruction after it, so taken or
not the next state is `s.setPc` of the address chosen (40_control_flow.md R100 to R103). -/
namespace Sys2Proof.Machine

open Sys2Proof.Claims

/-- A jump not taken is one to the address `pc` already holds. -/
theorem State.ite_setPc (s : State) (taken : Prop) [Decidable taken] (target : Word) :
    (if taken then s.setPc target else s) = s.setPc (if taken then target else s.pc) :=
  (apply_ite s.setPc taken target s.pc).symm

theorem gives_pc_of_exec {i : Instr} {s : State} {v : Word} (h : exec i s = .next (s.setPc v)) :
    Gives i s { pc := true } (fun t => t.pc = v) :=
  ⟨s.setPc v, h, s.setPc_pc v, s.setPc_frame v⟩

/-- Settles O37: each of the three goes to the address its test chooses, and the frame is that of `setPc`. -/
theorem jumpsSetPc : Obligations.JumpsSetPc := by
  intro s rx ry imm
  refine ⟨gives_pc_of_exec rfl, gives_pc_of_exec ?jmc, gives_pc_of_exec ?jme⟩
  case jmc => exact congrArg _ (s.ite_setPc (flagC s.flags) imm)
  case jme => exact congrArg _ (s.ite_setPc (s.reg rx = s.reg ry) imm)

/-- Where the index names a condition, its value alone selects the branch. -/
theorem State.whenCond_of_condition_some {s : State} {cnd : CondIndex} {holds : Bool}
    (h : condition cnd s.flags = some holds) (taken : Except Fault State) :
    s.whenCond cnd taken = if holds then taken else .ok s := by
  simp only [State.whenCond, h]
  cases holds <;> rfl

theorem exec_jx_of_condition_some {s : State} {cnd : CondIndex} {holds : Bool}
    (h : condition cnd s.flags = some holds) (imm : Word) :
    exec (.jx cnd imm) s = .next (s.setPc (if holds then imm else s.pc)) := by
  apply outcomeOf_eq_next.mpr
  rw [State.whenCond_of_condition_some h, ← State.ite_setPc, apply_ite Except.ok]

/-- Settles O39: an index below 15 names a condition, whose value chooses the address; index 15 is the fault of O15. -/
theorem conditionalJumpFollowsCondition : Obligations.ConditionalJumpFollowsCondition := by
  intro s cnd imm
  constructor
  · intro hnamed
    have hsome : (condition cnd s.flags).isSome := by rw [condition_isSome]; exact decide_eq_true hnamed
    obtain ⟨holds, hcond⟩ := Option.isSome_iff_exists.mp hsome
    simp only [hcond, Option.some.injEq]
    exact gives_pc_of_exec (exec_jx_of_condition_some hcond imm)
  · intro hunnamed
    obtain rfl : cnd = 15 := Fin.ext hunnamed
    exact (conditionFifteenFaults s imm).1

end Sys2Proof.Machine
end

section
/-! Moves of one value into a register or into `sp`, with no other effect (41_load_store.md R120, R121, R124). -/
namespace Sys2Proof.Machine

open Sys2Proof.Claims

theorem gives_reg_of_exec {i : Instr} {s : State} {r : Reg} {v : Word}
    (h : exec i s = .next (s.setReg r v)) : Gives i s { regs := [r] } (fun t => t.reg r = v) :=
  ⟨s.setReg r v, h, s.reg_setReg_self r v, s.setReg_frame r v⟩

/-- `sp` written alone; the value is not tested (41_load_store.md R121). -/
theorem State.setSp_frame (s : State) (v : Word) : OnlyWrites { sp := true } s { s with sp := v } :=
  { OnlyWrites.refl { sp := true } s with sp := fun h => by cases h }

/-- Settles O33: `LDI` and `MOV` write one register, and `LDI SP` takes any value into `sp`, odd or outside the
stack region. -/
theorem loadImmediateAndMove : Obligations.LoadImmediateAndMove := by
  intro s rx ry imm
  have hldi : exec (.ldi rx imm) s = .next (s.setReg rx imm) := rfl
  have hldi2 : exec (.ldi2 imm) s = .next { s with sp := imm } := rfl
  have hmov : exec (.mov rx ry) s = .next (s.setReg rx (s.reg ry)) := rfl
  exact ⟨gives_reg_of_exec hldi, ⟨_, hldi2, rfl, s.setSp_frame imm⟩, gives_reg_of_exec hmov⟩

end Sys2Proof.Machine
end

section
/-! Addition, subtraction and compare. The laws of the ALU functions speak of a result's top bit as `msb` and join
tests with `&&`; the statements name bit 15 and join propositions (42_arithmetic.md R130, R131). -/
namespace Sys2Proof.Machine

open Sys2Proof.Claims

theorem msb_eq_bit_fifteen (w : Word) : w.msb = w.getLsbD 15 := w.msb_eq_getLsbD_last

theorem flagsZN_of_flags {t : State} {r : Word} (hZ : flagZ t.flags = (r.toNat == 0))
    (hN : flagN t.flags = r.msb) : FlagsZN t r :=
  ⟨hZ, hN.trans (msb_eq_bit_fifteen r)⟩

theorem flagO_addF (a b : Word) (f : Byte) :
    flagO (addF a b f).2 =
      decide (a.getLsbD 15 = b.getLsbD 15 ∧ (addF a b f).1.getLsbD 15 ≠ a.getLsbD 15) := by
  obtain ⟨-, -, -, hO, -⟩ := addF_spec a b f
  simp only [hO, msb_eq_bit_fifteen, Bool.decide_and, decide_not]
  rfl

theorem flagO_subF (a b : Word) (f : Byte) :
    flagO (subF a b f).2 =
      decide (a.getLsbD 15 ≠ b.getLsbD 15 ∧ (subF a b f).1.getLsbD 15 ≠ a.getLsbD 15) := by
  obtain ⟨-, -, -, hO, -⟩ := subF_spec a b f
  simp only [hO, msb_eq_bit_fifteen, Bool.decide_and, decide_not]
  rfl

theorem toNat_addF (a b : Word) (f : Byte) : (addF a b f).1.toNat = (a.toNat + b.toNat) % 65536 :=
  BitVec.toNat_ofNat _ 16

/-- The wrapped difference: the remainder is never negative, so the word holds it as it is. -/
theorem toNat_subF (a b : Word) (f : Byte) :
    ((subF a b f).1.toNat : Int) = ((a.toNat : Int) - b.toNat) % 65536 := by
  obtain ⟨hr, -⟩ := subF_spec a b f
  rw [hr, BitVec.toNat_ofInt]
  exact Int.toNat_of_nonneg (Int.emod_nonneg _ (by decide))

/-- Wherever the sum is put, also in the three-register forms. -/
theorem addsTo_of_exec {i : Instr} {s : State} {rd : Reg} {a b : Word}
    (h : exec i s = .next (s.writeAlu rd (addF a b s.flags))) : AddsTo i rd a b s := by
  obtain ⟨-, hC, hZ, -, hN⟩ := addF_spec a b s.flags
  refine ⟨_, h, ?_, State.writeAlu_frame (getLsbD_addF a b s.flags)⟩
  simp only [State.reg_writeAlu_self, State.writeAlu_flags]
  exact ⟨toNat_addF a b s.flags, hC, flagO_addF a b s.flags, flagsZN_of_flags hZ hN⟩

/-- The flags of a subtraction depend on the operands alone, whether or not the result is kept. -/
theorem subFlags_of_flags_eq {t : State} {a b : Word} {f : Byte} (h : t.flags = (subF a b f).2) :
    SubFlags t a b (subF a b f).1 := by
  obtain ⟨-, hC, hZ, -, hN⟩ := subF_spec a b f
  rw [← h] at hC hZ hN
  exact ⟨toNat_subF a b f, hC, h ▸ flagO_subF a b f, flagsZN_of_flags hZ hN⟩

/-- Wherever the difference is put, also in the three-register forms. -/
theorem subsTo_of_exec {i : Instr} {s : State} {rd : Reg} {a b : Word}
    (h : exec i s = .next (s.writeAlu rd (subF a b s.flags))) : SubsTo i rd a b s := by
  refine ⟨_, h, ?_, State.writeAlu_frame (getLsbD_subF a b s.flags)⟩
  simp only [State.reg_writeAlu_self]
  exact subFlags_of_flags_eq (State.writeAlu_flags s rd _)

theorem compares_of_exec {i : Instr} {s : State} {a b : Word}
    (h : exec i s = .next (s.writeFlags (subF a b s.flags))) : Compares i a b s :=
  ⟨_, h, ⟨_, subFlags_of_flags_eq (s.writeFlags_flags _)⟩, State.writeFlags_frame (getLsbD_subF a b s.flags)⟩

/-- Settles O20: both forms put `ADDF` of their operands into `rx`. -/
theorem addPutsSumAndFlags : Obligations.AddPutsSumAndFlags := by
  intro s rx ry imm
  have haddi : exec (.addi rx imm) s = .next (s.writeAlu rx (addF (s.reg rx) imm s.flags)) := rfl
  have hadd : exec (.add rx ry) s = .next (s.writeAlu rx (addF (s.reg rx) (s.reg ry) s.flags)) := rfl
  exact ⟨addsTo_of_exec haddi, addsTo_of_exec hadd⟩

/-- Settles O21: both forms put `SUBF` of their operands into `rx`. -/
theorem subPutsDifferenceAndFlags : Obligations.SubPutsDifferenceAndFlags := by
  intro s rx ry imm
  have hsubi : exec (.subi rx imm) s = .next (s.writeAlu rx (subF (s.reg rx) imm s.flags)) := rfl
  have hsub : exec (.sub rx ry) s = .next (s.writeAlu rx (subF (s.reg rx) (s.reg ry) s.flags)) := rfl
  exact ⟨subsTo_of_exec hsubi, subsTo_of_exec hsub⟩

/-- Settles O22: both forms write the flags of `SUBF` and discard its result, which is the `r` of `Compares`. -/
theorem compareWritesFlagsOnly : Obligations.CompareWritesFlagsOnly := by
  intro s rx ry imm
  have hcmpi : exec (.cmpi rx imm) s = .next (s.writeFlags (subF (s.reg rx) imm s.flags)) := rfl
  have hcmp : exec (.cmp rx ry) s = .next (s.writeFlags (subF (s.reg rx) (s.reg ry) s.flags)) := rfl
  exact ⟨compares_of_exec hcmpi, compares_of_exec hcmp⟩

end Sys2Proof.Machine
end

section
/-! The wait for the vertical blank. `pc` is already past the instruction when it runs, so falling through leaves `pc`
as it is and waiting takes the 4 of the step's advance back (48_graphics.md R224, 30_encoding.md R70). -/
namespace Sys2Proof.Machine

open Sys2Proof.Claims

/-- Falling through is `setPc` to the address `pc` already holds, so the flag chooses only the address. -/
theorem exec_vblnk_eq_setPc (s : State) :
    exec .vblnk s = .next (s.setPc (if s.vblank then s.pc else s.pc - 4)) := by
  have hpc : s.setPc s.pc = s := rfl
  rw [apply_ite s.setPc, hpc]
  rfl

/-- Settles O50: either way the next state is `setPc` of the address the flag chooses, whose frame is `pc` alone. -/
theorem vblnkSpinsUnlessVblank : Obligations.VblnkSpinsUnlessVblank :=
  fun s => gives_pc_of_exec (exec_vblnk_eq_setPc s)

end Sys2Proof.Machine
end

section
/-! Decoding against encoding (30_encoding.md R73 to R79). The opcode byte chooses one row of the decoder's table, and
with it a format; what remains is one fact per format, in each direction. -/
namespace Sys2Proof

/-! The fields taken out of a word and put back leave the word without its ignored bits. -/

section
variable {b : InstrBytes} {op : Byte}

theorem encodeN0_fields (h : b.b0 = op) : encodeN0 op = Format.n0.clearIgnored b := by subst h; rfl

theorem encodeI_fields (h : b.b0 = op) : encodeI op b.imm = Format.i.clearIgnored b := by
  subst h
  simp only [encodeI, Format.clearIgnored, InstrBytes.imm, lowByte_joinBytes, highByte_joinBytes]

theorem encodeCi_fields (h : b.b0 = op) : encodeCi op b.cnd b.imm = Format.ci.clearIgnored b := by
  subst h
  simp only [encodeCi, Format.clearIgnored, InstrBytes.cnd, InstrBytes.imm, ofFin_toFin4,
    joinNibbles_low_zero, lowByte_joinBytes, highByte_joinBytes]

theorem encodeRi_fields (h : b.b0 = op) : encodeRi op b.rx b.imm = Format.ri.clearIgnored b := by
  subst h
  simp only [encodeRi, Format.clearIgnored, InstrBytes.rx, InstrBytes.imm, ofFin_toFin4,
    joinNibbles_low_zero, lowByte_joinBytes, highByte_joinBytes]

theorem encodeR_fields (h : b.b0 = op) : encodeR op b.rx = Format.r.clearIgnored b := by
  subst h
  simp only [encodeR, Format.clearIgnored, InstrBytes.rx, ofFin_toFin4, joinNibbles_low_zero]

theorem encodeRr_fields (h : b.b0 = op) : encodeRr op b.rx b.ry = Format.rr.clearIgnored b := by
  subst h
  simp only [encodeRr, Format.clearIgnored, InstrBytes.rx, InstrBytes.ry, ofFin_toFin4, joinNibbles_low_high]

theorem encodeRri_fields (h : b.b0 = op) : encodeRri op b.rx b.ry b.imm = Format.rri.clearIgnored b := by
  subst h
  simp only [encodeRri, Format.clearIgnored, InstrBytes.rx, InstrBytes.ry, InstrBytes.imm, ofFin_toFin4,
    joinNibbles_low_high, lowByte_joinBytes, highByte_joinBytes]

theorem encodeRrr_fields (h : b.b0 = op) : encodeRrr op b.rx b.ry b.rz = Format.rrr.clearIgnored b := by
  subst h
  simp only [encodeRrr, Format.clearIgnored, InstrBytes.rx, InstrBytes.ry, InstrBytes.rz, ofFin_toFin4,
    joinNibbles_low_high, joinNibbles_low_zero]

theorem encodeRs_fields (h : b.b0 = op) : encodeRs op b.rx b.sh = Format.rs.clearIgnored b := by
  subst h
  simp only [encodeRs, Format.clearIgnored, InstrBytes.rx, InstrBytes.sh, ofFin_toFin4, joinNibbles_low_zero]

theorem encodeBg_fields (h : b.b0 = op) : encodeBg op b.nib = Format.bg.clearIgnored b := by
  subst h
  simp only [encodeBg, Format.clearIgnored, InstrBytes.nib, joinNibbles_low_zero]

theorem encodeWh_fields (h : b.b0 = op) : encodeWh op b.b2 b.b3 = Format.wh.clearIgnored b := by
  subst h; rfl

theorem encodeFl_fields (h : b.b0 = op) : encodeFl op b.hflip b.vflip = Format.fl.clearIgnored b := by
  subst h
  simp only [encodeFl, Format.clearIgnored, InstrBytes.hflip, InstrBytes.vflip, flipBits_of_byte]

theorem encodeSg_fields (h : b.b0 = op) : encodeSg op b.b1 b.b2 b.b3 = Format.sg.clearIgnored b := by
  subst h; rfl

end

/-! An encoding decodes to what its opcode byte's row `C` makes of the operands encoded. -/

section
variable {op : Byte}

theorem decode_encodeI {C : Word → Instr} (imm : Word)
    (row : decode (encodeI op imm) = .ok (C (encodeI op imm).imm)) :
    decode (encodeI op imm) = .ok (C imm) := by
  rw [row, fields_encodeI]

theorem decode_encodeCi {C : CondIndex → Word → Instr} (c : CondIndex) (imm : Word)
    (row : decode (encodeCi op c imm) = .ok (C (encodeCi op c imm).cnd (encodeCi op c imm).imm)) :
    decode (encodeCi op c imm) = .ok (C c imm) := by
  obtain ⟨hc, himm⟩ := fields_encodeCi op c imm
  rw [row, hc, himm]

theorem decode_encodeRi {C : Reg → Word → Instr} (rx : Reg) (imm : Word)
    (row : decode (encodeRi op rx imm) = .ok (C (encodeRi op rx imm).rx (encodeRi op rx imm).imm)) :
    decode (encodeRi op rx imm) = .ok (C rx imm) := by
  obtain ⟨hrx, himm⟩ := fields_encodeRi op rx imm
  rw [row, hrx, himm]

theorem decode_encodeR {C : Reg → Instr} (rx : Reg)
    (row : decode (encodeR op rx) = .ok (C (encodeR op rx).rx)) :
    decode (encodeR op rx) = .ok (C rx) := by
  rw [row, fields_encodeR]

theorem decode_encodeRr {C : Reg → Reg → Instr} (rx ry : Reg)
    (row : decode (encodeRr op rx ry) = .ok (C (encodeRr op rx ry).rx (encodeRr op rx ry).ry)) :
    decode (encodeRr op rx ry) = .ok (C rx ry) := by
  obtain ⟨hrx, hry⟩ := fields_encodeRr op rx ry
  rw [row, hrx, hry]

theorem decode_encodeRri {C : Reg → Reg → Word → Instr} (rx ry : Reg) (imm : Word)
    (row : decode (encodeRri op rx ry imm) =
      .ok (C (encodeRri op rx ry imm).rx (encodeRri op rx ry imm).ry (encodeRri op rx ry imm).imm)) :
    decode (encodeRri op rx ry imm) = .ok (C rx ry imm) := by
  obtain ⟨hrx, hry, himm⟩ := fields_encodeRri op rx ry imm
  rw [row, hrx, hry, himm]

theorem decode_encodeRrr {C : Reg → Reg → Reg → Instr} (rx ry rz : Reg)
    (row : decode (encodeRrr op rx ry rz) =
      .ok (C (encodeRrr op rx ry rz).rx (encodeRrr op rx ry rz).ry (encodeRrr op rx ry rz).rz)) :
    decode (encodeRrr op rx ry rz) = .ok (C rx ry rz) := by
  obtain ⟨hrx, hry, hrz⟩ := fields_encodeRrr op rx ry rz
  rw [row, hrx, hry, hrz]

theorem decode_encodeRs {C : Reg → ShiftCount → Instr} (rx : Reg) (sh : ShiftCount)
    (row : decode (encodeRs op rx sh) = .ok (C (encodeRs op rx sh).rx (encodeRs op rx sh).sh)) :
    decode (encodeRs op rx sh) = .ok (C rx sh) := by
  obtain ⟨hrx, hsh⟩ := fields_encodeRs op rx sh
  rw [row, hrx, hsh]

theorem decode_encodeBg {C : Colour → Instr} (n : Colour)
    (row : decode (encodeBg op n) = .ok (C (encodeBg op n).nib)) :
    decode (encodeBg op n) = .ok (C n) := by
  rw [row, fields_encodeBg]

theorem decode_encodeFl {C : Bool → Bool → Instr} (h v : Bool)
    (row : decode (encodeFl op h v) = .ok (C (encodeFl op h v).hflip (encodeFl op h v).vflip)) :
    decode (encodeFl op h v) = .ok (C h v) := by
  obtain ⟨hh, hv⟩ := fields_encodeFl op h v
  rw [row, hh, hv]

end

/-- Settles O1, format by format: the opcode byte selects the instruction's own row (`rfl`), and the fields of its
format hold the operands put there. -/
theorem decodeOfEncode : Obligations.DecodeOfEncode := by
  intro i
  cases i with
  | nop | cls | vblnk | snd0 | ret | pushall | popall | pushf | popf => rfl
  | spr _ _ | sng _ _ _ => rfl
  | bgc n => exact decode_encodeBg n rfl
  | flip h v => exact decode_encodeFl h v rfl
  | snd1 imm | snd2 imm | snd3 imm | jmp imm | jmc imm | call imm | ldi2 imm | pal imm =>
    exact decode_encodeI imm rfl
  | jx c imm | cx c imm => exact decode_encodeCi c imm rfl
  | jmp2 rx | call2 rx | push rx | pop rx | pal2 rx | not rx | neg rx => exact decode_encodeR rx rfl
  | rnd rx imm | snp rx imm | ldi rx imm | ldm rx imm | stm rx imm | addi rx imm | subi rx imm
  | cmpi rx imm | andi rx imm | tsti rx imm | ori rx imm | xori rx imm | muli rx imm | divi rx imm
  | modi rx imm | remi rx imm | noti rx imm | negi rx imm => exact decode_encodeRi rx imm rfl
  | ldm2 rx ry | mov rx ry | stm2 rx ry | add rx ry | sub rx ry | cmp rx ry | and rx ry | tst rx ry
  | or rx ry | xor rx ry | mul rx ry | div rx ry | mod rx ry | rem rx ry | shl2 rx ry | shr2 rx ry
  | sar2 rx ry | not2 rx ry | neg2 rx ry => exact decode_encodeRr rx ry rfl
  | drw rx ry imm | jme rx ry imm => exact decode_encodeRri rx ry imm rfl
  | drw2 rx ry rz | add2 rx ry rz | sub2 rx ry rz | and2 rx ry rz | or2 rx ry rz | xor2 rx ry rz
  | mul2 rx ry rz | div2 rx ry rz | mod2 rx ry rz | rem2 rx ry rz => exact decode_encodeRrr rx ry rz rfl
  | shl rx sh | shr rx sh | sar rx sh => exact decode_encodeRs rx sh rfl

/-- The opcodes of the table have a format, and only those. -/
theorem formatOf_isSome_iff (b0 : Byte) : (formatOf b0).isSome = true ↔ Claims.validOpcode b0.toNat := by
  unfold Claims.validOpcode
  revert b0
  decide

/-- What the table says of any four bytes: the opcode byte has a row, whose instruction has these bytes for its
encoding once the ignored bits are cleared; or it lies outside the listed ranges and is rejected. In each row the byte
is known, and with it the format, whose fields put back give the word without its ignored bits. -/
theorem decode_cases (b : InstrBytes) :
    (Claims.validOpcode b.b0.toNat ∧ ∃ i, decode b = .ok i ∧ b.clearIgnored = encode i) ∨
    (¬ Claims.validOpcode b.b0.toNat ∧ decode b = .error (.badOpcode b.b0)) := by
  have hb0 : b.b0 = BitVec.ofNat 8 b.b0.toNat := (BitVec.ofNat_toNat 8 b.b0).symm
  unfold decode
  split
  case h_83 =>
    -- the last row: the byte is none of those before
    refine .inr ⟨?_, rfl⟩
    unfold Claims.validOpcode
    simp only [imp_false] at *
    omega
  all_goals
    rename_i hrow
    rw [hrow] at hb0
    rw [← formatOf_isSome_iff, hb0]
    refine .inl ⟨by decide, _, rfl, ?_⟩
    rw [InstrBytes.clearIgnored_of (b := b) (by rw [hb0]; rfl)]
    simp only [encode, BitVec.ofNat_eq_ofNat, encodeN0_fields hb0, encodeI_fields hb0, encodeCi_fields hb0,
      encodeRi_fields hb0, encodeR_fields hb0, encodeRr_fields hb0, encodeRri_fields hb0, encodeRrr_fields hb0,
      encodeRs_fields hb0, encodeBg_fields hb0, encodeWh_fields hb0, encodeFl_fields hb0, encodeSg_fields hb0]

theorem encode_injective {i j : Instr} (h : encode i = encode j) : i = j := by
  have hdecode := decodeOfEncode i
  rw [h, decodeOfEncode j] at hdecode
  exact (Except.ok.inj hdecode).symm

/-- Settles O2. A word with a row has the encoding of that row's instruction once its ignored bits are cleared, and
an encoding determines its instruction; a word without one has no format. -/
theorem decodeIsInverseUpToIgnoredBits : Obligations.DecodeIsInverseUpToIgnoredBits := by
  intro b i
  rw [formatOf_isSome_iff]
  obtain ⟨hvalid, j, hdecode, hcleared⟩ | ⟨hinvalid, hdecode⟩ := decode_cases b
  · rw [hdecode, hcleared, Except.ok.injEq]
    exact ⟨fun hij => ⟨hvalid, congrArg encode hij⟩, fun ⟨_, henc⟩ => encode_injective henc⟩
  · rw [hdecode]
    exact ⟨nofun, fun ⟨hvalid, _⟩ => absurd hvalid hinvalid⟩

/-- Settles O3: the two sides of `decode_cases` exclude each other. -/
theorem decodeRejectsExactlyInvalidOpcodes : Obligations.DecodeRejectsExactlyInvalidOpcodes := by
  intro b
  obtain ⟨hvalid, i, hdecode, -⟩ | ⟨hinvalid, hdecode⟩ := decode_cases b
  · simp [hdecode, hvalid]
  · simp [hdecode, hinvalid]

/-- Settles O4: each word is of one row, and the decoder computes. -/
theorem writtenWordsDecode : Obligations.WrittenWordsDecode := by
  exact ⟨rfl, rfl, rfl, rfl, rfl, rfl, rfl, rfl, rfl, rfl⟩

end Sys2Proof
end

section
/-! What an instruction keeps and what it writes. Its effect is one of the shapes of `Effect`; a part of the invariant
is kept, and a field is written by the instructions named, because few shapes write that field. -/
namespace Sys2Proof.Machine

theorem toNat_append_byte {w : Nat} (x : BitVec w) (y : Byte) : (x ++ y).toNat = 256 * x.toNat + y.toNat := by
  rw [BitVec.toNat_append, ← Nat.shiftLeft_add_eq_or_of_lt y.isLt, Nat.shiftLeft_eq, Nat.mul_comm]

/-- A palette word as a number, its first byte red (47_palette_unary.md R210). -/
theorem toNat_rgbOf (r g b : Byte) : (rgbOf r g b).toNat = 65536 * r.toNat + 256 * g.toNat + b.toNat := by
  rw [rgbOf, toNat_append_byte, toNat_append_byte, toNat_append_byte, show (0 : Byte).toNat = 0 from rfl]
  omega

theorem Memory.readRgb_lt (m : Memory) (a : Nat) : (m.readRgb a).toNat < 2 ^ 24 := by
  have := (m.readByte a).isLt
  have := (m.readByte (a + 1)).isLt
  have := (m.readByte (a + 2)).isLt
  rw [Memory.readRgb, toNat_rgbOf]
  omega

section
variable {i : Instr} {s t : State} (e : Effect i s t)
include e

theorem Effect.mem_wf (h : s.mem.wf) : t.mem.wf := by
  cases e with
  | store a v ha => exact Memory.writeWord_wf (by simp only [Config.maxAddr]; omega) h
  | push v hs | call v hs => exact Memory.writeWord_wf (by simp only [Config.maxAddr]; omega) h
  | pushall hs =>
    refine wordsAt_wf ?_ h
    simp only [List.length_map, List.length_finRange, Config.maxAddr]
    omega
  | _ => exact h

theorem Effect.fb_wf (h : fbWf s.fb) : fbWf t.fb := by
  cases e with
  | cls => exact ⟨⟨.nil, nofun⟩, nofun⟩
  | draw g c fb hfb =>
    obtain rfl | rfl := hfb
    · exact h
    · exact Blit.plotAll_wf s.mem g h
  | _ => exact h

theorem Effect.flags_reserved (h : s.flags &&& ~~~flagMask = 0) : t.flags &&& ~~~flagMask = 0 := by
  cases e with
  | alu r v hput | test v hput => exact hput.reserved h
  | popf f =>
    have hmask : ∀ f : Byte, f &&& flagMask &&& ~~~flagMask = 0 := by decide
    exact hmask f
  | draw g c fb => exact putBit_reserved 1 c (.inl rfl) h
  | _ => exact h

theorem Effect.pal_24bit (h : ∀ k : Fin 16, s.pal[k].toNat < 2 ^ 24) : ∀ k : Fin 16, t.pal[k].toNat < 2 ^ 24 := by
  cases e with
  | pal a =>
    intro k
    simp only [Fin.getElem_fin, Vector.getElem_ofFn]
    exact Memory.readRgb_lt s.mem _
  | _ => exact h

/-- No instruction writes the vertical-blank flag, the status, the scheduler's state, a render or the close signal. -/
theorem Effect.scheduler_unchanged :
    t.vblank = s.vblank ∧ t.status = s.status ∧ t.framePos = s.framePos ∧ t.frameNo = s.frameNo ∧
      t.schedule = s.schedule ∧ t.renders = s.renders ∧ t.hostClosed = s.hostClosed := by
  cases e <;> simp

theorem Effect.flags_kept {k : Nat} (hk : k = 1 ∨ k = 2 ∨ k = 6 ∨ k = 7) (hnot : k ∉ flagBits i) :
    t.flags.getLsbD k = s.flags.getLsbD k := by
  cases e with
  | alu r v hput =>
    rw [State.writeAlu_flags]
    exact hput.kept hnot
  | test v hput =>
    rw [State.writeFlags_flags]
    exact hput.kept hnot
  | popf f hi =>
    subst hi
    have hnot : k ∉ [1, 2, 6, 7] := hnot
    simp only [List.mem_cons, List.not_mem_nil, or_false] at hnot
    exact absurd hk hnot
  | draw g c fb hfb hi =>
    have hnot : k ∉ [1] := by obtain ⟨_, _, _, rfl⟩ | ⟨_, _, _, rfl⟩ := hi <;> exact hnot
    exact (getLsbD_putC s.flags c k).trans (if_neg (by simpa using hnot))
  | _ => rfl

/-! Each part of the graphics state, `sp` and memory, by the instructions that write it. -/

theorem Effect.writes_bg (h : t.bg ≠ s.bg) : i = .cls ∨ ∃ n, i = .bgc n := by
  cases e with
  | cls hi => exact .inl hi
  | bgc n hi => exact .inr ⟨n, hi⟩
  | _ => exact absurd rfl h

theorem Effect.writes_size (h : t.spritew ≠ s.spritew ∨ t.spriteh ≠ s.spriteh) : ∃ w g, i = .spr w g := by
  cases e with
  | spr w g hi => exact ⟨w, g, hi⟩
  | _ => exact h.elim (absurd rfl) (absurd rfl)

theorem Effect.writes_flips (h : t.hflip ≠ s.hflip ∨ t.vflip ≠ s.vflip) : ∃ a b, i = .flip a b := by
  cases e with
  | flip a b hi => exact ⟨a, b, hi⟩
  | _ => exact h.elim (absurd rfl) (absurd rfl)

theorem Effect.writes_pal (h : t.pal ≠ s.pal) : (∃ imm, i = .pal imm) ∨ ∃ rx, i = .pal2 rx := by
  cases e with
  | pal a hi => exact hi
  | _ => exact absurd rfl h

theorem Effect.writes_fb (h : t.fb ≠ s.fb) :
    i = .cls ∨ (∃ rx ry imm, i = .drw rx ry imm) ∨ ∃ rx ry rz, i = .drw2 rx ry rz := by
  cases e with
  | cls hi => exact .inl hi
  | draw g c fb hfb hi => exact .inr hi
  | _ => exact absurd rfl h

theorem Effect.writes_sp (h : t.sp ≠ s.sp) : movesSp i = true := by
  cases e with
  | sp v hi | ret v hi | pop r v hi | popf f hi | pushall hs hi | popall rs hi => rw [hi]; rfl
  | push v hs hi => obtain ⟨_, rfl⟩ | rfl := hi <;> rfl
  | call v hs hi => obtain ⟨_, rfl⟩ | ⟨_, rfl⟩ | ⟨_, _, rfl⟩ := hi <;> rfl
  | _ => exact absurd rfl h

theorem Effect.writes_mem (h : t.mem ≠ s.mem) : storesToMemory i = true := by
  cases e with
  | store a v ha hi => obtain ⟨_, _, rfl⟩ | ⟨_, _, rfl⟩ := hi <;> rfl
  | push v hs hi => obtain ⟨_, rfl⟩ | rfl := hi <;> rfl
  | call v hs hi => obtain ⟨_, rfl⟩ | ⟨_, rfl⟩ | ⟨_, _, rfl⟩ := hi <;> rfl
  | pushall hs hi => rw [hi]; rfl
  | _ => exact absurd rfl h

end

/-- Settles O57: the flags an ALU function puts are those of the table's row; `POPF` writes all four, a sprite C
only. -/
theorem onlyNamedInstructionsWriteFlags : Obligations.OnlyNamedInstructionsWriteFlags :=
  fun _ _ _ hexec _ hk hnot => (exec_effect hexec).flags_kept hk hnot

/-- Settles O56: an instruction has one effect, and each part is written by the effects of the instructions named. -/
theorem onlyNamedInstructionsWriteState : Obligations.OnlyNamedInstructionsWriteState := by
  intro i s t hexec
  have e := exec_effect hexec
  exact ⟨e.writes_bg, e.writes_size, e.writes_flips, e.writes_pal, e.writes_fb, e.writes_sp, e.writes_mem,
    e.scheduler_unchanged⟩

end Sys2Proof.Machine
end

section
/-! The invariant across a step, and power-on (10_state.md R46). -/
namespace Sys2Proof.Machine

open Sys2Proof.Claims

/-- The length of a frame depends on the schedule and the frame's number alone. -/
theorem State.frameLength_congr {s t : State} (hsched : t.schedule = s.schedule) (hno : t.frameNo = s.frameNo) :
    t.frameLength = s.frameLength := by
  simp only [State.frameLength, hsched, hno]

theorem Effect.keeps_inv {i : Instr} {s t : State} (e : Effect i s t) (h : s.Inv) : t.Inv := by
  obtain ⟨-, -, hpos, hno, hsched, hrenders, -⟩ := e.scheduler_unchanged
  exact {
    mem_wf := e.mem_wf h.mem_wf
    fb_wf := e.fb_wf h.fb_wf
    flags_reserved := e.flags_reserved h.flags_reserved
    pal_24bit := e.pal_24bit h.pal_24bit
    framePos_le := by rw [hpos, State.frameLength_congr hsched hno]; exact h.framePos_le
    renders_past := by rw [hrenders, hno]; exact h.renders_past
    renders_once := by rw [hrenders]; exact h.renders_once }

/-- What the handler sees keeps the invariant: beyond the boundary only `pc` and the vertical-blank flag are written,
which the invariant does not speak of. -/
theorem State.Inv.handlerState {s : State} (h : s.Inv) : (handlerState s).Inv :=
  ⟨h.passBoundary.mem_wf, h.passBoundary.fb_wf, h.passBoundary.flags_reserved, h.passBoundary.pal_24bit,
    h.passBoundary.framePos_le, h.passBoundary.renders_past, h.passBoundary.renders_once⟩

/-- A step's end keeps the invariant inside a frame. -/
theorem State.Inv.endStep {s : State} (h : s.Inv) (hpos : s.framePos < s.frameLength) : s.endStep.Inv :=
  ⟨h.mem_wf, h.fb_wf, h.flags_reserved, h.pal_24bit, hpos, h.renders_past, h.renders_once⟩

/-- Settles O7: the boundary, the instruction's effect and the step's end each keep the invariant; the position stays
within the frame because a live core starts its step inside one. -/
theorem stepKeepsInvariant : Obligations.StepKeepsInvariant := by
  intro s t hinv hstep
  obtain ⟨hclosed, hrunning, -, i, u, -, hexec, rfl⟩ := step_cases hstep
  have e : Effect i (handlerState s) u := exec_effect hexec
  obtain ⟨-, -, hpos, hno, hsched, -, -⟩ := e.scheduler_unchanged
  refine (e.keeps_inv hinv.handlerState).endStep ?_
  rw [hpos, State.frameLength_congr hsched hno]
  exact State.passBoundary_framePos_lt (State.live_iff.mpr ⟨hrunning, hclosed⟩)

/-- Settles O6: nothing is stored yet, and the palette is the default one. -/
theorem invariantHoldsAtReset : Obligations.InvariantHoldsAtReset where
  mem_wf := ⟨⟨.nil, nofun⟩, nofun⟩
  fb_wf := ⟨⟨.nil, nofun⟩, nofun⟩
  flags_reserved := rfl
  pal_24bit := by decide
  framePos_le := Nat.zero_le _
  renders_past := nofun
  renders_once := .nil

theorem State.reset_readByte (a : Nat) : State.reset.mem.readByte a = 0 := by
  unfold Memory.readByte
  split_ifs <;> rfl

/-- Settles O5, field by field. -/
theorem resetHoldsPowerOnValues : Obligations.ResetHoldsPowerOnValues := by
  exact ⟨by decide, rfl, rfl, rfl, State.reset_readByte, fun _ => rfl, rfl, rfl, rfl, rfl, rfl, rfl, rfl, rfl, rfl⟩

end Sys2Proof.Machine
end

section
/-! The step: what it runs, what stops it, and what the scheduler does around it (30_encoding.md R70,
60_exceptions.md R260 to R275). -/
namespace Sys2Proof.Machine

open Sys2Proof.Claims

/-- The statements' handler state is the model's, its writes gathered in one record. -/
theorem handlerState_eq (s : State) : s.passBoundary.beginStep.advancePc = handlerState s := rfl

/-- Settles O8: `step_of_decode` for each of the two outcomes. -/
theorem stepRunsDecodedInstruction : Obligations.StepRunsDecodedInstruction := by
  intro s i ⟨hrunning, hopen⟩ hpc hdecode
  have hstep := step_of_decode hopen hrunning hpc hdecode
  rw [handlerState_eq] at hstep
  refine ⟨fun t hexec => ?_, fun f hexec => ?_⟩
  · rw [hstep, hexec]; rfl
  · rw [hstep, hexec]

/-- Settles O9: the bound comes before the fetch, and dispatch rejects a byte outside the table. -/
theorem fetchAndDispatchFaults : Obligations.FetchAndDispatchFaults := by
  intro s ⟨hrunning, hopen⟩
  refine ⟨step_of_pcRange hopen hrunning, fun hpc hinvalid => step_of_badOpcode hopen hrunning hpc ?_⟩
  exact (decodeRejectsExactlyInvalidOpcodes s.fetch).1.mpr hinvalid

/-- A live core's fault is `PC_RANGE` exactly when `pc` has reached the stack base. -/
theorem step_fault_cases {s : State} {f : Fault} (hlive : Live s) (hstep : step s = .fault f) :
    (0xFDF0 ≤ s.pc.toNat ∧ f = .pcRange s.pc) ∨ (s.pc.toNat < 0xFDF0 ∧ ∀ p, f ≠ .pcRange p) := by
  obtain ⟨hrunning, hopen⟩ := hlive
  by_cases hpc : 0xFDF0 ≤ s.pc.toNat
  · rw [step_of_pcRange hopen hrunning hpc] at hstep
    cases hstep
    exact .inl ⟨hpc, rfl⟩
  · rw [Nat.not_le] at hpc
    refine .inr ⟨hpc, ?_⟩
    cases hdecode : decode s.fetch with
    | error e =>
      cases e
      rw [step_of_badOpcode hopen hrunning hpc hdecode] at hstep
      cases hstep
      exact nofun
    | ok i =>
      rw [step_of_decode hopen hrunning hpc hdecode] at hstep
      cases hexec : exec i s.passBoundary.beginStep.advancePc with
      | next t => rw [hexec] at hstep; cases hstep
      | refused r => rw [hexec] at hstep; cases hstep
      | fault g =>
        rw [hexec] at hstep
        cases hstep
        rintro p rfl
        simpa using exec_eq_fault hexec

theorem State.settle_of_fault {s : State} {f : Fault} (hrunning : s.status = .running) (hstep : step s = .fault f) :
    s.settle = s.passBoundary.beginStep.raise f := by
  have hsched : schedulerStep s = .fault f := hstep
  simp only [State.settle, hsched, hrunning]

theorem State.settle_of_faulted {s : State} {r : FaultRecord} (hclosed : s.hostClosed = false)
    (h : s.status = .faulted r) : s.settle = s := by
  have hsched : schedulerStep s = .fault r.fault := step_of_faulted hclosed h
  simp only [State.settle, hsched, h]

theorem State.raise_status (s : State) (f : Fault) : (s.raise f).status = .faulted (s.faultRecord f) := by
  cases f <;> rfl

theorem State.raise_hostClosed (s : State) (f : Fault) : (s.raise f).hostClosed = s.hostClosed := by
  cases f <;> rfl

theorem State.faultRecord_fault (s : State) (f : Fault) : (s.faultRecord f).fault = f := by
  cases f <;> rfl

theorem State.faultRecord_of_ne_pcRange (s : State) {f : Fault} (h : ∀ p, f ≠ .pcRange p) :
    s.faultRecord f = { fault := f, pc0 := s.pc, bytes := some s.fetch } := by
  cases f with
  | pcRange p => exact absurd rfl (h p)
  | _ => rfl

/-- Settles O10: the record is the one of `faultRecord`, whose bytes no boundary changes; a stopped core answers its
fault again and keeps its state. -/
theorem faultIsTerminal : Obligations.FaultIsTerminal := by
  intro s f hlive hstep
  obtain ⟨hrunning, hopenBefore⟩ := id hlive
  have hsettle := State.settle_of_fault hrunning hstep
  have hstatus : s.settle.status = .faulted (s.passBoundary.beginStep.faultRecord f) := by
    rw [hsettle, State.raise_status]
  have hopen : s.settle.hostClosed = false := by
    rw [hsettle, State.raise_hostClosed]
    exact hopenBefore
  refine ⟨?_, ?_, State.settle_of_faulted hopen hstatus⟩
  · rw [hstatus]
    obtain ⟨hpc, rfl⟩ | ⟨hpc, hne⟩ := step_fault_cases hlive hstep
    · rw [if_pos hpc]
      rfl
    · rw [if_neg (Nat.not_le.mpr hpc), State.faultRecord_of_ne_pcRange _ hne, State.fetch_beginStep,
        State.fetch_passBoundary hpc]
      rfl
  · rw [step_of_faulted hopen hstatus, State.faultRecord_fault]

/-- Settles O11: a closed run takes no step and, not being live, passes no boundary. -/
theorem noStepAfterHostClose : Obligations.NoStepAfterHostClose := by
  intro s
  have hstep : step s.hostClose = .refused .hostClosed := step_of_closed s.hostClose_hostClosed
  have hlive : s.hostClose.live = false := by
    rw [← Bool.not_eq_true, State.live_iff, State.hostClose_hostClosed]
    simp
  refine ⟨hstep, ?_, State.passBoundary_of_not_live hlive⟩
  have hsched : schedulerStep s.hostClose = .refused .hostClosed := hstep
  simp only [State.settle, hsched]

/-- Settles O12. `step_cases` gives the instruction run; what the handler sees differs from the state before by the
boundary, which writes only when it is due, and by `pc` and the vertical-blank flag. -/
theorem frameBoundaryWritesControllerWords : Obligations.FrameBoundaryWritesControllerWords := by
  intro s t hinv hstep
  obtain ⟨hopen, hrunning, hpc, i, u, hdecode, hexec, rfl⟩ := step_cases hstep
  have hlive : s.live = true := State.live_iff.mpr ⟨hrunning, hopen⟩
  refine ⟨(step_passBoundary s).trans hstep, i, u, hdecode, hexec, rfl, ?_, ?_,
    fun a ha => s.readByte_passBoundary ha, rfl, rfl, rfl, rfl, rfl, rfl, rfl, rfl, rfl, rfl, rfl, rfl, rfl, rfl,
    ?_, s.exists_vblank⟩
  · intro hfull
    have hdue : s.boundaryDue = true := State.boundaryDue_iff.mpr ⟨hlive, hfull.ge⟩
    obtain ⟨h0, h1, h2, h3⟩ := State.readByte_passBoundary_controller hdue
    have hrenders : (handlerState s).renders =
        if Config.freeRender s.frameNo then s.renderCall :: s.renders else s.renders :=
      (State.passBoundary_renders s).trans (by rw [hdue, Bool.true_and])
    exact ⟨h0, h1, h2, h3, if_pos hdue, if_pos hdue, hrenders⟩
  · intro hinside
    have hnotDue : s.boundaryDue = false := by
      rw [← Bool.not_eq_true, State.boundaryDue_iff]
      omega
    simp only [handlerState, State.passBoundary_of_not_due hnotDue]
  · intro href
    have hlt := State.passBoundary_framePos_lt hlive
    have hlen : s.passBoundary.frameLength = Config.stepsPerFrame := by
      simp only [State.frameLength, State.passBoundary_schedule, href]
    refine (State.vblankNow_reference (s := s.passBoundary) href).trans ?_
    exact decide_eq_decide.mpr (show _ ≤ s.passBoundary.framePos + 1 ↔ s.passBoundary.framePos + 1 = _ by omega)

end Sys2Proof.Machine
end

section
/-! A spinning `VBLNK` (48_graphics.md R224). Inside a frame a step of it writes the position, the vertical-blank flag
and, where that is true, `pc`; so the states of the spin are known in full and only the frame's vertical-blank steps
matter. -/
namespace Sys2Proof.Machine

open Sys2Proof.Claims

/-- A live core inside a frame whose `pc` stands on a `VBLNK`. -/
structure OnVblnk (s : State) : Prop where
  live : Live s
  pc_lt : s.pc.toNat < 0xFDF0
  opcode : s.mem.readByte s.pc.toNat = 0x02
  inside : s.framePos < s.frameLength

/-- The state `n` steps later in the same frame, nothing but the position and the vertical-blank flag changed. -/
def State.spun (s : State) (n : Nat) (v : Bool) : State := { s with framePos := s.framePos + n, vblank := v }

/-- The step `n` steps on in the same frame sees `vblank`. -/
def State.seesVblank (s : State) (n : Nat) : Bool := { s with framePos := s.framePos + n }.vblankNow

theorem OnVblnk.spun {s : State} (h : OnVblnk s) {n : Nat} (hn : s.framePos + n < s.frameLength) (v : Bool) :
    OnVblnk (s.spun n v) :=
  ⟨h.live, h.pc_lt, h.opcode, hn⟩

theorem OnVblnk.decode_fetch {s : State} (h : OnVblnk s) : decode s.fetch = .ok .vblnk := by
  simp only [decode, State.fetch, h.opcode]
  rfl

/-- One step inside a frame. -/
theorem OnVblnk.step_eq {s : State} (h : OnVblnk s) :
    step s = .next ((s.spun 1 s.vblankNow).setPc (if s.vblankNow then s.pc + 4 else s.pc)) := by
  have hnotDue : s.boundaryDue = false := by
    rw [← Bool.not_eq_true, State.boundaryDue_iff]
    exact fun ⟨_, hfull⟩ => Nat.not_le.mpr h.inside hfull
  obtain ⟨hrunning, hopen⟩ := h.live
  rw [step_of_decode hopen hrunning h.pc_lt h.decode_fetch, State.passBoundary_of_not_due hnotDue,
    exec_vblnk_eq_setPc]
  simp only [State.advancePc_vblank, State.beginStep_vblank, State.advancePc_pc, State.beginStep_pc,
    BitVec.add_sub_cancel]
  rfl

theorem run_one {s t : State} (h : step s = .next t) : Host.Core.run Sys2Proof.core 1 s = .next t :=
  run_succ_of_next (M := Sys2Proof.core) h

/-- Steps that see no vertical blank leave `pc` on the instruction. -/
theorem OnVblnk.run_spun {s : State} (h : OnVblnk s) :
    ∀ n, s.framePos + n ≤ s.frameLength → (∀ k, k < n → s.seesVblank k = false) →
      ∃ v, Host.Core.run Sys2Proof.core n s = .next (s.spun n v) := by
  intro n
  induction n with
  | zero => exact fun _ _ => ⟨s.vblank, rfl⟩
  | succ n ih =>
    intro hn hno
    obtain ⟨v, hrun⟩ := ih (by omega) fun k hk => hno k (by omega)
    have hlast : (s.spun n v).vblankNow = false := hno n (by omega)
    have hstep := (h.spun (n := n) (by omega) v).step_eq
    rw [hlast] at hstep
    exact ⟨false, (run_add hrun).trans (run_one hstep)⟩

/-- The first step that sees a vertical blank falls through. -/
theorem OnVblnk.fallsThroughAt {s : State} (h : OnVblnk s) {n : Nat} (hn : s.framePos + n < s.frameLength)
    (hno : ∀ k, k < n → s.seesVblank k = false) (hyes : s.seesVblank n = true) : FallsThroughAt s (n + 1) := by
  constructor
  · intro m hm
    obtain ⟨v, hrun⟩ := h.run_spun m (by omega) fun k hk => hno k (by omega)
    exact ⟨_, hrun, rfl⟩
  · obtain ⟨v, hrun⟩ := h.run_spun n (by omega) hno
    have hlast : (s.spun n v).vblankNow = true := hyes
    have hstep := (h.spun hn v).step_eq
    rw [hlast] at hstep
    exact ⟨_, (run_add hrun).trans (run_one hstep), rfl, rfl, rfl, rfl, rfl, rfl, fun _ _ => rfl⟩

/-- A frame with a vertical-blank step still to come is left by the first such step. -/
theorem OnVblnk.fallsThrough_inside {s : State} (h : OnVblnk s)
    (hex : ∃ k, s.framePos + k < s.frameLength ∧ s.seesVblank k = true) :
    ∃ n, s.framePos + n < s.frameLength ∧ FallsThroughAt s (n + 1) := by
  obtain ⟨hn, hyes⟩ := Nat.find_spec hex
  refine ⟨Nat.find hex, hn, h.fallsThroughAt hn (fun k hk => ?_) hyes⟩
  have hmin := Nat.find_min hex hk
  rw [not_and, Bool.not_eq_true] at hmin
  exact hmin (by omega)

/-- Passing the boundary first changes nothing `FallsThroughAt` speaks of. -/
theorem fallsThroughAt_of_passBoundary {s : State} {n : Nat} (h : FallsThroughAt s.passBoundary (n + 1)) :
    FallsThroughAt s (n + 1) := by
  have hrun : ∀ m, Host.Core.run Sys2Proof.core (m + 1) s = Host.Core.run Sys2Proof.core (m + 1) s.passBoundary := by
    intro m
    have hstep : Sys2Proof.core.step s = Sys2Proof.core.step s.passBoundary := (step_passBoundary s).symm
    simp only [Host.Core.run, hstep]
  obtain ⟨hspin, t, ht, hpc, hregs, hflags, hsp, hfb, hpal, hmem⟩ := h
  refine ⟨fun m hm => ?_, t, (hrun n).trans ht, hpc, hregs, hflags, hsp, hfb, hpal,
    fun a ha => (hmem a ha).trans (s.readByte_passBoundary (.inl ha))⟩
  cases m with
  | zero => exact ⟨s, rfl, rfl⟩
  | succ m =>
    rw [hrun m]
    exact hspin (m + 1) hm

/-- Steps that see no vertical blank come before whatever follows them. -/
theorem OnVblnk.fallsThroughAt_after_spin {s : State} (h : OnVblnk s) {m n : Nat} {v : Bool}
    (hm : s.framePos + m ≤ s.frameLength) (hno : ∀ k, k < m → s.seesVblank k = false)
    (hrun : Host.Core.run Sys2Proof.core m s = .next (s.spun m v)) (hthen : FallsThroughAt (s.spun m v) n) :
    FallsThroughAt s (m + n) := by
  obtain ⟨hspin, t, ht, hfields⟩ := hthen
  refine ⟨fun k hk => ?_, t, (run_add hrun).trans ht, hfields⟩
  by_cases hkm : k < m
  · obtain ⟨w, hk⟩ := h.run_spun k (by omega) fun j hj => hno j (by omega)
    exact ⟨_, hk, rfl⟩
  · obtain ⟨u, hu, hpc⟩ := hspin (k - m) (by omega)
    rw [← Nat.add_sub_cancel' (Nat.not_lt.mp hkm), run_add hrun]
    exact ⟨u, hu, hpc⟩

/-- The frame a due boundary starts has its own length and is still whole. -/
theorem State.passBoundary_of_due {s : State} (hdue : s.boundaryDue = true) :
    s.passBoundary.framePos = 0 ∧ s.passBoundary.frameLength = { s with frameNo := s.frameNo + 1 }.frameLength :=
  ⟨if_pos hdue, State.frameLength_congr rfl (if_pos hdue)⟩

/-- A whole frame has a vertical-blank step to come. -/
theorem State.seesVblank_of_whole {s : State} (hpos : s.framePos = 0) :
    ∃ k, s.framePos + k < s.frameLength ∧ s.seesVblank k = true := by
  obtain ⟨k, hk, hyes⟩ := s.exists_vblank
  refine ⟨k, by omega, ?_⟩
  rwa [State.seesVblank, hpos, Nat.zero_add]

theorem onVblnk_passBoundary {s : State} (hlive : Live s) (hpc : s.pc.toNat < 0xFDF0)
    (hop : s.mem.readByte s.pc.toNat = 0x02) : OnVblnk s.passBoundary where
  live := hlive
  pc_lt := hpc
  opcode := (s.readByte_passBoundary (.inl (Nat.lt_trans hpc (by decide)))).trans hop
  inside := State.passBoundary_framePos_lt (State.live_iff.mpr hlive)

/-- A frame without a vertical-blank step left is spun through to its end; the next frame, whole, has one. -/
theorem OnVblnk.fallsThrough_nextFrame {s : State} (h : OnVblnk s)
    (hno : ∀ k, s.framePos + k < s.frameLength → s.seesVblank k = false) :
    ∃ n, n + 1 ≤ s.frameLength - s.framePos + { s with frameNo := s.frameNo + 1 }.frameLength ∧
      FallsThroughAt s (n + 1) := by
  have hinside := h.inside
  have hlast : s.framePos + (s.frameLength - s.framePos) = s.frameLength := Nat.add_sub_cancel' hinside.le
  have hspin : ∀ k, k < s.frameLength - s.framePos → s.seesVblank k = false := fun k hk => hno k (by omega)
  obtain ⟨v, hrun⟩ := h.run_spun _ hlast.le hspin
  have hdue : (s.spun (s.frameLength - s.framePos) v).boundaryDue = true :=
    State.boundaryDue_iff.mpr ⟨State.live_iff.mpr h.live, hlast.ge⟩
  obtain ⟨hpos, hlen⟩ := State.passBoundary_of_due hdue
  have hnext : OnVblnk (s.spun (s.frameLength - s.framePos) v).passBoundary :=
    onVblnk_passBoundary h.live h.pc_lt h.opcode
  obtain ⟨n, hn, hfalls⟩ := hnext.fallsThrough_inside (State.seesVblank_of_whole hpos)
  rw [hpos, hlen, Nat.zero_add] at hn
  have hthen : FallsThroughAt s (s.frameLength - s.framePos + (n + 1)) :=
    h.fallsThroughAt_after_spin hlast.le hspin hrun (fallsThroughAt_of_passBoundary hfalls)
  exact ⟨s.frameLength - s.framePos + n, Nat.add_le_add_left hn _, hthen⟩

/-- Settles O13. All is counted in the frame the next step belongs to: the reference scheduler's one vertical-blank
step is that frame's last; by any schedule there is one in what is left of the frame, or else in the next. -/
theorem spinningVblnkFallsThroughWithinFrame : Obligations.SpinningVblnkFallsThroughWithinFrame := by
  intro s hlive _ hpc hop
  have h := onVblnk_passBoundary hlive hpc hop
  have hinside := h.inside
  constructor
  · intro href
    obtain ⟨n, hn⟩ : ∃ n, stepsLeft s = n + 1 := ⟨stepsLeft s - 1, by rw [stepsLeft]; omega⟩
    have hsees : ∀ k, s.passBoundary.seesVblank k = decide (n ≤ k) := by
      intro k
      refine (State.vblankNow_reference (s := { s.passBoundary with framePos := _ }) href).trans ?_
      exact decide_eq_decide.mpr (show s.passBoundary.frameLength ≤ s.passBoundary.framePos + k + 1 ↔ n ≤ k by
        rw [stepsLeft] at hn; omega)
    rw [hn]
    refine fallsThroughAt_of_passBoundary (h.fallsThroughAt ?_ (fun k hk => ?_) ?_)
    · rw [stepsLeft] at hn; omega
    · rw [hsees]; exact decide_eq_false (by omega)
    · rw [hsees]; exact decide_eq_true (Nat.le_refl n)
  · by_cases hex : ∃ k, s.passBoundary.framePos + k < s.passBoundary.frameLength ∧
        s.passBoundary.seesVblank k = true
    · obtain ⟨n, hn, hfalls⟩ := h.fallsThrough_inside hex
      exact ⟨n + 1, by rw [stepsLeft]; omega, fallsThroughAt_of_passBoundary hfalls⟩
    · have hno : ∀ k, s.passBoundary.framePos + k < s.passBoundary.frameLength →
          s.passBoundary.seesVblank k = false := by
        intro k hk
        rw [← Bool.not_eq_true]
        exact fun hyes => hex ⟨k, hk, hyes⟩
      obtain ⟨n, hn, hfalls⟩ := h.fallsThrough_nextFrame hno
      exact ⟨n + 1, hn, fallsThroughAt_of_passBoundary hfalls⟩

end Sys2Proof.Machine
end

section
/-! When each shared operation answers, and the fault it raises otherwise (60_exceptions.md R262). -/
namespace Sys2Proof.Machine

open Sys2Proof.Claims

section
variable {s : State}

theorem State.loadWord_of_lt (rx : Reg) {a : Nat} (h : a < 0xFFFF) :
    s.loadWord rx a = .ok (s.setReg rx (s.mem.readWord a)) := by
  simp only [State.loadWord, State.memReadWord_of_lt h]

theorem State.loadWord_of_ge (rx : Reg) {a : Nat} (h : 0xFFFF ≤ a) : s.loadWord rx a = .error (.memRange a) := by
  simp only [State.loadWord, State.memReadWord_of_ge h]

theorem State.call_of_le (target : Word) (h : s.sp.toNat ≤ 0xFFFD) :
    s.call target =
      .ok (State.setPc { s with mem := s.mem.writeWord s.sp.toNat s.pc, sp := s.sp + 2 } target) := by
  simp only [State.call, State.push16_of_le s.pc h]

theorem State.call_of_gt (target : Word) (h : 0xFFFD < s.sp.toNat) :
    s.call target = .error (.stackRange s.sp) := by
  simp only [State.call, State.push16_of_gt s.pc h]

theorem State.popInto_of_ge (rx : Reg) (h : 2 ≤ s.sp.toNat) :
    s.popInto rx = .ok (State.setReg { s with sp := s.sp - 2 } rx (s.mem.readWord (s.sp - 2).toNat)) := by
  simp only [State.popInto, State.pop16_of_ge h]

theorem State.popInto_of_lt (rx : Reg) (h : s.sp.toNat < 2) : s.popInto rx = .error (.stackRange s.sp) := by
  simp only [State.popInto, State.pop16_of_lt h]

theorem State.popFlags_of_ge (h : 2 ≤ s.sp.toNat) :
    s.popFlags =
      .ok { s with sp := s.sp - 2, flags := lowByte (s.mem.readWord (s.sp - 2).toNat) &&& flagMask } := by
  simp only [State.popFlags, State.pop16_of_ge h]

theorem State.popFlags_of_lt (h : s.sp.toNat < 2) : s.popFlags = .error (.stackRange s.sp) := by
  simp only [State.popFlags, State.pop16_of_lt h]

theorem State.pushAll_of_gt (h : 0xFFDF < s.sp.toNat) : s.pushAll = .error (.stackRange s.sp) := by
  rw [State.pushAll, if_pos h]

theorem State.popAll_of_lt (h : s.sp.toNat < 32) : s.popAll = .error (.stackRange s.sp) := by
  rw [State.popAll, if_pos h]

theorem State.loadPalette_of_le {a : Nat} (h : a ≤ 0xFFD0) :
    s.loadPalette a = .ok { s with pal := Vector.ofFn fun i => s.mem.readRgb (a + 3 * i.val) } := by
  rw [State.loadPalette, if_neg (by simp only [Config.maxAddr]; omega)]

theorem State.loadPalette_of_gt {a : Nat} (h : 0xFFD0 < a) : s.loadPalette a = .error (.memRange a) := by
  rw [State.loadPalette, if_pos (by simp only [Config.maxAddr]; omega)]

theorem State.shiftBy_of_lt {ry : Reg} (rx : Reg) (F : Word → Nat → Byte → Word × Byte)
    (h : (s.reg ry).toNat < 16) :
    s.shiftBy rx ry F = .ok (s.writeAlu rx (F (s.reg rx) (s.reg ry).toNat s.flags)) := by
  rw [State.shiftBy, State.shiftCount, if_neg (Nat.not_le.mpr h)]

theorem State.shiftBy_of_ge {ry : Reg} (rx : Reg) (F : Word → Nat → Byte → Word × Byte)
    (h : 16 ≤ (s.reg ry).toNat) : s.shiftBy rx ry F = .error (.shiftRange (s.reg ry)) := by
  rw [State.shiftBy, State.shiftCount, if_pos h]

theorem exec_ret_of_ge (h : 2 ≤ s.sp.toNat) :
    exec .ret s = .next (State.setPc { s with sp := s.sp - 2 } (s.mem.readWord (s.sp - 2).toNat)) := by
  simp only [exec, execRet, State.pop16_of_ge h]

theorem exec_ret_of_lt (h : s.sp.toNat < 2) : exec .ret s = .fault (.stackRange s.sp) := by
  simp only [exec, execRet, State.pop16_of_lt h]

theorem exec_rnd_of_ne (rx : Reg) {max : Word} (h : max.toNat ≠ 0) :
    exec (.rnd rx max) s = .next { s.setReg rx (s.drawRnd max) with draws := s.draws + 1 } := by
  simp only [exec, execRnd, if_neg h]

theorem exec_rnd_of_eq (rx : Reg) {max : Word} (h : max.toNat = 0) :
    exec (.rnd rx max) s = .fault (.rndRange max) := by
  simp only [exec, execRnd, if_pos h]

end

/-- `DIVF`, `MODF` and `REMF` answer for exactly the same operands. -/
theorem divCheck_eq_none_iff_divisible {a b : Word} : divCheck a b = none ↔ divisible a b := divCheck_eq_none

theorem divCheck_of_zero {a b : Word} (h : b = 0) : divCheck a b = some (.divZero a) := by
  subst h
  rfl

theorem divCheck_of_overflow {a b : Word} (ha : a = 0x8000) (hb : b = 0xFFFF) :
    divCheck a b = some (.divOverflow a b) := by
  subst ha hb
  rfl

end Sys2Proof.Machine
end

section
/-! The faults, by the operation that raises them. -/
namespace Sys2Proof.Machine

open Sys2Proof.Claims

/-- Every dividing form makes the check on the operands it names, whatever its destination. -/
theorem exec_eq_fault_of_divCheck {i : Instr} {s : State} {a b : Word} {f : Fault}
    (hop : divOperands i s = some (a, b)) (hcheck : divCheck a b = some f) : exec i s = .fault f := by
  obtain ⟨hdiv, hmod, hrem⟩ := divF_eq_error s.flags hcheck
  cases i with
  | divi rx imm | div rx ry | div2 rx ry rz =>
    cases hop
    exact outcomeOf_eq_fault.mpr (by rw [hdiv]; rfl)
  | modi rx imm | mod rx ry | mod2 rx ry rz =>
    cases hop
    exact outcomeOf_eq_fault.mpr (by rw [hmod]; rfl)
  | remi rx imm | rem rx ry | rem2 rx ry rz =>
    cases hop
    exact outcomeOf_eq_fault.mpr (by rw [hrem]; rfl)
  | _ => cases hop

/-- Settles O16: the check comes first in each of the nine forms. -/
theorem divisionFaults : Obligations.DivisionFaults := by
  intro s i a b hop
  exact ⟨fun hb => exec_eq_fault_of_divCheck hop (divCheck_of_zero hb),
    fun ha hb => exec_eq_fault_of_divCheck hop (divCheck_of_overflow ha hb)⟩

/-- Settles O17: each access is checked before anything is written, and names its first address. -/
theorem addressFaults : Obligations.AddressFaults := by
  intro s rx ry rz imm
  have hword : ∀ {a : Nat}, a = 0xFFFF → outcomeOf (s.loadWord rx a) = .fault (.memRange 0xFFFF) ∧
      outcomeOf (s.memWriteWord a (s.reg rx)) = .fault (.memRange 0xFFFF) := by
    rintro a rfl
    exact ⟨outcomeOf_eq_fault.mpr (State.loadWord_of_ge rx (Nat.le_refl _)),
      outcomeOf_eq_fault.mpr (State.memWriteWord_of_ge (s.reg rx) (Nat.le_refl _))⟩
  have hpalette : ∀ {a : Nat}, 0xFFD0 < a → outcomeOf (s.loadPalette a) = .fault (.memRange a) :=
    fun h => outcomeOf_eq_fault.mpr (State.loadPalette_of_gt h)
  have hsprite : ∀ {a : Nat}, ¬ DrawsNothing s (s.reg rx).toInt (s.reg ry).toInt →
      0x10000 < a + s.spritew.toNat * s.spriteh.toNat →
      outcomeOf (s.drawSprite (s.reg rx).toInt (s.reg ry).toInt a) = .fault (.memRange a) :=
    fun hdraws h => outcomeOf_eq_fault.mpr (State.drawSprite_of_gt (mt State.noOp_blitArgs_iff.mp hdraws) h)
  exact ⟨hword, hword, hpalette, hpalette, hsprite, hsprite⟩

/-- Settles O18: every push and pop is checked against `sp` before memory or a register is written. -/
theorem stackFaults : Obligations.StackFaults := by
  intro s rx cnd imm
  refine ⟨fun h => ⟨?_, ?_, ?_, ?_, fun htaken => ?_⟩, fun h => ⟨?_, ?_, exec_ret_of_lt h⟩, fun h => ?_,
    fun h => ?_⟩
  · exact outcomeOf_eq_fault.mpr (State.push16_of_gt (s.reg rx) h)
  · exact outcomeOf_eq_fault.mpr (State.push16_of_gt (s.flags.setWidth 16) h)
  · exact outcomeOf_eq_fault.mpr (State.call_of_gt imm h)
  · exact outcomeOf_eq_fault.mpr (State.call_of_gt (s.reg rx) h)
  · exact outcomeOf_eq_fault.mpr
      ((State.whenCond_of_condition_some htaken (s.call imm)).trans (State.call_of_gt imm h))
  · exact outcomeOf_eq_fault.mpr (State.popInto_of_lt rx h)
  · exact outcomeOf_eq_fault.mpr (State.popFlags_of_lt h)
  · exact outcomeOf_eq_fault.mpr (State.pushAll_of_gt h)
  · exact outcomeOf_eq_fault.mpr (State.popAll_of_lt h)

/-- Settles O19: the three register shifts check one count, and `RND` its limit. -/
theorem shiftCountAndRandomLimitFaults : Obligations.ShiftCountAndRandomLimitFaults := by
  intro s rx ry
  refine ⟨fun h => ⟨?_, ?_, ?_⟩, exec_rnd_of_eq rx rfl⟩
  · exact outcomeOf_eq_fault.mpr (State.shiftBy_of_ge rx shlF h)
  · exact outcomeOf_eq_fault.mpr (State.shiftBy_of_ge rx shrF h)
  · exact outcomeOf_eq_fault.mpr (State.shiftBy_of_ge rx sarF h)

end Sys2Proof.Machine
end

section
/-! When an instruction runs (70_reset_and_hazards.md R299): a shared operation is never without an answer, so it is
enough to know when it answers a state. -/
namespace Sys2Proof.Machine

open Sys2Proof.Claims

/-- The outcome is a next state where `P` holds and a fault where it does not; never a refusal. -/
def RunsExactly (P : Prop) (o : Host.Outcome State Fault Refusal) : Prop :=
  (P → ∃ t, o = .next t) ∧ (¬ P → ∃ f, o = .fault f)

theorem runsExactly_next (t : State) : RunsExactly True (.next t) :=
  ⟨fun _ => ⟨t, rfl⟩, fun h => absurd trivial h⟩

theorem runsExactly_outcomeOf {P : Prop} {r : Except Fault State} (h : (∃ t, r = .ok t) ↔ P) :
    RunsExactly P (outcomeOf r) := by
  rw [← h]
  cases r with
  | ok t => exact ⟨fun _ => ⟨t, rfl⟩, fun hnot => absurd ⟨t, rfl⟩ hnot⟩
  | error f => exact ⟨nofun, fun _ => ⟨f, rfl⟩⟩

section
variable {s : State}

theorem State.push16_answers (v : Word) : (∃ t, s.push16 v = .ok t) ↔ s.sp.toNat ≤ 0xFFFD :=
  ⟨fun ⟨_, h⟩ => (State.push16_eq_ok.mp h).1, fun h => ⟨_, State.push16_of_le v h⟩⟩

theorem State.call_answers (v : Word) : (∃ t, s.call v = .ok t) ↔ s.sp.toNat ≤ 0xFFFD :=
  ⟨fun ⟨_, h⟩ => (State.call_eq_ok h).1, fun h => ⟨_, State.call_of_le v h⟩⟩

theorem State.popInto_answers (rx : Reg) : (∃ t, s.popInto rx = .ok t) ↔ 2 ≤ s.sp.toNat := by
  refine ⟨fun ⟨_, h⟩ => ?_, fun h => ⟨_, State.popInto_of_ge rx h⟩⟩
  by_contra hlt
  rw [State.popInto_of_lt rx (Nat.not_le.mp hlt)] at h
  cases h

theorem State.popFlags_answers : (∃ t, s.popFlags = .ok t) ↔ 2 ≤ s.sp.toNat := by
  refine ⟨fun ⟨_, h⟩ => ?_, fun h => ⟨_, State.popFlags_of_ge h⟩⟩
  by_contra hlt
  rw [State.popFlags_of_lt (Nat.not_le.mp hlt)] at h
  cases h

theorem State.pushAll_answers : (∃ t, s.pushAll = .ok t) ↔ s.sp.toNat ≤ 0xFFDF := by
  refine ⟨fun ⟨_, h⟩ => ?_, fun h => let ⟨_, hok, _⟩ := State.pushAll_of_le h; ⟨_, hok⟩⟩
  by_contra hgt
  rw [State.pushAll_of_gt (Nat.not_le.mp hgt)] at h
  cases h

theorem State.popAll_answers : (∃ t, s.popAll = .ok t) ↔ 32 ≤ s.sp.toNat := by
  refine ⟨fun ⟨_, h⟩ => ?_, fun h => let ⟨_, hok, _⟩ := State.popAll_of_ge h; ⟨_, hok⟩⟩
  by_contra hlt
  rw [State.popAll_of_lt (Nat.not_le.mp hlt)] at h
  cases h

theorem State.loadWord_answers (rx : Reg) (a : Nat) : (∃ t, s.loadWord rx a = .ok t) ↔ a < 0xFFFF :=
  ⟨fun ⟨_, h⟩ => (State.loadWord_eq_ok h).1, fun h => ⟨_, State.loadWord_of_lt rx h⟩⟩

theorem State.memWriteWord_answers (a : Nat) (v : Word) : (∃ t, s.memWriteWord a v = .ok t) ↔ a < 0xFFFF :=
  ⟨fun ⟨_, h⟩ => (State.memWriteWord_eq_ok h).1, fun h => ⟨_, State.memWriteWord_of_lt v h⟩⟩

theorem State.loadPalette_answers (a : Nat) : (∃ t, s.loadPalette a = .ok t) ↔ a ≤ 0xFFD0 :=
  ⟨fun ⟨_, h⟩ => (State.loadPalette_eq_ok h).1, fun h => ⟨_, State.loadPalette_of_le h⟩⟩

theorem State.shiftBy_answers (rx ry : Reg) (F : Word → Nat → Byte → Word × Byte) :
    (∃ t, s.shiftBy rx ry F = .ok t) ↔ (s.reg ry).toNat < 16 :=
  ⟨fun ⟨_, h⟩ => (State.shiftBy_eq_ok h).1, fun h => ⟨_, State.shiftBy_of_lt rx F h⟩⟩

theorem State.drawSprite_answers (x y : Int) (a : Nat) :
    (∃ t, s.drawSprite x y a = .ok t) ↔ s.spriteFits x y a := by
  constructor
  · rintro ⟨t, h⟩
    exact (State.drawSprite_eq_ok h).imp And.left And.left
  · rintro (hnoOp | hfits)
    · exact ⟨_, State.drawSprite_of_noOp hnoOp⟩
    · by_cases hnoOp : (s.blitArgs x y a).noOp = true
      · exact ⟨_, State.drawSprite_of_noOp hnoOp⟩
      · obtain ⟨b, -, -, hok⟩ := State.drawSprite_of_le hnoOp hfits
        exact ⟨_, hok⟩

/-- A division writes back exactly where its check passes. -/
theorem State.writeChecked_answers (rd : Reg) {a b : Word} {x : Except Fault (Word × Byte)}
    (hok : divCheck a b = none → ∃ v, x = .ok v) (herr : ∀ f, divCheck a b = some f → x = .error f) :
    (∃ t, s.writeChecked rd x = .ok t) ↔ divisible a b := by
  rw [← divCheck_eq_none_iff_divisible]
  cases hcheck : divCheck a b with
  | none =>
    obtain ⟨v, rfl⟩ := hok hcheck
    exact ⟨fun _ => rfl, fun _ => ⟨_, rfl⟩⟩
  | some f =>
    rw [herr f hcheck]
    exact ⟨fun ⟨_, h⟩ => (nomatch h), nofun⟩

theorem divF_answers (rd : Reg) (a b : Word) (f : Byte) :
    (∃ t, s.writeChecked rd (divF a b f) = .ok t) ↔ divisible a b :=
  State.writeChecked_answers rd (fun h => ⟨_, divF_eq_ok f h⟩) fun _ h =>
    let ⟨hdiv, _⟩ := divF_eq_error f h; hdiv

theorem modF_answers (rd : Reg) (a b : Word) (f : Byte) :
    (∃ t, s.writeChecked rd (modF a b f) = .ok t) ↔ divisible a b :=
  State.writeChecked_answers rd (fun h => ⟨_, modF_eq_ok f h⟩) fun _ h =>
    let ⟨_, hmod, _⟩ := divF_eq_error f h; hmod

theorem remF_answers (rd : Reg) (a b : Word) (f : Byte) :
    (∃ t, s.writeChecked rd (remF a b f) = .ok t) ↔ divisible a b :=
  State.writeChecked_answers rd (fun h => ⟨_, remF_eq_ok f h⟩) fun _ h =>
    let ⟨_, _, hrem⟩ := divF_eq_error f h; hrem

/-- A conditional operation answers where its index names a condition that is false, or true and the operation
answers. -/
theorem State.whenCond_answers (cnd : CondIndex) (taken : Except Fault State) :
    (∃ t, s.whenCond cnd taken = .ok t) ↔
      cnd.val < 15 ∧ (condition cnd s.flags = some true → ∃ t, taken = .ok t) := by
  have hnamed := condition_isSome cnd s.flags
  cases hcond : condition cnd s.flags with
  | none =>
    rw [hcond] at hnamed
    rw [State.whenCond_of_condition_none hcond]
    exact ⟨fun ⟨_, h⟩ => (nomatch h), fun ⟨hlt, _⟩ => absurd hlt (of_decide_eq_false hnamed.symm)⟩
  | some holds =>
    rw [hcond] at hnamed
    rw [State.whenCond_of_condition_some hcond]
    have hlt : cnd.val < 15 := of_decide_eq_true hnamed.symm
    cases holds with
    | true => exact ⟨fun h => ⟨hlt, fun _ => h⟩, fun h => h.2 rfl⟩
    | false => exact ⟨fun _ => ⟨hlt, nofun⟩, fun _ => ⟨s, rfl⟩⟩

end

/-- Settles O14, operation by operation; an instruction without a check always answers. -/
theorem execRunsExactlyInsideDefinedBehaviour : Obligations.ExecRunsExactlyInsideDefinedBehaviour := by
  intro i s
  change RunsExactly (instrRuns i s) (exec i s)
  cases i with
  | jx cnd imm =>
    refine runsExactly_outcomeOf ((State.whenCond_answers cnd _).trans ?_)
    exact and_iff_left fun _ => ⟨_, rfl⟩
  | cx cnd imm =>
    refine runsExactly_outcomeOf ((State.whenCond_answers cnd _).trans ?_)
    rw [State.call_answers]
    rfl
  | call imm => exact runsExactly_outcomeOf (State.call_answers imm)
  | call2 rx => exact runsExactly_outcomeOf (State.call_answers _)
  | push rx => exact runsExactly_outcomeOf (State.push16_answers _)
  | pushf => exact runsExactly_outcomeOf (State.push16_answers _)
  | ret =>
    refine ⟨fun h => ⟨_, exec_ret_of_ge h⟩, fun h => ⟨_, exec_ret_of_lt (Nat.not_le.mp h)⟩⟩
  | pop rx => exact runsExactly_outcomeOf (State.popInto_answers rx)
  | popf => exact runsExactly_outcomeOf State.popFlags_answers
  | pushall => exact runsExactly_outcomeOf State.pushAll_answers
  | popall => exact runsExactly_outcomeOf State.popAll_answers
  | ldm rx imm | ldm2 rx ry => exact runsExactly_outcomeOf (State.loadWord_answers rx _)
  | stm rx imm | stm2 rx ry => exact runsExactly_outcomeOf (State.memWriteWord_answers _ _)
  | pal imm | pal2 rx => exact runsExactly_outcomeOf (State.loadPalette_answers _)
  | divi rx imm | div rx ry | div2 rx ry rz => exact runsExactly_outcomeOf (divF_answers _ _ _ _)
  | modi rx imm | mod rx ry | mod2 rx ry rz => exact runsExactly_outcomeOf (modF_answers _ _ _ _)
  | remi rx imm | rem rx ry | rem2 rx ry rz => exact runsExactly_outcomeOf (remF_answers _ _ _ _)
  | shl2 rx ry | shr2 rx ry | sar2 rx ry => exact runsExactly_outcomeOf (State.shiftBy_answers rx ry _)
  | drw rx ry imm | drw2 rx ry rz => exact runsExactly_outcomeOf (State.drawSprite_answers _ _ _)
  | rnd rx max =>
    exact ⟨fun h => ⟨_, exec_rnd_of_ne rx h⟩, fun h => ⟨_, exec_rnd_of_eq rx (not_not.mp h)⟩⟩
  | _ => exact runsExactly_next _

end Sys2Proof.Machine
end

section
/-! The readings of an addition or subtraction's flags (42_arithmetic.md R130, R131; 90_conflicts.md C3). -/
namespace Sys2Proof.Machine

open Sys2Proof.Claims

theorem addF_fst (a b : Word) (f : Byte) : (addF a b f).1 = a + b := by
  rw [← BitVec.toNat_inj, toNat_addF, BitVec.toNat_add]

theorem subF_fst (a b : Word) (f : Byte) : (subF a b f).1 = a - b := by
  apply BitVec.eq_of_toNat_eq
  have hval := toNat_subF a b f
  rw [BitVec.toNat_sub]
  omega

theorem flagO_addF_eq (a b : Word) (f : Byte) : flagO (addF a b f).2 = a.saddOverflow b := by
  obtain ⟨-, -, -, hO, -⟩ := addF_spec a b f
  rw [hO, addF_fst, BitVec.saddOverflow_eq]
  rfl

theorem flagO_subF_eq (a b : Word) (f : Byte) : flagO (subF a b f).2 = a.ssubOverflow b := by
  obtain ⟨-, -, -, hO, -⟩ := subF_spec a b f
  rw [hO, subF_fst, BitVec.ssubOverflow_eq]
  cases a.msb <;> cases b.msb <;> cases (a - b).msb <;> rfl

theorem saddOverflow_iff (a b : Word) :
    a.saddOverflow b = true ↔ ¬ (-32768 ≤ a.toInt + b.toInt ∧ a.toInt + b.toInt ≤ 32767) := by
  simp only [BitVec.saddOverflow, Bool.or_eq_true, decide_eq_true_eq]
  omega

theorem ssubOverflow_iff (a b : Word) :
    a.ssubOverflow b = true ↔ ¬ (-32768 ≤ a.toInt - b.toInt ∧ a.toInt - b.toInt ≤ 32767) := by
  simp only [BitVec.ssubOverflow, Bool.or_eq_true, decide_eq_true_eq]
  omega

/-- Settles O23: the flag's formula is the library's overflow predicate, and `CMP` writes the flags of `SUB`. -/
theorem overflowIffSignedResultOutOfRange : Obligations.OverflowIffSignedResultOutOfRange := by
  intro s rx ry
  refine ⟨_, _, _, rfl, rfl, rfl, ?_, ?_, rfl⟩
  · rw [State.writeAlu_flags, flagO_addF_eq, saddOverflow_iff]
  · rw [State.writeAlu_flags, flagO_subF_eq, ssubOverflow_iff]

/-- After a subtraction O and N differ exactly when the first operand is below the second as a signed number: a
difference that fits has the sign N says, one that does not has the other. -/
theorem flagO_ne_flagN_subF_iff (a b : Word) (f : Byte) :
    flagO (subF a b f).2 ≠ flagN (subF a b f).2 ↔ a.toInt < b.toInt := by
  obtain ⟨-, -, -, -, hN⟩ := subF_spec a b f
  have ha := toInt_range a
  have hb := toInt_range b
  have hover := ssubOverflow_iff a b
  rw [← flagO_subF_eq a b f] at hover
  have hneg : flagN (subF a b f).2 = true ↔ (a.toInt - b.toInt).bmod 65536 < 0 := by
    rw [hN, subF_fst, BitVec.msb_eq_toInt, BitVec.toInt_sub, decide_eq_true_eq]
  rw [Int.bmod_def] at hneg
  rw [ne_eq, Bool.eq_iff_iff, hover, hneg]
  omega

theorem flagZ_subF_iff (a b : Word) (f : Byte) : flagZ (subF a b f).2 = true ↔ a = b := by
  obtain ⟨-, -, hZ, -, -⟩ := subF_spec a b f
  rw [hZ, beq_iff_eq, subF_fst, ← BitVec.toNat_inj, BitVec.toNat_sub]
  have := a.isLt
  have := b.isLt
  omega

/-- Settles O24. After `CMP` the carry, the zero flag and the pair of O and N say the three orders of the operands, and
each condition is one of these or a combination of two. -/
theorem conditionsAfterCompareOrderOperands : Obligations.ConditionsAfterCompareOrderOperands := by
  intro s rx ry
  refine ⟨_, rfl, ?_⟩
  rw [State.writeFlags_flags]
  generalize hf : (subF (s.reg rx) (s.reg ry) s.flags).2 = f
  obtain ⟨-, hC, -, -, -⟩ := subF_spec (s.reg rx) (s.reg ry) s.flags
  have hZ : flagZ f = decide (s.reg rx = s.reg ry) := by
    rw [← hf, Bool.eq_iff_iff, flagZ_subF_iff, decide_eq_true_eq]
  have hlt := flagO_ne_flagN_subF_iff (s.reg rx) (s.reg ry) s.flags
  rw [hf] at hC hlt
  have hnat : s.reg rx = s.reg ry ↔ (s.reg rx).toNat = (s.reg ry).toNat := BitVec.toNat_inj.symm
  have hint : s.reg rx = s.reg ry ↔ (s.reg rx).toInt = (s.reg ry).toInt := BitVec.toInt_inj.symm
  have hge : flagO f = flagN f ↔ (s.reg ry).toInt ≤ (s.reg rx).toInt := by rw [← not_lt, ← hlt, ne_eq, not_not]
  obtain ⟨hcondZ, -, -, -, -, -, hAE, hB⟩ := condition_one_flag f
  obtain ⟨-, hA, hBE⟩ := condition_with_zero f
  obtain ⟨hG, hGE, hL, hLE⟩ := condition_signed_order f
  rw [hcondZ, hB, hAE, hA, hBE, hL, hGE, hG, hLE, hC, hZ]
  simp only [Option.some.injEq, hlt, hge, ← decide_not, ← Bool.decide_and, ← Bool.decide_or, decide_eq_decide]
  refine ⟨trivial, trivial, not_lt, ?above, ?belowOrEqual, trivial, trivial, ?greater, ?lessOrEqual⟩
  case above | belowOrEqual => rw [hnat]; omega
  case greater | lessOrEqual => rw [hint]; omega

end Sys2Proof.Machine
end

section
/-! Results with Z and N, products, quotients, remainders and shifts: wherever an ALU function's result is put, its
statement follows from the function's own laws (43_bitwise.md to 45_shift.md, 47_palette_unary.md). -/
namespace Sys2Proof.Machine

open Sys2Proof.Claims

theorem flagsZN_of_setZN {t : State} {f : Byte} {r : Word} (h : t.flags = setZN f r) : FlagsZN t r :=
  flagsZN_of_flags (by rw [h, flagZ_setZN]) (by rw [h, flagN_setZN])

theorem putsZN_of_exec {i : Instr} {s : State} {rd : Reg} {r : Word}
    (h : exec i s = .next (s.writeAlu rd (withZN r s.flags))) : PutsZN i rd r s :=
  ⟨_, h, ⟨s.reg_writeAlu_self rd _, flagsZN_of_setZN rfl⟩, State.writeAlu_frame (getLsbD_withZN r s.flags)⟩

theorem testsZN_of_exec {i : Instr} {s : State} {r : Word}
    (h : exec i s = .next (s.writeFlags (withZN r s.flags))) : TestsZN i r s :=
  ⟨_, h, flagsZN_of_setZN rfl, State.writeFlags_frame (getLsbD_withZN r s.flags)⟩

/-- A result put with Z and N, read as a signed number. -/
theorem putsInt_of_putsZN {i : Instr} {s : State} {rd : Reg} {r : Word} {n : Int} (h : PutsZN i rd r s)
    (hn : r.toInt = n) : PutsInt i rd n s := by
  obtain ⟨t, hexec, ⟨hreg, hflags⟩, hframe⟩ := h
  exact ⟨t, hexec, ⟨by rw [hreg, hn], by rwa [hreg]⟩, hframe⟩

theorem mulsTo_of_exec {i : Instr} {s : State} {rd : Reg} {a b : Word}
    (h : exec i s = .next (s.writeAlu rd (mulF a b s.flags))) : MulsTo i rd a b s := by
  obtain ⟨-, hC, hZ, -, hN⟩ := mulF_spec a b s.flags
  refine ⟨_, h, ?_, State.writeAlu_frame (getLsbD_setZN_putC _ s.flags _)⟩
  simp only [State.reg_writeAlu_self, State.writeAlu_flags]
  exact ⟨BitVec.toNat_ofNat _ 16, hC, flagsZN_of_flags hZ hN⟩

/-- Settles O26: the eight forms, each with the operand its form names. -/
theorem bitwisePutsResultAndZN : Obligations.BitwisePutsResultAndZN := by
  intro s rx ry imm
  exact ⟨putsZN_of_exec rfl, putsZN_of_exec rfl, putsZN_of_exec rfl, putsZN_of_exec rfl, putsZN_of_exec rfl,
    putsZN_of_exec rfl, testsZN_of_exec rfl, testsZN_of_exec rfl⟩

/-- The exact difference from 0, wrapped, is the word's negation. -/
theorem negF_eq (v : Word) (f : Byte) : negF v f = withZN (0 - v) f := by
  have hsub : BitVec.ofInt 16 (0 - (v.toNat : Int)) = 0 - v := subF_fst 0 v f
  rw [negF, hsub]

/-- Settles O27: the complement as it is, the negation through `negF_eq`. -/
theorem complementAndNegation : Obligations.ComplementAndNegation := by
  intro s rx ry imm
  have hneg : ∀ {i : Instr} {v : Word}, exec i s = .next (s.writeAlu rx (negF v s.flags)) → PutsZN i rx (0 - v) s :=
    fun hexec => putsZN_of_exec (hexec.trans (by rw [negF_eq]))
  exact ⟨putsZN_of_exec rfl, putsZN_of_exec rfl, putsZN_of_exec rfl, hneg rfl, hneg rfl, hneg rfl⟩

/-- Settles O28: both forms put `MULF` of their operands into `rx`. -/
theorem mulPutsProductAndFlags : Obligations.MulPutsProductAndFlags :=
  fun _ _ _ _ => ⟨mulsTo_of_exec rfl, mulsTo_of_exec rfl⟩

/-- Settles O25: the two-register forms' functions, with `rz` for the destination. -/
theorem threeRegisterFormsWriteRz : Obligations.ThreeRegisterFormsWriteRz := by
  intro s rx ry rz
  exact ⟨addsTo_of_exec rfl, subsTo_of_exec rfl, putsZN_of_exec rfl, putsZN_of_exec rfl, putsZN_of_exec rfl,
    mulsTo_of_exec rfl⟩

end Sys2Proof.Machine
end

section
/-! Division (44_muldiv.md R174, R178, R182): inside the checks the exact quotient and remainders are signed readings
of words, so nothing is lost when they are put. -/
namespace Sys2Proof.Machine

open Sys2Proof.Claims

theorem natAbs_tmod_lt (x : Int) {y : Int} (hy : y ≠ 0) : (Int.tmod x y).natAbs < y.natAbs := by
  rw [Int.natAbs_tmod]
  exact Nat.mod_lt _ (Int.natAbs_pos.mpr hy)

/-- A truncated remainder is smaller than the divisor. -/
theorem toInt_tmod (x : Int) {b : Word} (hb : b.toInt ≠ 0) :
    (BitVec.ofInt 16 (Int.tmod x b.toInt)).toInt = Int.tmod x b.toInt := by
  have hlt := natAbs_tmod_lt x hb
  have hrange := toInt_range b
  exact toInt_ofInt16 (by omega) (by omega)

/-- A truncated quotient is no larger than the dividend, so only -32768 by -1 leaves the signed range. -/
theorem toInt_tdiv {a b : Word} (h : divisible a b) :
    (BitVec.ofInt 16 (Int.tdiv a.toInt b.toInt)).toInt = Int.tdiv a.toInt b.toInt := by
  obtain ⟨hb, hover⟩ := h
  have ha := toInt_range a
  have hle := Int.natAbs_tdiv_le_natAbs a.toInt b.toInt
  have hdiv := Int.mul_tdiv_add_tmod a.toInt b.toInt
  have hlt := natAbs_tmod_lt a.toInt hb
  have htop : Int.tdiv a.toInt b.toInt ≠ 32768 := by
    intro hq
    rw [hq] at hdiv
    omega
  exact toInt_ofInt16 (by omega) (by omega)

section
variable {i : Instr} {s : State} {rd : Reg} {a b : Word} (hdiv : divisible a b)
include hdiv

theorem exec_div_of_divisible (h : exec i s = outcomeOf (s.writeChecked rd (divF a b s.flags))) :
    exec i s = .next (s.writeAlu rd (BitVec.ofInt 16 (Int.tdiv a.toInt b.toInt),
      setZN (putC s.flags (decide (Int.tdiv a.toInt b.toInt * b.toInt ≠ a.toInt)))
        (BitVec.ofInt 16 (Int.tdiv a.toInt b.toInt)))) := by
  rw [h, divF_eq_ok s.flags (divCheck_eq_none_iff_divisible.mpr hdiv)]
  rfl

theorem exec_mod_of_divisible (h : exec i s = outcomeOf (s.writeChecked rd (modF a b s.flags))) :
    exec i s = .next (s.writeAlu rd (withZN
      (BitVec.ofInt 16 (Int.tmod (Int.tmod a.toInt b.toInt + b.toInt) b.toInt)) s.flags)) := by
  rw [h, modF_eq_ok s.flags (divCheck_eq_none_iff_divisible.mpr hdiv)]
  rfl

theorem exec_rem_of_divisible (h : exec i s = outcomeOf (s.writeChecked rd (remF a b s.flags))) :
    exec i s = .next (s.writeAlu rd (withZN (BitVec.ofInt 16 (Int.tmod a.toInt b.toInt)) s.flags)) := by
  rw [h, remF_eq_ok s.flags (divCheck_eq_none_iff_divisible.mpr hdiv)]
  rfl

theorem divsTo_of_exec (h : exec i s = outcomeOf (s.writeChecked rd (divF a b s.flags))) : DivsTo i rd a b s := by
  refine ⟨_, exec_div_of_divisible hdiv h, ?_, State.writeAlu_frame (getLsbD_setZN_putC _ s.flags _)⟩
  simp only [State.reg_writeAlu_self, State.writeAlu_flags, flagC_setZN, flagC_putC, toInt_tdiv hdiv]
  exact ⟨trivial, trivial, flagsZN_of_setZN rfl⟩

theorem putsModulus_of_exec (h : exec i s = outcomeOf (s.writeChecked rd (modF a b s.flags))) :
    PutsInt i rd (Int.tmod (Int.tmod a.toInt b.toInt + b.toInt) b.toInt) s :=
  putsInt_of_putsZN (putsZN_of_exec (exec_mod_of_divisible hdiv h)) (toInt_tmod _ hdiv.1)

theorem putsRemainder_of_exec (h : exec i s = outcomeOf (s.writeChecked rd (remF a b s.flags))) :
    PutsInt i rd (Int.tmod a.toInt b.toInt) s :=
  putsInt_of_putsZN (putsZN_of_exec (exec_rem_of_divisible hdiv h)) (toInt_tmod _ hdiv.1)

end

/-- Settles O29: the three forms put `DIVF` of their operands into their destination. -/
theorem divPutsTruncatedQuotient : Obligations.DivPutsTruncatedQuotient := by
  intro s rx ry rz imm
  exact ⟨fun h => divsTo_of_exec h rfl, fun h => ⟨divsTo_of_exec h rfl, divsTo_of_exec h rfl⟩⟩

/-- Settles O30: the three forms of each put `MODF` or `REMF` of their operands into their destination. -/
theorem modAndRemPutRemainders : Obligations.ModAndRemPutRemainders := by
  intro s rx ry rz imm
  exact ⟨fun h => ⟨putsModulus_of_exec h rfl, putsRemainder_of_exec h rfl⟩,
    fun h => ⟨putsModulus_of_exec h rfl, putsModulus_of_exec h rfl, putsRemainder_of_exec h rfl,
      putsRemainder_of_exec h rfl⟩⟩

/-- For a positive divisor adding it once makes the remainder non-negative. -/
theorem modulus_of_pos {r b : Int} (hlo : -b < r) (hhi : r < b) :
    Int.tmod (r + b) b = if r < 0 then r + b else r := by
  rw [Int.tmod_eq_emod_of_nonneg (by omega), Int.add_emod_right]
  split
  · rw [← Int.add_emod_right, Int.emod_eq_of_lt (by omega) (by omega)]
  · exact Int.emod_eq_of_lt (by omega) hhi

/-- A negative divisor is the mirror image. -/
theorem modulus_of_neg {r b : Int} (hlo : b < r) (hhi : r < -b) :
    Int.tmod (r + b) b = if 0 < r then r + b else r := by
  have hmirror : Int.tmod (r + b) b = -Int.tmod (-r + -b) (-b) := by
    rw [Int.tmod_neg, ← Int.neg_add, Int.neg_tmod, Int.neg_neg]
  rw [hmirror, modulus_of_pos (by omega) (by omega)]
  split <;> split <;> omega

/-- Settles O31: the values of the three destinations are the exact ones, and the laws are those of truncating
division, the modulus by the divisor's sign. -/
theorem divisionLaws : Obligations.DivisionLaws := by
  intro s rx ry rz hdiv
  obtain ⟨q, hq, ⟨hqval, -⟩, -⟩ := divsTo_of_exec (i := .div2 rx ry rz) hdiv rfl
  obtain ⟨m, hm, ⟨hmval, -⟩, -⟩ := putsModulus_of_exec (i := .mod2 rx ry rz) hdiv rfl
  obtain ⟨r, hr, ⟨hrval, -⟩, -⟩ := putsRemainder_of_exec (i := .rem2 rx ry rz) hdiv rfl
  refine ⟨q, m, r, hq, hm, hr, ?_⟩
  rw [hqval, hmval, hrval]
  have hlt := natAbs_tmod_lt (s.reg rx).toInt hdiv.1
  refine ⟨(Int.tdiv_mul_add_tmod _ _).symm, hlt, ?_⟩
  obtain hneg | hpos := lt_or_gt_of_ne hdiv.1
  · rw [modulus_of_neg (by omega) (by omega)]
    split <;> omega
  · rw [modulus_of_pos (by omega) (by omega)]
    split <;> omega

end Sys2Proof.Machine
end

section
/-! Shifts (45_shift.md R190 to R196). -/
namespace Sys2Proof.Machine

open Sys2Proof.Claims

/-- A signed number shifted right, rounding down, stays in the signed range. -/
theorem toInt_sar (a : Word) (n : Nat) :
    (BitVec.ofInt 16 (a.toInt / (2 ^ n : Int))).toInt = a.toInt / 2 ^ n := by
  obtain ⟨hlo, hhi⟩ := toInt_range a
  have hpos : (0 : Int) < 2 ^ n := by positivity
  refine toInt_ofInt16 ?_ ?_
  · exact (Int.le_ediv_iff_mul_le hpos).mpr (by nlinarith)
  · exact Int.lt_add_one_iff.mp ((Int.ediv_lt_iff_lt_mul hpos).mpr (by nlinarith))

/-- Settles O32: one count, be it immediate or a register's below 16, and one function for each of the three shifts. -/
theorem shiftsPutShiftedValue : Obligations.ShiftsPutShiftedValue := by
  intro s rx ry n
  refine ⟨putsZN_of_exec rfl, putsZN_of_exec rfl, putsInt_of_putsZN (putsZN_of_exec rfl) (toInt_sar _ _),
    fun h => ?_⟩
  refine ⟨putsZN_of_exec ?_, putsZN_of_exec ?_, putsInt_of_putsZN (putsZN_of_exec ?_) (toInt_sar _ _)⟩
  · exact outcomeOf_eq_next.mpr (State.shiftBy_of_lt rx shlF h)
  · exact outcomeOf_eq_next.mpr (State.shiftBy_of_lt rx shrF h)
  · exact outcomeOf_eq_next.mpr (State.shiftBy_of_lt rx sarF h)

end Sys2Proof.Machine
end

section
/-! Loads and stores (41_load_store.md R122 to R126), and words moved by the stack (46_stack.md R200 to R207): a word
read is the one its two bytes spell, a word written is spelled by its two bytes. -/
namespace Sys2Proof.Machine

open Sys2Proof.Claims

theorem wordAt_readWord (s : State) (a : Nat) : WordAt s a (s.mem.readWord a) := toNat_joinBytes _ _

/-- Settles O34: both forms load from an address they name. -/
theorem loadsReadLittleEndianWord : Obligations.LoadsReadLittleEndianWord := by
  intro s rx ry imm
  have hload : ∀ {i : Instr} {a : Nat}, exec i s = outcomeOf (s.loadWord rx a) → a < 0xFFFF →
      Gives i s { regs := [rx] } fun t => WordAt s a (t.reg rx) := by
    intro i a hexec ha
    refine ⟨_, hexec.trans (outcomeOf_eq_next.mpr (State.loadWord_of_lt rx ha)), ?_, s.setReg_frame rx _⟩
    simp only [State.reg_setReg_self]
    exact wordAt_readWord s a
  exact ⟨hload rfl, hload rfl⟩

/-- The two bytes of a word written, as the statements spell them. -/
theorem Memory.bytes_writeWord (m : Memory) (a : Nat) (v : Word) :
    (m.writeWord a v).readByte a = v.extractLsb' 0 8 ∧ (m.writeWord a v).readByte (a + 1) = v.extractLsb' 8 8 := by
  simp only [Memory.readByte_writeWord, if_true, if_neg (Nat.succ_ne_self a).symm]
  exact ⟨rfl, rfl⟩

/-- Settles O35: both forms store at an address they name. -/
theorem storesWriteLittleEndianWord : Obligations.StoresWriteLittleEndianWord := by
  intro s rx ry imm
  have hstore : ∀ {i : Instr} {a : Nat}, exec i s = outcomeOf (s.memWriteWord a (s.reg rx)) → a < 0xFFFF →
      Stores i a (s.reg rx) s := by
    intro i a hexec ha
    exact ⟨_, hexec.trans (outcomeOf_eq_next.mpr (State.memWriteWord_of_lt _ ha)), s.mem.bytes_writeWord a _,
      s.writeWord_frame a _⟩
  exact ⟨hstore rfl, hstore rfl⟩

/-- Settles O36: the load and the fetch read the memory the store left. -/
theorem storeIsSeenByLoadAndFetch : Obligations.StoreIsSeenByLoadAndFetch := by
  intro s rx ry imm h
  obtain ⟨hlow, hhigh⟩ := s.mem.bytes_writeWord imm.toNat (s.reg rx)
  refine ⟨_, _, outcomeOf_eq_next.mpr (State.memWriteWord_of_lt _ h),
    outcomeOf_eq_next.mpr (State.loadWord_of_lt ry h), ?_, hlow, hhigh⟩
  rw [State.reg_setReg_self]
  exact Memory.readWord_writeWord_self _ _ _

end Sys2Proof.Machine
end

section
/-! One word moved by the stack (46_stack.md R200 to R203, R206, R207), and the calls that use it (40_control_flow.md
R104 to R108). -/
namespace Sys2Proof.Machine

open Sys2Proof.Claims

theorem pushes_of_exec {i : Instr} {s : State} {v : Word} (hsp : s.sp.toNat ≤ 0xFFFD)
    (h : exec i s = outcomeOf (s.push16 v)) : Pushes i v s := by
  obtain ⟨hlow, hhigh⟩ := s.mem.bytes_writeWord s.sp.toNat v
  exact ⟨_, h.trans (outcomeOf_eq_next.mpr (State.push16_of_le v hsp)), ⟨hlow, hhigh, sp_add_two_toNat hsp⟩,
    s.push_frame v⟩

theorem calls_of_exec {i : Instr} {s : State} {target : Word} (hsp : s.sp.toNat ≤ 0xFFFD)
    (h : exec i s = outcomeOf (s.call target)) : Calls i target s := by
  obtain ⟨hlow, hhigh⟩ := s.mem.bytes_writeWord s.sp.toNat s.pc
  exact ⟨_, h.trans (outcomeOf_eq_next.mpr (State.call_of_le target hsp)),
    ⟨hlow, hhigh, sp_add_two_toNat hsp, rfl⟩, (s.push_frame s.pc).pcToo target⟩

/-- Settles O40: the word pushed is `pc`, already past the instruction. -/
theorem callPushesReturnAddress : Obligations.CallPushesReturnAddress := by
  intro s imm
  exact ⟨fun hsp => calls_of_exec hsp rfl, fun hsp => outcomeOf_eq_fault.mpr (State.call_of_gt imm hsp)⟩

/-- Settles O41: the three forms differ in their target and, for `Cx`, in the test that comes first. -/
theorem indirectJumpsAndConditionalCalls : Obligations.IndirectJumpsAndConditionalCalls := by
  intro s rx cnd imm
  have hcx : ∀ {holds : Bool}, condition cnd s.flags = some holds →
      exec (.cx cnd imm) s = outcomeOf (if holds then s.call imm else .ok s) :=
    fun hcond => congrArg outcomeOf (State.whenCond_of_condition_some hcond (s.call imm))
  exact ⟨gives_pc_of_exec rfl, fun hsp => ⟨calls_of_exec hsp rfl, fun htrue => calls_of_exec hsp (hcx htrue)⟩,
    hcx⟩

/-- The word below `sp`, at the address the statements name. -/
theorem wordAt_below_sp {s : State} (hsp : 2 ≤ s.sp.toNat) :
    WordAt s (s.sp.toNat - 2) (s.mem.readWord (s.sp - 2).toNat) := by
  rw [sp_sub_two_toNat hsp]
  exact wordAt_readWord s _

/-- A frame may name `sp` too. -/
theorem OnlyWrites.spToo {w : Writes} {s t : State} (h : OnlyWrites w s t) (v : Word) :
    OnlyWrites { w with sp := true } s { t with sp := v } :=
  { h with sp := nofun }

/-- Settles O42: the word below `sp` goes to `pc`. -/
theorem retPopsPc : Obligations.RetPopsPc := by
  intro s
  refine ⟨fun hsp => ?_, exec_ret_of_lt⟩
  exact ⟨_, exec_ret_of_ge hsp, ⟨wordAt_below_sp hsp, sp_sub_two_toNat hsp⟩, (s.setSp_frame _).pcToo _⟩

/-- Settles O43: both pushes store one word, and `POP` puts the word below `sp` into its register. -/
theorem pushAndPopMoveOneWord : Obligations.PushAndPopMoveOneWord := by
  intro s rx
  refine ⟨fun hsp => ⟨pushes_of_exec hsp rfl, pushes_of_exec hsp rfl⟩, fun hsp => ?_⟩
  refine ⟨_, outcomeOf_eq_next.mpr (State.popInto_of_ge rx hsp), ⟨?_, sp_sub_two_toNat hsp⟩,
    (s.setReg_frame rx _).spToo _⟩
  rw [State.reg_setReg_self]
  exact wordAt_below_sp hsp

theorem getLsbD_flagMask (k : Nat) : flagMask.getLsbD k = decide (k = 1 ∨ k = 2 ∨ k = 6 ∨ k = 7) := by
  by_cases hk : k < 8
  · revert k
    decide
  · rw [BitVec.getLsbD_of_ge _ _ (Nat.not_lt.mp hk)]
    exact (decide_eq_false (by omega)).symm

theorem lowByte_readWord (m : Memory) (a : Nat) : lowByte (m.readWord a) = m.readByte a := lowByte_joinBytes _ _

/-- A frame that names every bit of `FLAGS` leaves `FLAGS` free. -/
theorem OnlyWrites.flagsToo {w : Writes} {s t : State} (h : OnlyWrites w s t) (f : Byte) :
    OnlyWrites { w with flags := [0, 1, 2, 3, 4, 5, 6, 7] } s { t with flags := f } := by
  refine { h with flags := fun k hk => ?_ }
  have hge : 8 ≤ k := by
    simp only [List.mem_cons, List.not_mem_nil, or_false, not_or] at hk
    omega
  rw [BitVec.getLsbD_of_ge _ _ hge, BitVec.getLsbD_of_ge _ _ hge]

/-- Settles O44: the mask is the four flag bits. -/
theorem popfKeepsFlagBits : Obligations.PopfKeepsFlagBits := by
  intro s hsp
  refine ⟨_, outcomeOf_eq_next.mpr (State.popFlags_of_ge hsp), ⟨sp_sub_two_toNat hsp, fun k => ?_⟩,
    (s.setSp_frame (s.sp - 2)).flagsToo _⟩
  simp only [BitVec.getLsbD_and, getLsbD_flagMask, lowByte_readWord, sp_sub_two_toNat hsp]
  exact Bool.and_comm _ _

/-- Memory written between two addresses. -/
theorem State.setMem_frame {s : State} {m : Memory} {a n : Nat}
    (h : ∀ b, (b < a ∨ a + n ≤ b) → m.readByte b = s.mem.readByte b) :
    OnlyWrites { memAt := a, memLen := n } s { s with mem := m } :=
  { OnlyWrites.refl { memAt := a, memLen := n } s with mem := h }

/-- All sixteen registers written. -/
theorem State.setRegs_frame (s : State) (rs : Vector Word 16) :
    OnlyWrites { regs := List.finRange 16 } s { s with regs := rs } :=
  { OnlyWrites.refl { regs := List.finRange 16 } s with regs := fun r hr => absurd (List.mem_finRange r) hr }

theorem sp_add_32_toNat {p : Word} (h : p.toNat ≤ 0xFFDF) : (p + 32).toNat = p.toNat + 32 :=
  BitVec.toNat_add_of_lt (show p.toNat + 32 < 65536 by omega)

theorem sp_sub_32_toNat {p : Word} (h : 32 ≤ p.toNat) : (p - 32).toNat = p.toNat - 32 :=
  BitVec.toNat_sub_of_le h

/-- Settles O45: the words of `pushAll_of_le` and `popAll_of_ge`, spelled by their bytes. -/
theorem pushallAndPopallMoveSixteenWords : Obligations.PushallAndPopallMoveSixteenWords := by
  intro s
  refine ⟨fun hsp => ?_, fun hsp => ?_⟩
  · obtain ⟨m, hok, hwords, hframe⟩ := State.pushAll_of_le hsp
    refine ⟨_, outcomeOf_eq_next.mpr hok, ⟨sp_add_32_toNat hsp, fun i => ?_⟩,
      (State.setMem_frame hframe).spToo _⟩
    rw [← hwords i]
    exact wordAt_readWord _ _
  · obtain ⟨rs, hok, hwords⟩ := State.popAll_of_ge hsp
    refine ⟨_, outcomeOf_eq_next.mpr hok, ⟨sp_sub_32_toNat hsp, fun i => ?_⟩, (s.setRegs_frame rs).spToo _⟩
    rw [State.reg, hwords i]
    exact wordAt_readWord _ _

/-- Settles O46: the words popped are the ones pushed, whatever the registers hold between. -/
theorem popallUndoesPushall : Obligations.PopallUndoesPushall := by
  intro s rs hsp
  obtain ⟨m, hpush, hpushed, -⟩ := State.pushAll_of_le hsp
  obtain ⟨qs, hpop, hpopped⟩ :=
    State.popAll_of_ge (s := { s with mem := m, sp := s.sp + 32, regs := rs }) (by
      rw [sp_add_32_toNat hsp]; omega)
  refine ⟨_, _, outcomeOf_eq_next.mpr hpush, outcomeOf_eq_next.mpr hpop, ?_, BitVec.add_sub_cancel _ _, rfl, rfl⟩
  refine Vector.ext fun k hk => ?_
  have h := hpopped ⟨k, hk⟩
  rw [sp_add_32_toNat hsp, Nat.add_sub_cancel, hpushed ⟨k, hk⟩] at h
  exact h

/-- A word popped right after it was pushed is that word. -/
theorem readWord_of_push {s : State} (v : Word) :
    (s.mem.writeWord s.sp.toNat v).readWord (s.sp + 2 - 2).toNat = v := by
  rw [BitVec.add_sub_cancel, Memory.readWord_writeWord_self]

theorem lowByte_setWidth (f : Byte) : lowByte (f.setWidth 16) = f := by revert f; decide

theorem and_flagMask_of_reserved {f : Byte} (h : f &&& ~~~flagMask = 0) : f &&& flagMask = f := by
  revert f
  decide

/-- Settles O47: after a push that fits there is a word below `sp`, the one pushed. -/
theorem pushPopRoundTrips : Obligations.PushPopRoundTrips := by
  intro s rx ry imm hsp
  have hpop : 2 ≤ (s.sp + 2).toNat := by rw [sp_add_two_toNat hsp]; omega
  refine ⟨?_, fun hreserved => ?_, ?_⟩
  · refine ⟨_, _, outcomeOf_eq_next.mpr (State.push16_of_le _ hsp),
      outcomeOf_eq_next.mpr (State.popInto_of_ge ry hpop), ?_, BitVec.add_sub_cancel _ _⟩
    rw [State.reg_setReg_self, readWord_of_push]
  · refine ⟨_, _, outcomeOf_eq_next.mpr (State.push16_of_le _ hsp),
      outcomeOf_eq_next.mpr (State.popFlags_of_ge hpop), ?_, BitVec.add_sub_cancel _ _⟩
    simp only [readWord_of_push, lowByte_setWidth, and_flagMask_of_reserved hreserved]
  · refine ⟨_, _, outcomeOf_eq_next.mpr (State.call_of_le imm hsp), exec_ret_of_ge hpop, ?_,
      BitVec.add_sub_cancel _ _⟩
    exact readWord_of_push s.pc

end Sys2Proof.Machine
end

section
/-! Palette, draw state and random numbers (47_palette_unary.md R210, R211, 48_graphics.md R220 to R225). -/
namespace Sys2Proof.Machine

open Sys2Proof.Claims

theorem loadsPalette_of_exec {i : Instr} {s : State} {a : Nat} (ha : a ≤ 0xFFD0)
    (h : exec i s = outcomeOf (s.loadPalette a)) : LoadsPalette i a s := by
  refine ⟨_, h.trans (outcomeOf_eq_next.mpr (State.loadPalette_of_le ha)), fun k => ?_,
    { OnlyWrites.refl { pal := true } s with pal := nofun }⟩
  rw [Fin.getElem_fin, Vector.getElem_ofFn]
  exact toNat_rgbOf _ _ _

/-- Settles O48: both forms load from an address they name. -/
theorem paletteLoadsBigEndianTriples : Obligations.PaletteLoadsBigEndianTriples :=
  fun _ _ _ => ⟨fun h => loadsPalette_of_exec h rfl, fun h => loadsPalette_of_exec h rfl⟩

/-- Settles O49: each setter is one record update, whose frame is all but the part it names. -/
theorem drawStateSetters : Obligations.DrawStateSetters := by
  intro s n w h fh fv
  refine ⟨⟨_, rfl, ⟨rfl, cellGet_nil⟩, ?cls⟩, ⟨_, rfl, rfl, ?bgc⟩, ⟨_, rfl, ⟨rfl, rfl⟩, ?spr⟩,
    ⟨_, rfl, ⟨rfl, rfl⟩, ?flip⟩⟩
  case cls => exact { OnlyWrites.refl { bg := true, fb := true } s with bg := nofun, fb := nofun }
  case bgc => exact { OnlyWrites.refl { bg := true } s with bg := nofun }
  case spr => exact { OnlyWrites.refl { size := true } s with size := nofun }
  case flip => exact { OnlyWrites.refl { flips := true } s with flips := nofun }

/-- The remainder by a limit that is not 0 is a word below it. -/
theorem State.drawRnd_lt (s : State) {max : Word} (h : max.toNat ≠ 0) : (s.drawRnd max).toNat < max.toNat := by
  have hlt : (Config.freeRandom s.draws).toNat % max.toNat < max.toNat := Nat.mod_lt _ (Nat.pos_of_ne_zero h)
  rwa [State.drawRnd, BitVec.toNat_ofNat, Nat.mod_eq_of_lt (hlt.trans max.isLt)]

/-- Settles O51, whatever the free value. -/
theorem rndDrawsBelowLimit : Obligations.RndDrawsBelowLimit := by
  intro s rx max h
  refine ⟨_, exec_rnd_of_ne rx h, ⟨?_, rfl⟩, { s.setReg_frame rx (s.drawRnd max) with draws := nofun }⟩
  exact (congrArg BitVec.toNat (s.reg_setReg_self rx _)).trans_lt (s.drawRnd_lt h)

/-- Settles O55: none of their handlers looks at the state. -/
theorem nopAndSoundChangeNothing : Obligations.NopAndSoundChangeNothing :=
  fun _ _ _ _ _ _ => ⟨rfl, rfl, rfl, rfl, rfl, rfl, rfl⟩

end Sys2Proof.Machine
end

section
/-! Sprites (48_graphics.md R226 to R229). `drawSprite_of_le` gives the picture as `Drawn`; here it is said in the
statements' words and used. -/
namespace Sys2Proof.Machine

open Sys2Proof.Claims

theorem noOp_iff_drawsNothing {s : State} {x y : Int} {a : Nat} :
    (s.blitArgs x y a).noOp = true ↔ DrawsNothing s x y := State.noOp_blitArgs_iff

/-- C written alone. -/
theorem State.putC_frame (s : State) (c : Bool) : OnlyWrites { flags := [1] } s { s with flags := putC s.flags c } :=
  { OnlyWrites.refl { flags := [1] } s with
    flags := fun k hk => (getLsbD_putC s.flags c k).trans (if_neg (by simpa using hk)) }

/-- Settles O52: a call that draws nothing does not look at the address. -/
theorem culledSpriteOnlyClearsCarry : Obligations.CulledSpriteOnlyClearsCarry := by
  intro s rx ry rz imm hnothing
  have hculled : ∀ {i : Instr} {a : Nat}, exec i s = outcomeOf (s.drawSprite (s.reg rx).toInt (s.reg ry).toInt a) →
      Gives i s { flags := [1] } fun t => flagC t.flags = false := by
    intro i a hexec
    have hok := State.drawSprite_of_noOp (a := a) (noOp_iff_drawsNothing.mpr hnothing)
    exact ⟨_, hexec.trans (outcomeOf_eq_next.mpr hok), flagC_putC s.flags false, s.putC_frame false⟩
  exact ⟨hculled rfl, hculled rfl⟩

/-- The picture with the blit's outcome in the state. -/
theorem exec_draw {i : Instr} {s : State} {x y : Int} {a : Nat}
    (h : exec i s = outcomeOf (s.drawSprite x y a)) (hdraws : ¬ DrawsNothing s x y)
    (hfits : a + s.spritew.toNat * s.spriteh.toNat ≤ 0x10000) :
    ∃ b, Drawn ((s.blitArgs x y a).pixelAt s.mem) (s.blitArgs x y a).covers s.fb b ∧
      exec i s = .next { s with fb := b.fb, flags := putC s.flags (b.hit != 0) } := by
  obtain ⟨b, hpicture, -, hok⟩ := State.drawSprite_of_le (mt noOp_iff_drawsNothing.mp hdraws) hfits
  exact ⟨b, hpicture, h.trans (outcomeOf_eq_next.mpr hok)⟩

section
variable {g : BlitArgs} {m : Memory} {old : List Host.Cell} {b : Blit} (h : Drawn (g.pixelAt m) g.covers old b)
include h

theorem Drawn.drawn_of_draws {sx sy : Int} (hdraws : g.draws m sx sy) :
    cellGet b.fb (fbIndex sy.toNat sx.toNat) = widen (g.pixelAt m sx sy) := by
  obtain ⟨hscreen, hcovers, hpixel⟩ := hdraws
  exact h.drawn sx sy hscreen hcovers hpixel

theorem Drawn.kept_of_not_draws {k : Nat} (hk : ∀ sx sy, g.draws m sx sy → k ≠ fbIndex sy.toNat sx.toNat) :
    cellGet b.fb k = cellGet old k :=
  h.kept k fun sx sy hscreen hcovers hpixel => hk sx sy ⟨hscreen, hcovers, hpixel⟩

theorem Drawn.collides_iff (f : Byte) :
    flagC (putC f (b.hit != 0)) = true ↔
      ∃ sx sy, g.draws m sx sy ∧ cellGet old (fbIndex sy.toNat sx.toNat) ≠ 0 := by
  rw [flagC_putC, bne_iff_ne, h.hit]
  simp only [BlitArgs.draws, and_assoc]

end

theorem paints_of_exec {i : Instr} {s : State} {x y : Int} {a : Nat}
    (h : exec i s = outcomeOf (s.drawSprite x y a)) (hdraws : ¬ DrawsNothing s x y)
    (hfits : a + s.spritew.toNat * s.spriteh.toNat ≤ 0x10000) : Paints i x y a s := by
  obtain ⟨b, hpicture, hexec⟩ := exec_draw h hdraws hfits
  have hframe : OnlyWrites { flags := [1], fb := true } s { s with fb := b.fb, flags := putC s.flags (b.hit != 0) } :=
    { s.putC_frame (b.hit != 0) with fb := nofun }
  exact ⟨_, hexec, ⟨fun _ _ => hpicture.drawn_of_draws, fun _ => hpicture.kept_of_not_draws,
    hpicture.collides_iff _⟩, hframe⟩

/-- Settles O53: the two forms differ in where the data lies. -/
theorem drawPaintsSpritePicture : Obligations.DrawPaintsSpritePicture :=
  fun _ _ _ _ _ hdraws => ⟨paints_of_exec rfl hdraws, paints_of_exec rfl hdraws⟩

/-- Settles O54: the first draw meets no cell that is not 0; the second meets, at the pixel drawn, the index the first
left there. -/
theorem secondDrawCollidesWithFirst : Obligations.SecondDrawCollidesWithFirst := by
  intro s rx ry imm hempty hdraws hfits ⟨sx, sy, hpixel⟩
  obtain ⟨b, hfirst, hexec⟩ := exec_draw (i := .drw rx ry imm) rfl hdraws hfits
  obtain ⟨c, hsecond, hexec'⟩ :=
    exec_draw (i := .drw rx ry imm) (s := { s with fb := b.fb, flags := putC s.flags (b.hit != 0) }) rfl hdraws hfits
  refine ⟨_, _, hexec, ?_, hexec', (hsecond.collides_iff _).mpr ⟨sx, sy, hpixel, ?_⟩⟩
  · rw [← Bool.not_eq_true, hfirst.collides_iff]
    rintro ⟨_, _, -, hcell⟩
    exact hcell (hempty _)
  · have hleft := hfirst.drawn_of_draws hpixel
    obtain ⟨-, -, hvisible⟩ := hpixel
    exact fun hzero => hvisible ((widen_eq_zero _).mp (hleft.symm.trans hzero))

end Sys2Proof.Machine
end

section
/-! The host's load (70_reset_and_hazards.md R291, R292) and what a render hands over (60_exceptions.md R276). -/
namespace Sys2Proof.Machine

open Sys2Proof.Claims

/-- An image loaded into the empty memory of reset: its bytes from 0, and 0 after them. -/
theorem State.loadImage_reset_of_le {image : List Byte} (entry : Word) (h : image.length ≤ 65536) :
    ∃ t, State.reset.loadImage image entry = .ok t ∧ t.pc = entry ∧ t.sp = 0xFDF0 ∧
      (∀ (k : Nat) (hk : k < image.length), t.mem.readByte k = image[k]) ∧
      ∀ k, image.length ≤ k → t.mem.readByte k = 0 := by
  refine ⟨_, if_neg (Nat.not_lt.mpr h), rfl, rfl, fun k hk => ?_, fun k hk => ?_⟩
  · simp only [Memory.readByte_writeBytes, Nat.zero_le, Nat.zero_add, hk, and_self, if_true, Nat.sub_zero]
    exact (List.getElem_eq_getD _).symm
  · simp only [Memory.readByte_writeBytes, Nat.zero_add, Nat.not_lt.mpr hk, and_false, if_false]
    exact State.reset_readByte k

theorem State.loadImage_of_gt (s : State) {image : List Byte} (entry : Word) (h : 65536 < image.length) :
    s.loadImage image entry = .error .imageTooLarge := if_pos h

/-- Settles O58: a raw image is loaded with the entry point 0. -/
theorem rawLoadFillsMemory : Obligations.RawLoadFillsMemory :=
  fun _ => ⟨State.loadImage_of_gt _ _, State.loadImage_reset_of_le _⟩

/-- A number of 32 bits from its four bytes, the lowest first. -/
theorem toNat_eq_of_bytes (n : BitVec 32) :
    n.toNat = (n.extractLsb' 0 8).toNat + 256 * ((n.extractLsb' 8 8).toNat + 256 * ((n.extractLsb' 16 8).toNat +
      256 * (n.extractLsb' 24 8).toNat)) := by
  have := n.isLt
  simp only [BitVec.extractLsb'_toNat, Nat.shiftRight_eq_div_pow]
  omega

theorem State.loadC16_of_header {s : State} {file : List Byte} (hmagic : file.take 4 = c16Magic)
    (hlen : 16 ≤ file.length) :
    s.loadC16 file = if fileNat file 0x06 4 ≠ file.length - 16 then .error .sizeMismatch
      else s.loadImage (file.drop 16) (joinBytes (fileByte file 0x0E) (fileByte file 0x0F)) := by
  rw [State.loadC16, if_neg (not_not.mpr hmagic), if_neg (Nat.not_lt.mpr hlen)]

/-- Settles O59: with the magic and a whole header only the size field and the code's length decide. -/
theorem c16LoadChecksSizeField : Obligations.C16LoadChecksSizeField := by
  refine ⟨fun file h => if_pos h, fun rest h => ?_, ?_⟩
  · have hshort : ([0x43, 0x48, 0x31, 0x36] ++ rest : List Byte).length < 16 := by
      rw [List.length_append]
      exact Nat.add_lt_add_left h 4
    rw [State.loadC16, if_neg (fun hne => hne rfl), if_pos hshort]
  · intro size check entry v r code header
    have hlen : (header ++ code).length = 16 + code.length := List.length_append
    have hsize : fileNat (header ++ code) 0x06 4 = size.toNat := (toNat_eq_of_bytes size).symm
    have hentry : joinBytes (fileByte (header ++ code) 0x0E) (fileByte (header ++ code) 0x0F) = entry :=
      joinBytes_low_high entry
    have hcode : (header ++ code).drop 16 = code := rfl
    have hload := State.loadC16_of_header (s := State.reset) (file := header ++ code) rfl (by omega)
    rw [hsize, hentry, hcode, hlen, Nat.add_sub_cancel_left] at hload
    refine ⟨fun hne => ?_, fun heq hgt => ?_, fun heq hle => ?_⟩
    · rw [hload, if_pos hne]
    · rw [hload, if_neg (not_not.mpr heq)]
      exact State.loadImage_of_gt _ entry hgt
    · rw [hload, if_neg (not_not.mpr heq)]
      exact State.loadImage_reset_of_le entry hle

/-- A byte that holds an index 0..15 holds it in its low nibble. -/
theorem toFin_lowNibble {b : Byte} {c : Fin 16} (h : b.toNat = c.val) : (lowNibble b).toFin = c := by
  have hlow : ∀ b : Byte, (lowNibble b).toFin.val = b.toNat % 16 := by decide
  exact Fin.ext (by rw [hlow, h, Nat.mod_eq_of_lt c.isLt])

/-- Settles O60. A cell is 0 exactly when its index is, which is the test between the two colours. -/
theorem renderShowsPaletteColours : Obligations.RenderShowsPaletteColours := by
  intro s sy sx hsy hsx
  have hindex : sy * 320 + sx < Config.fbSize := by simp only [Config.fbSize]; omega
  refine ⟨rfl, ?length, ?cell, fun c b hc hb => ?colour⟩
  case length => exact (List.length_map _).trans List.length_range
  case cell =>
    have hmap : s.framebuffer[sy * 320 + sx]? = (List.range Config.fbSize)[sy * 320 + sx]?.map (cellGet s.fb) :=
      List.getElem?_map
    rw [hmap, List.getElem?_range hindex]
    rfl
  case colour =>
    have hbg : s.bg.toFin = b := Fin.ext hb
    have hcolour : s.colour sy sx =
        if s.fbCell sy sx = 0 then s.pal[s.bg.toFin] else s.pal[(lowNibble (s.fbCell sy sx)).toFin] := rfl
    have hzero : s.fbCell sy sx = 0 ↔ c = 0 := by
      rw [← BitVec.toNat_inj, hc, Fin.ext_iff]
      rfl
    simp only [hcolour, hbg, toFin_lowNibble hc, hzero]

end Sys2Proof.Machine
end
